-- ==== Sys2Proof/Word.lean ====
section
/-! DEFINITION. The words of the WSCE: bytes of the serial link, 16-bit samples, 12-bit DAC codes, and the two
channel numbers (spec/00_scope.md R6, R9). -/

namespace Sys2Proof

/-- One byte of the serial link, one ASCII character of a line (R73). -/
abbrev Byte := BitVec 8

/-- A capture sample or an averaged value, u16 (R46, R261). -/
abbrev Sample := BitVec 16

/-- A DAC code, u12: 0 to `DAC_MAX` = 4095 (R6, R44). -/
abbrev Code := BitVec 12

/-- A channel number: generator channel 1 or 2, or front-end input channel 1 (captured into `CAPA`) or 2 (into
`CAPB`) (R6, R38). -/
inductive Channel where
  | one
  | two
  deriving DecidableEq, Repr, Inhabited

/-- The other channel of the pair. -/
def Channel.other : Channel → Channel
  | .one => .two
  | .two => .one

/-- A pair of like things, one per channel (`WAVE[ch]`, `AFECFG[ch]`, `PB[ch]`, `DACOUT[ch]`). -/
structure PerChannel (α : Type) where
  one : α
  two : α
  deriving DecidableEq, Repr

/-- Element `ch` of the pair. -/
def PerChannel.get {α : Type} (p : PerChannel α) : Channel → α
  | .one => p.one
  | .two => p.two

/-- The pair with element `ch` replaced. -/
def PerChannel.set {α : Type} (p : PerChannel α) (ch : Channel) (v : α) : PerChannel α :=
  match ch with
  | .one => { p with one := v }
  | .two => { p with two := v }

end Sys2Proof
end

