-- ==== Sys2Proof/Syntax.lean ====
section
/-! DEFINITION. The instructions of the WSCE: one constructor for each row of spec/opcode_table.json. -/

namespace Sys2Proof

/-- `WAVE[ch].SHAPE` (R31, R32). -/
inductive Shape where
  | sine
  | cosine
  | triangle
  | sawtooth
  | none
  deriving DecidableEq, Repr

/-- The 3-bit code a shape is held as (R32); codes 5 to 7 are never written. -/
def Shape.code : Shape → BitVec 3
  | .sine => 0
  | .cosine => 1
  | .triangle => 2
  | .sawtooth => 3
  | .none => 4

/-- The operands of an `s1` or `s2` line (R104 format S), with `SH` already mapped by R110. -/
structure SFields where
  /-- `SH` -/
  sh : Shape
  /-- `NS`, sample count -/
  ns : Nat
  /-- `FQ`, frequency in Hz -/
  fq : Nat
  /-- `AR`, raw amplitude -/
  ar : Nat
  /-- `OR`, raw offset -/
  or : Nat
  deriving DecidableEq, Repr

/-- The operands of an `m1` line (R104 format M1). -/
structure M1Fields where
  /-- `FQ`, capture rate in Hz -/
  fq : Nat
  /-- `C1`, channel 1 coupling -/
  c1 : Nat
  /-- `G1`, channel 1 gain -/
  g1 : Nat
  /-- `O1`, channel 1 offset -/
  o1 : Nat
  /-- `C2`, channel 2 coupling -/
  c2 : Nat
  /-- `G2`, channel 2 gain -/
  g2 : Nat
  /-- `O2`, channel 2 offset -/
  o2 : Nat
  deriving DecidableEq, Repr

/-- One instruction: a host command (R2), or one of the internal synthesis operations the sequencer runs for one
channel inside a paired re-arm (R217; log 10). -/
inductive Instr where
  /-- `s1`: set generator channel 1, paired re-arm (R214). -/
  | s1 (f : SFields)
  /-- `s2`: set generator channel 2, paired re-arm (R214). -/
  | s2 (f : SFields)
  /-- `m1`: configure the front end, dual capture, stream (R251). -/
  | m1 (f : M1Fields)
  /-- `m2`: averaged two-channel read (R259). -/
  | m2
  /-- `dz`: forward a supply setting of `cv` centivolts (R150). -/
  | dz (cv : Nat)
  /-- A line whose tag names no command (R151). -/
  | unrecognized
  /-- Synthesize and install a sine on `ch` (R177). -/
  | synSine (ch : Channel)
  /-- Synthesize and install a cosine on `ch` (R178). -/
  | synCosine (ch : Channel)
  /-- Synthesize and install a triangle on `ch` (R179). -/
  | synTriangle (ch : Channel)
  /-- Synthesize and install a sawtooth on `ch` (R180). -/
  | synSawtooth (ch : Channel)
  /-- Hold `ch`: shape NONE with a nonzero amplitude (R181). -/
  | synNone (ch : Channel)
  /-- Drive a constant level on `ch`: zero amplitude, any shape (R176). -/
  | synDc (ch : Channel)
  deriving DecidableEq, Repr

/-- The no-op codes (spec/60_exceptions.md R291), which a discarded line leaves in `LAST_ERR`. -/
inductive NoOpCode where
  /-- `E_PARSE`: empty or non-ASCII line, short line, ill-formed decimal field. -/
  | parse
  /-- `E_TAG`: 1-character line or unknown tag. -/
  | tag
  /-- `E_TIMEOUT`: capture timeout event (only if `CAP_TIMEOUT_ENABLED`). -/
  | timeout
  deriving DecidableEq, Repr

/-- The numeric value of a no-op code (R291). -/
def NoOpCode.value : NoOpCode → BitVec 8
  | .parse => 0x01
  | .tag => 0x02
  | .timeout => 0x03

end Sys2Proof
end

