-- ==== Sys2Proof/WellFormed.lean ====
section
/-! DEFINITION. Which instructions a line can spell: the operand bounds of spec/30_encoding.md R109. -/

namespace Sys2Proof

/-- R109, format S: `NS` ≤ 999, `FQ` ≤ 9 999 999, `AR` ≤ 9999, `OR` unbounded. -/
def SFields.wf (f : SFields) : Bool :=
  decide (f.ns ≤ 999) && decide (f.fq ≤ 9999999) && decide (f.ar ≤ 9999)

/-- R109, format M1: `FQ` ≤ 999 999, `C1`, `C2` ≤ 9, gains and offsets ≤ 999. -/
def M1Fields.wf (f : M1Fields) : Bool :=
  decide (f.fq ≤ 999999) && decide (f.c1 ≤ 9) && decide (f.g1 ≤ 999) && decide (f.o1 ≤ 999) &&
    decide (f.c2 ≤ 9) && decide (f.g2 ≤ 999) && decide (f.o2 ≤ 999)

/-- The operands of the instruction fit their fields (R109). -/
def Instr.wf : Instr → Bool
  | .s1 f => f.wf
  | .s2 f => f.wf
  | .m1 f => f.wf
  | .m2 => true
  | .dz cv => decide (cv ≤ 9999)
  | .unrecognized => true
  | .synSine _ => true
  | .synCosine _ => true
  | .synTriangle _ => true
  | .synSawtooth _ => true
  | .synNone _ => true
  | .synDc _ => true

end Sys2Proof
end

