-- ==== Sys2Proof/Decode.lean ====
section
/-! DEFINITION. From the bytes of a host line to an instruction and back (spec/30_encoding.md, spec/40_dispatch.md
R141). Decoding is total: a line that is no instruction is the no-op `E_PARSE`, by name. -/

namespace Sys2Proof

/-- What the sequencer decodes next: a host line, or, inside a paired re-arm, the synthesis selection of one channel:
whether its stored amplitude is 0 (R171) and its stored shape (the table's rows of format S.SH; log 10). -/
inductive Fetched where
  | line (raw : List Byte)
  | shape (ch : Channel) (ampZero : Bool) (sh : Shape)
  deriving DecidableEq, Repr

/-! ### Framing (R100) -/

/-- Line feed. -/
def lf : Byte := 0x0A

/-- Carriage return. -/
def cr : Byte := 0x0D

/-- The complete lines of a byte sequence, `cur` being the bytes of the line read so far (R100). -/
def frameFrom (cur : List Byte) : List Byte → List (List Byte)
  | [] => []
  | b :: bs => if b = lf then cur :: frameFrom [] bs else frameFrom (cur ++ [b]) bs

/-- The lines the host sends with a byte sequence: each ends before a line feed, which is not part of it (R100). -/
def frame (bs : List Byte) : List (List Byte) := frameFrom [] bs

/-- A carriage return just before the line feed is removed (R100). -/
def stripCr (raw : List Byte) : List Byte :=
  if raw.getLast? = some cr then raw.dropLast else raw

/-! ### Fields (R103, R104) -/

/-- A character `0` to `9`, 0x30 to 0x39 (R103). -/
def isDigit (b : Byte) : Bool := decide (0x30 ≤ b.toNat) && decide (b.toNat ≤ 0x39)

/-- `dec` (R103): base 10, most significant digit first, leading zeros allowed. -/
def dec (cs : List Byte) : Nat := cs.foldl (fun v b => 10 * v + (b.toNat - 0x30)) 0

/-- A decimal field: at least one character, all of them digits (R103). -/
def decField (cs : List Byte) : Option Nat :=
  if !cs.isEmpty && cs.all isDigit then some (dec cs) else none

/-- Characters `[i, j)` of a line (R9). -/
def chars (line : List Byte) (i j : Nat) : List Byte := (line.drop i).take (j - i)

/-- The `SH` field, compared as two characters (R110). -/
def decodeShape (c2 c3 : Byte) : Shape :=
  if c2 = 0x30 ∧ c3 = 0x30 then .sine
  else if c2 = 0x30 ∧ c3 = 0x31 then .cosine
  else if c2 = 0x31 ∧ c3 = 0x30 then .triangle
  else if c2 = 0x31 ∧ c3 = 0x31 then .sawtooth
  else .none

/-- The shape of characters `[2, 4)` of a line that is at least 4 characters long (R110). -/
def shapeField (line : List Byte) : Shape :=
  match line.drop 2 with
  | c2 :: c3 :: _ => decodeShape c2 c3
  | _ => .none

/-- The operands of a format S line (R104, R105, R106). -/
def decodeS (line : List Byte) : Option SFields :=
  if line.length < 19 then none
  else
    match decField (chars line 4 7), decField (chars line 7 14), decField (chars line 14 18),
      decField (line.drop 18) with
    | some ns, some fq, some ar, some or => some { sh := shapeField line, ns, fq, ar, or }
    | _, _, _, _ => none

/-- The operands of a format M1 line; further characters are ignored (R104, R105, R107). -/
def decodeM1 (line : List Byte) : Option M1Fields :=
  if line.length < 22 then none
  else
    match decField (chars line 2 8), decField (chars line 8 9), decField (chars line 9 12),
      decField (chars line 12 15), decField (chars line 15 16), decField (chars line 16 19),
      decField (chars line 19 22) with
    | some fq, some c1, some g1, some o1, some c2, some g2, some o2 => some { fq, c1, g1, o1, c2, g2, o2 }
    | _, _, _, _, _, _, _ => none

/-- The operand of a format DZ line; further characters are ignored (R104, R105, R107). -/
def decodeDz (line : List Byte) : Option Nat :=
  if line.length < 6 then none else decField (chars line 2 6)

/-- An instruction whose fields decoded, or the no-op `E_PARSE` (R112). -/
def orParse (o : Option Instr) : Except NoOpCode Instr :=
  match o with
  | some i => .ok i
  | none => .error .parse

/-- R101: an empty line or a byte ≥ 0x80 breaks the line contract. -/
def badLine (line : List Byte) : Bool := line.isEmpty || line.any (fun b => decide (0x80 ≤ b.toNat))

/-- The dispatch on the tag, characters 0 and 1, exact and case-sensitive (R102, R141). -/
def decodeTag (c0 c1 : Byte) (line : List Byte) : Except NoOpCode Instr :=
  if c0 = 0x73 ∧ c1 = 0x31 then orParse ((decodeS line).map Instr.s1)
  else if c0 = 0x73 ∧ c1 = 0x32 then orParse ((decodeS line).map Instr.s2)
  else if c0 = 0x6D ∧ c1 = 0x31 then orParse ((decodeM1 line).map Instr.m1)
  else if c0 = 0x6D ∧ c1 = 0x32 then .ok .m2
  else if c0 = 0x64 ∧ c1 = 0x7A then orParse ((decodeDz line).map Instr.dz)
  else .ok .unrecognized

/-- `decode` of R141 on the bytes of a line. The result `NoOp(E_TAG)` of R141 is the instruction UNRECOGNIZED of the
table, whose meaning raises it (R151; log 16). -/
def decodeLine (raw : List Byte) : Except NoOpCode Instr :=
  let line := stripCr raw
  if badLine line then .error .parse
  else
    match line with
    | c0 :: c1 :: _ => decodeTag c0 c1 line
    | _ => .ok .unrecognized

/-- The synthesis operation of a channel: zero amplitude first, whatever the shape (R171), then the shape (R170). -/
def decodeSynth (ch : Channel) (ampZero : Bool) (sh : Shape) : Instr :=
  if ampZero then .synDc ch
  else
    match sh with
    | .sine => .synSine ch
    | .cosine => .synCosine ch
    | .triangle => .synTriangle ch
    | .sawtooth => .synSawtooth ch
    | .none => .synNone ch

/-- The decoder: total on every host line and every synthesis selection. -/
def decode : Fetched → Except NoOpCode Instr
  | .line raw => decodeLine raw
  | .shape ch ampZero sh => .ok (decodeSynth ch ampZero sh)

/-! ### The encoder (R114) -/

/-- The character of a digit. -/
def digitChar (d : Nat) : Byte := BitVec.ofNat 8 (0x30 + d)

/-- `padW(v)` (R114): the last `w` decimal digits of `v`, left-padded with `0`. -/
def pad : Nat → Nat → List Byte
  | 0, _ => []
  | w + 1, v => pad w (v / 10) ++ [digitChar (v % 10)]

/-- How many decimal digits `v` has; `fuel` is at least that number less one. -/
def digitCountFrom : Nat → Nat → Nat
  | 0, _ => 1
  | fuel + 1, v => if v < 10 then 1 else digitCountFrom fuel (v / 10) + 1

/-- How many decimal digits `v` has (1 for 0). -/
def digitCount (v : Nat) : Nat := digitCountFrom v v

/-- `dec_str(v)` (R114): `v` in decimal with no padding. -/
def decStr (v : Nat) : List Byte := pad (digitCount v) v

/-- Two characters that R110 maps to the shape; for NONE the model writes `99` (DESIGN CHOICE, log 12). -/
def shapeChars : Shape → List Byte
  | .sine => [0x30, 0x30]
  | .cosine => [0x30, 0x31]
  | .triangle => [0x31, 0x30]
  | .sawtooth => [0x31, 0x31]
  | .none => [0x39, 0x39]

/-- The characters of an S line after its tag (R114 `enc_S`). -/
def encodeS (f : SFields) : List Byte :=
  shapeChars f.sh ++ (pad 3 f.ns ++ (pad 7 f.fq ++ (pad 4 f.ar ++ decStr f.or)))

/-- The characters of an M1 line after its tag (R114 `enc_M1`). -/
def encodeM1 (f : M1Fields) : List Byte :=
  pad 6 f.fq ++ (pad 1 f.c1 ++ (pad 3 f.g1 ++ (pad 3 f.o1 ++ (pad 1 f.c2 ++ (pad 3 f.g2 ++ pad 3 f.o2)))))

/-- The canonical encoding: the line of a host command without its line feed (R114), the selection of a synthesis
operation. A line for UNRECOGNIZED is `??` (DESIGN CHOICE, log 12). -/
def encode : Instr → Fetched
  | .s1 f => .line (0x73 :: 0x31 :: encodeS f)
  | .s2 f => .line (0x73 :: 0x32 :: encodeS f)
  | .m1 f => .line (0x6D :: 0x31 :: encodeM1 f)
  | .m2 => .line [0x6D, 0x32]
  | .dz cv => .line (0x64 :: 0x7A :: pad 4 cv)
  | .unrecognized => .line [0x3F, 0x3F]
  | .synSine ch => .shape ch false .sine
  | .synCosine ch => .shape ch false .cosine
  | .synTriangle ch => .shape ch false .triangle
  | .synSawtooth ch => .shape ch false .sawtooth
  | .synNone ch => .shape ch false .none
  | .synDc ch => .shape ch true .none

/-! ### The opcode table's words (R115; log 11) -/

/-- The two characters of a 16-bit table word: the first in bits 15:8 (R115). -/
def wordChars (w : Nat) : List Byte := [BitVec.ofNat 8 (w / 256), BitVec.ofNat 8 w]

/-- The characters of `k` consecutive 16-bit table words. -/
def tableChars : Nat → Nat → List Byte
  | 0, _ => []
  | k + 1, w => wordChars w ++ tableChars k (w / 65536)

/-- The line a table word begins: its characters, then operand fields of value 0, that is the digit `0`, up to the 22
characters of the longest fixed format (log 11). -/
def tableLine (nbits w : Nat) : List Byte :=
  let cs := tableChars ((nbits + 15) / 16) w
  cs ++ List.replicate (22 - cs.length) 0x30

/-- A 16-bit word of the table's S.SH rows with a shape code: `00`, `01`, `10` or `11` (R110, R115). -/
def tableShape (nbits w : Nat) : Option Shape :=
  if nbits ≤ 16 ∧ w < 65536 then
    match decodeShape (BitVec.ofNat 8 (w / 256)) (BitVec.ofNat 8 w) with
    | .none => none
    | sh => some sh
  else none

/-- What a table word stands for: the synthesis selection of channel 1 for the S.SH rows, a line for the others (R115;
log 11). -/
def tableFetched (nbits w : Nat) : Fetched :=
  match tableShape nbits w with
  | some sh => .shape .one false sh
  | none => .line (tableLine nbits w)

/-- The instruction the decoder reads from a table word (log 11). -/
def decodeTableWord (nbits w : Nat) : Option Instr :=
  match decode (tableFetched nbits w) with
  | .ok i => some i
  | .error _ => none

end Sys2Proof
end

