-- ==== Sys2Proof/Machine/Exact.lean ====
section
/-! DEFINITION. The exact real numbers of the block: what `AMP` and `OFF` hold (spec/10_state.md R35, R36), the levels of
spec/41_synthesis.md R177 to R180 as the spec writes them, and `code` of R172 over the reals. The definitions over `ℝ` are
what the machine's evaluation (Machine/Level.lean) is held to. -/

namespace Sys2Proof

/-- A real number as plain data (log 1): a rational written out, or the `k`-th of the other reals that the block's
calibration gives. -/
inductive Number where
  | rat (q : ℚ)
  | named (k : Nat)
  deriving DecidableEq, Repr, Inhabited

/-- The real number, given the values of the named ones. -/
noncomputable def Number.toReal (value : Nat → ℝ) : Number → ℝ
  | .rat q => q
  | .named k => value k

/-- A level whose code is wanted: that of DC mode (R176), or that of sample `i` of `n` of a shape (R177 to R180). -/
inductive Wanted where
  | dc (o : Number)
  | wave (sh : Shape) (a o : Number) (n i : Nat)
  deriving DecidableEq, Repr

/-- `level(SHAPE, A, O, n, i)` as R177 to R180 write it (0 for NONE, which has no level). -/
noncomputable def shapeLevel (sh : Shape) (A O : ℝ) (n i : ℕ) : ℝ :=
  match sh with
  | .sine => O + A * Real.sin (2 * Real.pi * i / n)
  | .cosine => O + A * Real.cos (2 * Real.pi * i / n)
  | .triangle => if (i : ℝ) < n / 2 then O - A * (1 - 4 * i / n) else O + A * (1 - 4 * (i / n - 1 / 2))
  | .sawtooth => O - A * (1 - 2 * i / n)
  | .none => 0

/-- The level, as a real number. -/
noncomputable def Wanted.toReal (value : Nat → ℝ) : Wanted → ℝ
  | .dc o => o.toReal value
  | .wave sh a o n i => shapeLevel sh (a.toReal value) (o.toReal value) n i

/-- `trunc` on the reals: the integer nearest in the direction of zero (R9). -/
noncomputable def realTrunc (x : ℝ) : ℤ := if 0 ≤ x then ⌊x⌋ else ⌈x⌉

/-- The scaled level `x = v · 4095 / 330` of R172. -/
noncomputable def scaled (v : ℝ) : ℝ := v * 4095 / 330

/-- `NUM_EPS` as a real (R7, D4). -/
noncomputable def eps : ℝ := 1 / 64

/-- `code(v)` of R172, `up` being the draw of the code band: the upper of its two truncations, or the lower. -/
noncomputable def realCode (up : Bool) (v : ℝ) : ℤ :=
  if eps ≤ |scaled v - round (scaled v)| then realTrunc (scaled v)
  else if up then realTrunc (scaled v + eps) else realTrunc (scaled v - eps)

/-- The named reals of a block, with the exact decisions the machine takes about them: which are 0 (R171), and the code of
a level they enter (R172). The laws fix both decisions, so that nothing is left to choose (log 1). -/
structure NamedReals where
  value : Nat → ℝ
  isZero : Nat → Bool
  isZero_iff : ∀ k, isZero k = true ↔ value k = 0
  code : Bool → Wanted → Int
  code_eq : ∀ up w, code up w = realCode up (w.toReal value)

end Sys2Proof
end

