-- ==== Sys2Proof/Config.lean ====
section
/-! DEFINITION. What is fixed for one WSCE: the parameters the source settles (spec/00_scope.md R6), the ones it
leaves open (R7, R335), and the free values that nothing constrains (R172, R258). -/

namespace Sys2Proof

/-- Byte order of the 16-bit words sent to the host (R72). -/
inductive Endian where
  | le
  | be
  deriving DecidableEq, Repr, Inhabited

/-- The parameters R7 leaves OPEN, as one record: an operation that needs one takes the record as an argument, and
the step supplies `Config.params`. The bounds R7 states for a parameter are part of its type: each is held as its
distance above its lower bound. The calibration gives real numbers as plain data, whatever reals they are (DESIGN
CHOICE, log 1; safe: Laws/Level.lean `every_calibration`). -/
structure Params where
  /-- The reals that the calibration names; `none`: it gives rationals alone, and a name stands for 0. -/
  reals : Option NamedReals
  /-- `CAL_AMP(ch, r)` (R35). -/
  calAmp : Channel → Nat → Number
  /-- `CAL_OFF(ch, r)` (R36). -/
  calOff : Channel → Nat → Number
  /-- `BIAS(ch)` (R331). -/
  bias : Channel → Number
  /-- `STREAM_ENDIAN` (R72). -/
  streamEndian : Endian
  /-- `SYN_NMAX - 64`, so that 64 ≤ `SYN_NMAX` ≤ 999 (R7, D7). -/
  synOver : Fin 936
  /-- `DAC_TMR_MAX_HZ - 64000` (R7, D9). -/
  dacOver : Nat
  /-- `ADC_TMR_MAX_HZ - 1` (R7, D16). -/
  adcOver : Nat
  deriving Inhabited

/-- `SYN_NMAX`, the "hardware buffer limit" on the generator sample count (R174). -/
def Params.synNMax (P : Params) : Nat := 64 + P.synOver.val

/-- `DAC_TMR_MAX_HZ`, the largest DAC sample-clock rate (R212). -/
def Params.dacTmrMax (P : Params) : Nat := 64000 + P.dacOver

/-- `ADC_TMR_MAX_HZ`, the largest capture rate (R253). -/
def Params.adcTmrMax (P : Params) : Nat := 1 + P.adcOver

/-- The value of a named real (log 1). -/
noncomputable def Params.named (P : Params) (k : Nat) : ℝ :=
  match P.reals with
  | some r => r.value k
  | none => 0

/-- The real number that a number of this block's registers is. -/
noncomputable def Params.toReal (P : Params) (x : Number) : ℝ := x.toReal P.named

/-- Whether a number is 0, as a real number (R171). -/
def Params.isZero (P : Params) : Number → Bool
  | .rat q => decide (q = 0)
  | .named k =>
    match P.reals with
    | some r => r.isZero k
    | none => true

namespace Config

/-- The open parameters of the WSCE at hand. No body: every claim holds for every value in the stated ranges
(R7, R335; DESIGN CHOICE, log 2; safe). -/
opaque params : Params

/-- The free ADC values: the value of the `k`-th single ADC input read that the environment has not lined up as
plain data (R258: "any u16, under no law"). No body (log 5; safe). -/
opaque freeAdc : Nat → Sample

/-- The free code-band choices: which of the two truncations a sample inside the band takes (R172). No body (log 6;
safe). -/
opaque freeBand : Nat → Bool

/-- `BUFSIZE` (R6). -/
abbrev bufSize : Nat := 1000

/-- `DAC_MAX` (R6). -/
def dacMax : Int := 4095

/-- `SCALE_NUM / SCALE_DEN` = 4095/330, synthesis domain to DAC codes (R6). -/
def scale : ℚ := 4095 / 330

/-- `AVG_N` (R6). -/
def avgN : Nat := 10

/-- `N_MIN` (R6). -/
def nMin : Nat := 2

/-- `NUM_EPS`, decided 1/64 (R7, D4). -/
def numEps : ℚ := 1 / 64

/-- `CAP_TIMEOUT_ENABLED`, decided false (R7, D17). The event takes it as an argument, so that R256's other case is
modelled too (log 22). -/
def capTimeoutEnabled : Bool := false

/-- The startup supply setting in centivolts, 5.50 V (R333). -/
def startupSupply : Nat := 550

end Config

end Sys2Proof
end

