-- ==== Sys2Proof/Machine/Flags.lean ====
section
/-! DEFINITION. The WSCE has no condition codes and no flags (spec/10_state.md R42). This file holds the conditions its
rules test before they go on: each decides whether a fault of spec/60_exceptions.md R293 is raised. -/

namespace Sys2Proof.Machine

/-- A timed synthesis may have `n` samples: `N_MIN` ≤ n ≤ `SYN_NMAX` (R174). -/
def countOk (P : Params) (n : Nat) : Bool := decide (Config.nMin ≤ n) && decide (n ≤ P.synNMax)

/-- A triangle has an even sample count (R175). -/
def parityOk (sh : Shape) (n : Nat) : Bool := sh != .triangle || n % 2 == 0

/-- A code the DAC takes: 0 to `DAC_MAX` (R173). -/
def codeInRange (c : Int) : Bool := decide (0 ≤ c) && decide (c ≤ Config.dacMax)

/-- A rate a DAC timer accepts: 1 to `DAC_TMR_MAX_HZ` (R212, R301). -/
def dacRateOk (P : Params) (rate : Nat) : Bool := decide (rate ≠ 0) && decide (rate ≤ P.dacTmrMax)

/-- A rate the capture timer accepts: 1 to `ADC_TMR_MAX_HZ` (R253, R301). -/
def capRateOk (P : Params) (rate : Nat) : Bool := decide (rate ≠ 0) && decide (rate ≤ P.adcTmrMax)

end Sys2Proof.Machine
end

