-- ==== Sys2Proof/Machine/State.lean ====
section
/-! DEFINITION. The state of the WSCE (spec/10_state.md), and the state right after reset (spec/70_reset_and_hazards.md
R331, R332). Plain data throughout. -/

namespace Sys2Proof.Machine

/-- A generator register `WAVE[ch]` (R31). -/
structure GenReg where
  /-- `SHAPE` (R32) -/
  shape : Shape
  /-- `N`, sample count of the next buffer (R33) -/
  n : Nat
  /-- `FREQ`, hertz (R34) -/
  freq : Nat
  /-- `AMP`, calibrated amplitude in synthesis-domain units, a real number (R35; log 1) -/
  amp : Number
  /-- `OFF`, calibrated offset in synthesis-domain units, a real number (R36; log 1) -/
  off : Number
  deriving DecidableEq, Repr

/-- A front-end configuration record `AFECFG[ch]`, values as written, unvalidated (R38). -/
structure AfeCfg where
  /-- `CPL` -/
  cpl : Nat
  /-- `GAIN` -/
  gain : Nat
  /-- `OFFS` -/
  offs : Nat
  deriving DecidableEq, Repr

/-- The playback state `PB[ch]` of a channel and of its DAC timer (R43, R48). The spec's `len` is `buf.length`
(log 15). -/
inductive Playback where
  | stopped
  | timed (buf : List Code) (rate idx : Nat)
  deriving DecidableEq, Repr

/-- The capture state `CAP` and its timer (R47, R48). -/
inductive Capture where
  | off
  | running (k rate : Nat)
  deriving DecidableEq, Repr

/-- What a synthesis returns, where it raises no fault (R170): a DC code, a sample buffer, or hold. -/
inductive SynResult where
  | dc (c : Code)
  | timed (buf : List Code)
  | hold
  deriving DecidableEq, Repr

/-- The rule step a running command is at (R41): what the sequencer does next, with the local variables of the rule
(log 4). -/
inductive SeqStep where
  /-- R333, its first action. -/
  | startup
  /-- R140, about to decode the line it has taken and to run the command's first step. -/
  | decode (raw : List Byte)
  /-- R217, about to set `REARM`. -/
  | rearmBegin
  /-- R217's loop, about to synthesize channel `ch`. -/
  | rearm (ch : Channel)
  /-- R217's loop, about to install what synthesis returned for channel `ch`. -/
  | install (ch : Channel) (r : SynResult)
  /-- R217, both channels installed, about to clear `REARM`. -/
  | rearmEnd
  /-- R251, about to emit the event of front-end channel `ch`. -/
  | afeEvent (f : M1Fields) (ch : Channel)
  /-- R251, about to write `AFECFG[2]`. -/
  | afeSecond (f : M1Fields)
  /-- R253, about to check the rate and to arm the capture timer. -/
  | captureStart (rate : Nat)
  /-- R253's `await CAP = Off`. -/
  | capture
  /-- R255, about to send byte `k` of the 4000. -/
  | stream (k : Nat)
  /-- R259, `j` of the twenty reads done, with the sums so far. -/
  | reads (j sA sB : Nat)
  /-- R262, about to send the first of these bytes. -/
  | respond (bytes : List Byte)
  /-- R140, the command's rule has ended, about to be `Ready`; and the same at the end of R333. -/
  | complete
  deriving DecidableEq, Repr

/-- The sequencer's position `SEQ` (R41). -/
inductive Seq where
  | ready
  | busy (step : SeqStep)
  | faulted
  deriving DecidableEq, Repr

/-- The fault codes (R293). -/
inductive FaultCode where
  | synCount
  | synTriOdd
  | dacRange
  | playRate
  | capRate
  | supplyZero
  deriving DecidableEq, Repr

/-- The numeric value of a fault code (R293). -/
def FaultCode.value : FaultCode → BitVec 8
  | .synCount => 0x10
  | .synTriOdd => 0x11
  | .dacRange => 0x12
  | .playRate => 0x13
  | .capRate => 0x20
  | .supplyZero => 0x30

/-- The fault record (R42, R292): `none` stands for the spec's dash. -/
structure FaultRecord where
  code : FaultCode
  ch : Option Channel
  idx : Option Nat
  deriving DecidableEq, Repr

/-- A front-end configuration event of `AFE_LOG` (R252). -/
structure AfeEvent where
  ch : Channel
  cpl : Nat
  gain : Nat
  offs : Nat
  deriving DecidableEq, Repr

/-- One turn of one agent: which agent moves, and what the environment supplies with the move (R11, R295, R296). -/
inductive Turn where
  /-- The sequencer takes a step. -/
  | sequencer
  /-- A host line arrives, given without its line feed (R49, D36). -/
  | line (raw : List Byte)
  /-- A tick of the DAC timer of `ch` (R216). -/
  | tickDac (ch : Channel)
  /-- A tick of the capture timer (R254). -/
  | tickCap
  /-- `glitch(ch, v)` (R217). -/
  | glitch (ch : Channel) (v : Code)
  /-- `cap_timeout` (R256). -/
  | capTimeout
  /-- The power-on reset (R330; log 18). -/
  | powerOn
  deriving DecidableEq, Repr

/-- The MODEL's own field: what the environment does next, as plain data (log 3, 5, 6, 20). A claim holds for every
value of it. -/
structure Env where
  /-- Whose turn it is, first to last; with none listed the sequencer moves (log 3). -/
  turns : List Turn
  /-- ADC input values the environment has lined up, in the order they will be read (log 5). -/
  adc : List Sample
  /-- How many ADC values have been read: the index into the free values once `adc` is used up (log 5). -/
  adcUsed : Nat
  /-- Code-band choices the environment has lined up, one per sample (log 6). -/
  band : List Bool
  /-- How many samples have had their choice: the index into the free choices once `band` is used up (log 6). -/
  bandUsed : Nat
  deriving DecidableEq, Repr

/-- The state of the WSCE: the elements of R30, and the model's own `env`. -/
structure State where
  /-- `WAVE[1]`, `WAVE[2]` (R31) -/
  wave : PerChannel GenReg
  /-- `AFECFG[1]`, `AFECFG[2]` (R38) -/
  afe : PerChannel AfeCfg
  /-- `PB[1]`, `PB[2]` (R43) -/
  pb : PerChannel Playback
  /-- `DACOUT[1]`, `DACOUT[2]`; `none` is UNSET (R44) -/
  dac : PerChannel (Option Code)
  /-- `REARM` (R45) -/
  rearm : Bool
  /-- `CAPA` (R46) -/
  capA : Vector Sample Config.bufSize
  /-- `CAPB` (R46) -/
  capB : Vector Sample Config.bufSize
  /-- `CAP` (R47) -/
  cap : Capture
  /-- `SEQ` (R41) -/
  seq : Seq
  /-- `FAULT` (R42) -/
  fault : Option FaultRecord
  /-- `LAST_ERR` (R42) -/
  lastErr : Option NoOpCode
  /-- `RXQ`, head first (R49) -/
  rxq : List (List Byte)
  /-- `TX`, oldest byte first (R49) -/
  tx : List Byte
  /-- `AFE_LOG`, oldest event first (R49) -/
  afeLog : List AfeEvent
  /-- `SUPPLY_LOG`, oldest value first (R49) -/
  supplyLog : List Nat
  /-- the model's own (log 3) -/
  env : Env
  deriving DecidableEq, Repr

/-- Why the model's step stops. A fault of the SPEC (R292) is no stop: it is a next state with `SEQ = Faulted`
(log 9). -/
inductive Fault where
  /-- An access to an entry a buffer does not have. Raised by the playback tick alone, in a state that no run reaches
  (R71: "An index outside [0, entries) is never formed by any rule"). Safe (log 15). -/
  | noEntry
  deriving DecidableEq, Repr

/-- Why an instruction has no meaning. -/
inductive Refusal where
  /-- An arm of `exec` that has no meaning yet. Raised by no arm: every instruction has its meaning. Safe. -/
  | notModelled (mnemonic : String)
  deriving DecidableEq, Repr

/-- The generator register of `ch` at reset (R331). -/
def GenReg.reset (P : Params) (ch : Channel) : GenReg :=
  { shape := .sine, n := 64, freq := 1000, amp := .rat 0, off := P.bias ch }

/-- A front-end record at reset: the spec gives no value (R332); DESIGN CHOICE 0, unsafe (log 7). -/
def AfeCfg.reset : AfeCfg := { cpl := 0, gain := 0, offs := 0 }

/-- A capture buffer at reset: the spec gives no value (R332); DESIGN CHOICE 0, unsafe (log 8). -/
def captureReset : Vector Sample Config.bufSize := Vector.replicate Config.bufSize 0

/-- The model's own field at reset; DESIGN CHOICE (log 20). -/
def Env.reset : Env := { turns := [], adc := [], adcUsed := 0, band := [], bandUsed := 0 }

/-- The machine right after the power-on reset, before the startup sequence, with what the environment will do next
(R330 to R332). -/
def State.resetWith (P : Params) (env : Env) : State :=
  { wave := { one := GenReg.reset P .one, two := GenReg.reset P .two }
    afe := { one := AfeCfg.reset, two := AfeCfg.reset }
    pb := { one := .stopped, two := .stopped }
    dac := { one := none, two := none }
    rearm := false
    capA := captureReset
    capB := captureReset
    cap := .off
    seq := .busy .startup
    fault := none
    lastErr := none
    rxq := []
    tx := []
    afeLog := []
    supplyLog := []
    env := env }

/-- The machine right after reset (R330 to R332). -/
def State.reset : State := State.resetWith Config.params Env.reset

end Sys2Proof.Machine
end

