-- ==== Sys2Proof/Machine/Operands.lean ====
section
/-! DEFINITION. From the fields of a decoded line to what the rules write (spec/30_encoding.md R109: "the operand
conversions ... and no others exist"). -/

namespace Sys2Proof.Machine

/-- The value `s1`/`s2` write to `WAVE[ch]`: shape, count and frequency as decoded, amplitude and offset through the
calibration (R35, R36, R109, R214). -/
def genRegOf (P : Params) (ch : Channel) (f : SFields) : GenReg :=
  { shape := f.sh, n := f.ns, freq := f.fq, amp := P.calAmp ch f.ar, off := P.calOff ch f.or }

/-- The front-end fields of input channel `ch` in an `m1` line, unvalidated (R38, R111, R251). -/
def afeCfgOf (f : M1Fields) : Channel → AfeCfg
  | .one => { cpl := f.c1, gain := f.g1, offs := f.o1 }
  | .two => { cpl := f.c2, gain := f.g2, offs := f.o2 }

/-- The configuration event for input channel `ch` (R252). -/
def afeEventOf (f : M1Fields) (ch : Channel) : AfeEvent :=
  { ch, cpl := (afeCfgOf f ch).cpl, gain := (afeCfgOf f ch).gain, offs := (afeCfgOf f ch).offs }

end Sys2Proof.Machine
end

