-- ==== Sys2Proof/Machine/Ops.lean ====
section
/-! DEFINITION. The named operations over the state: one update per element, the port emits, the draws, and the two
error outcomes of spec/60_exceptions.md R290 as one operation each. -/

namespace Sys2Proof.Machine

namespace State

/-- `WAVE[ch] <- r`. -/
def setWave (ch : Channel) (r : GenReg) (s : State) : State := { s with wave := s.wave.set ch r }

/-- `AFECFG[ch] <- c`. -/
def setAfe (ch : Channel) (c : AfeCfg) (s : State) : State := { s with afe := s.afe.set ch c }

/-- `PB[ch] <- p`, in one step (R75). -/
def setPb (ch : Channel) (p : Playback) (s : State) : State := { s with pb := s.pb.set ch p }

/-- `DACOUT[ch] <- c` (R44). -/
def setDac (ch : Channel) (c : Code) (s : State) : State := { s with dac := s.dac.set ch (some c) }

/-- `REARM <- b` (R45). -/
def setRearm (b : Bool) (s : State) : State := { s with rearm := b }

/-- `CAPA[k] <- a` and `CAPB[k] <- b` together (R75): both buffers, each with entry `k` replaced. -/
def setSample (k : Nat) (h : k < Config.bufSize) (a b : Sample) (s : State) : State :=
  { s with capA := s.capA.set k a, capB := s.capB.set k b }

/-- `CAP <- c` (R47). -/
def setCap (c : Capture) (s : State) : State := { s with cap := c }

/-- `SEQ <- q` (R41). -/
def setSeq (q : Seq) (s : State) : State := { s with seq := q }

/-- `FAULT <- f` (R42). -/
def setFault (f : FaultRecord) (s : State) : State := { s with fault := some f }

/-- `LAST_ERR <- e` (R42). -/
def setLastErr (e : Option NoOpCode) (s : State) : State := { s with lastErr := e }

/-- `RXQ <- q` (R49). -/
def setRxq (q : List (List Byte)) (s : State) : State := { s with rxq := q }

/-- `Emit(TX, b)` (R10, R49). -/
def send (b : Byte) (s : State) : State := { s with tx := s.tx ++ [b] }

/-- `Emit(AFE_LOG, e)` (R252). -/
def logAfe (e : AfeEvent) (s : State) : State := { s with afeLog := s.afeLog ++ [e] }

/-- `Emit(SUPPLY_LOG, cv)` (R150). -/
def logSupply (cv : Nat) (s : State) : State := { s with supplyLog := s.supplyLog ++ [cv] }

/-- The model's own field replaced (log 3). -/
def setEnv (e : Env) (s : State) : State := { s with env := e }

end State

/-! ### Errors (R290): no vector, no saved state, no return (R297, R298) -/

/-- `raise NoOp(code)`: `LAST_ERR <- code`, `SEQ <- Ready`, nothing else (R291). -/
def raiseNoOp (code : NoOpCode) (s : State) : State := (s.setLastErr (some code)).setSeq .ready

/-- `raise Fault(code)`: `FAULT <- {code, ch, idx}`, `SEQ <- Faulted`, nothing rolled back, `REARM` kept (R292). -/
def raiseFault (code : FaultCode) (ch : Option Channel) (idx : Option Nat) (s : State) : State :=
  (s.setFault { code, ch, idx }).setSeq .faulted

/-- The command's rule has ended: the sequencer is about to be ready for the next line (R140). -/
def complete (s : State) : State := s.setSeq (.busy .complete)

/-- The command goes on with rule step `q` (R79). -/
def goOn (q : SeqStep) (s : State) : State := s.setSeq (.busy q)

/-! ### Words on TX (R72, R250) -/

/-- The byte of a word that is sent second (`true`) or first (R72). -/
def wordByte (e : Endian) (w : Sample) (second : Bool) : Byte :=
  match e with
  | .le => if second then w.extractLsb' 8 8 else w.extractLsb' 0 8
  | .be => if second then w.extractLsb' 0 8 else w.extractLsb' 8 8

/-- The two bytes of a word, in the order they are sent (R72). -/
def wordBytes (e : Endian) (w : Sample) : List Byte := [wordByte e w false, wordByte e w true]

/-- The bytes of a response: its words back to back, no framing (R74, R250). -/
def responseBytes (e : Endian) (ws : List Sample) : List Byte := ws.flatMap (wordBytes e)

/-! ### Draws (R10, R172, R258): the environment's value, else a free one (log 5, 6) -/

/-- The `j`-th ADC value from now on: any u16 (R258; log 5). -/
def Env.adcValue (e : Env) (j : Nat) : Sample :=
  match e.adc[j]? with
  | some v => v
  | none => Config.freeAdc (e.adcUsed + j)

/-- The environment after `k` ADC values have been read. -/
def Env.useAdc (k : Nat) (e : Env) : Env := { e with adc := e.adc.drop k, adcUsed := e.adcUsed + k }

/-- The code-band choice of the `j`-th sample from now on: `true` for the upper truncation (R172; log 6). -/
def Env.bandChoice (e : Env) (j : Nat) : Bool :=
  match e.band[j]? with
  | some b => b
  | none => Config.freeBand (e.bandUsed + j)

/-- The environment after `k` samples have had their choice. -/
def Env.useBand (k : Nat) (e : Env) : Env := { e with band := e.band.drop k, bandUsed := e.bandUsed + k }

end Sys2Proof.Machine
end

