-- ==== Sys2Proof/Machine/Sampling.lean ====
section
/-! DEFINITION. The capture command, the capture engine and the averaged read (spec/43_capture.md), one rule step each. -/

namespace Sys2Proof.Machine

/-! ### Capture -/

/-- `AFECFG[ch]` written; its event is emitted next (R251). -/
def writeFrontEnd (f : M1Fields) (ch : Channel) (s : State) : State :=
  goOn (.afeEvent f ch) (s.setAfe ch (afeCfgOf f ch))

/-- What follows the event of front-end channel `ch`: channel 2's record, then the capture (R251). -/
def afterEvent (f : M1Fields) : Channel → SeqStep
  | .one => .afeSecond f
  | .two => .captureStart f.fq

/-- The event of front-end channel `ch` (R252). -/
def emitFrontEnd (f : M1Fields) (ch : Channel) (s : State) : State :=
  goOn (afterEvent f ch) (s.logAfe (afeEventOf f ch))

/-- CAPTURE START (R253). -/
def captureStart (P : Params) (rate : Nat) (s : State) : State :=
  if capRateOk P rate then goOn .capture (s.setCap (.running 0 rate)) else raiseFault .capRate none none s

/-- M1 (R251), its first step: the front-end record of channel 1. -/
def execM1 (f : M1Fields) (s : State) : Host.Outcome State Fault Refusal := .next (writeFrontEnd f .one s)

/-- CAPTURE TICK (R254): enabled while `CAP = Running` with fewer than 1000 pairs written; draws the pair, A first (log
5), and writes both entries; the 1000th tick stops the timer. -/
def tickCap (s : State) : State :=
  match s.cap with
  | .off => s
  | .running k rate =>
    if h : k < Config.bufSize then
      ((s.setSample k h (s.env.adcValue 0) (s.env.adcValue 1)).setCap
        (if k + 1 = Config.bufSize then .off else .running (k + 1) rate)).setEnv (s.env.useAdc 2)
    else s

/-- How many bytes an `m1` streams (R255). -/
def streamLen : Nat := 4 * Config.bufSize

/-- Word `i` of the stream: `CAPA` in index order, then `CAPB` (R81, R255). -/
def streamWord (s : State) (i : Nat) : Option Sample :=
  if i < Config.bufSize then s.capA[i]? else s.capB[i - Config.bufSize]?

/-- One step of the STREAM (R255): byte `k`, the first or the second of word `k / 2`, is sent. There is no byte beyond the
last, and the stream would end there. -/
def streamStep (P : Params) (k : Nat) (s : State) : State :=
  match streamWord s (k / 2) with
  | some w =>
    goOn (if k + 1 = streamLen then .complete else .stream (k + 1))
      (s.send (wordByte P.streamEndian w (k % 2 == 1)))
  | none => complete s

/-- The hold for the capture, and its end (R253, R256): the first byte of the stream follows when `CAP` is `Off`. -/
def awaitCapture (P : Params) (s : State) : State := if s.cap = .off then streamStep P 0 s else s

/-- `cap_timeout` (R256): enabled while `CAP = Running`, and only with `CAP_TIMEOUT_ENABLED`; the timer stops and the
command ends in the no-op `E_TIMEOUT`, with no stream (log 22). -/
def capTimeout (enabled : Bool) (s : State) : State :=
  if enabled then
    match s.cap with
    | .off => s
    | .running _ _ => raiseNoOp .timeout (s.setCap .off)
  else s

/-! ### Averaged read -/

/-- How many reads an `m2` makes (R260). -/
def readCount : Nat := 2 * Config.avgN

/-- The sum over `AVG_N`, truncated (R261). -/
def average (sum : Nat) : Sample := BitVec.ofNat 16 (sum / Config.avgN)

/-- The bytes of the response, A's average first (R262). -/
def averageBytes (P : Params) (sA sB : Nat) : List Byte := responseBytes P.streamEndian [average sA, average sB]

/-- After `j` reads: the next read, or the response (R259). -/
def afterReads (P : Params) (j sA sB : Nat) : SeqStep :=
  if j < readCount then .reads j sA sB else .respond (averageBytes P sA sB)

/-- `read_single` (R260), one step: after `j` reads, of A when `j` is even and of B when it is odd. -/
def readStep (P : Params) (j sA sB : Nat) (s : State) : State :=
  goOn
    (if j % 2 = 0 then afterReads P (j + 1) (sA + (s.env.adcValue 0).toNat) sB
      else afterReads P (j + 1) sA (sB + (s.env.adcValue 0).toNat))
    (s.setEnv (s.env.useAdc 1))

/-- One byte of the response (R262). -/
def respondStep (bytes : List Byte) (s : State) : State :=
  match bytes with
  | [] => complete s
  | b :: rest => goOn (if rest = [] then .complete else .respond rest) (s.send b)

/-- M2 (R259), its first step: the first read of A, with both sums 0 before it. -/
def execM2 (s : State) : Host.Outcome State Fault Refusal := .next (readStep Config.params 0 0 0 s)

end Sys2Proof.Machine
end

