-- ==== Sys2Proof/Machine/Supply.lean ====
section
/-! DEFINITION. The two dispatch outcomes that reach no operation of the block (spec/40_dispatch.md R150, R151). -/

namespace Sys2Proof.Machine

/-- `exec_DZ` (R150): 0 centivolts is a fault, before anything is forwarded. -/
def forwardSupply (cv : Nat) (s : State) : State :=
  if cv = 0 then raiseFault .supplyZero none none s else complete (s.logSupply cv)

/-- DZ (R150). -/
def execDz (cv : Nat) (s : State) : Host.Outcome State Fault Refusal := .next (forwardSupply cv s)

/-- UNRECOGNIZED (R151): `raise NoOp(E_TAG)`. -/
def execUnrecognized (s : State) : Host.Outcome State Fault Refusal := .next (raiseNoOp .tag s)

end Sys2Proof.Machine
end

