-- ==== Sys2Proof/Machine/Generator.lean ====
section
/-! DEFINITION. The generator commands, the installing of a channel's output, the playback engine and the paired re-arm
(spec/42_generator.md). -/

namespace Sys2Proof.Machine

/-! ### Installing a channel's output -/

/-- Where the paired re-arm goes after channel `ch`: channel 1, then channel 2, then its end (R217, R218). -/
def afterInstall : Channel → SeqStep
  | .one => .rearm .two
  | .two => .rearmEnd

/-- The re-arm goes on to its next rule step. -/
def rearmNext (ch : Channel) (s : State) : State := goOn (afterInstall ch) s

/-- The sample-clock rate of a timed arm, an exact natural (R212). -/
def armRate (ch : Channel) (buf : List Code) (s : State) : Nat := (s.wave.get ch).freq * buf.length

/-- ARM_TIMED (R210): a rate the timer does not accept is `F_PLAY_RATE`; else the buffer replaces any old playback in one
step, at index 0, and the DAC keeps its code until the first tick. -/
def armTimed (P : Params) (ch : Channel) (buf : List Code) (s : State) : State :=
  if dacRateOk P (armRate ch buf s) then rearmNext ch (s.setPb ch (.timed buf (armRate ch buf s) 0))
  else raiseFault .playRate (some ch) none s

/-- DRIVE_DC (R211): the timer stops and the DAC takes the code, in one step. -/
def driveDc (ch : Channel) (c : Code) (s : State) : State := rearmNext ch ((s.setPb ch .stopped).setDac ch c)

/-- HOLD (R213): the timer stops and the DAC keeps its code. -/
def hold (ch : Channel) (s : State) : State := rearmNext ch (s.setPb ch .stopped)

/-- What synthesis returned for `ch`, installed: one step (R217, R218). -/
def install (P : Params) (ch : Channel) (r : SynResult) (s : State) : State :=
  match r with
  | .dc c => driveDc ch c s
  | .timed buf => armTimed P ch buf s
  | .hold => hold ch s

/-! ### The paired re-arm (R217) -/

/-- `REARM <- true`, then channel 1 first. -/
def beginRearm (s : State) : State := goOn (.rearm .one) (s.setRearm true)

/-- `REARM <- false`; the command is complete. -/
def endRearm (s : State) : State := complete (s.setRearm false)

/-- The first step of `exec_S` (R214): the five fields of `WAVE[ch]` together; the paired re-arm follows. -/
def setGenerator (P : Params) (ch : Channel) (f : SFields) (s : State) : State :=
  goOn .rearmBegin (s.setWave ch (genRegOf P ch f))

/-- S1 (R214). -/
def execS1 (f : SFields) (s : State) : Host.Outcome State Fault Refusal :=
  .next (setGenerator Config.params .one f s)

/-- S2 (R214): it differs from S1 only in the register it writes (R215). -/
def execS2 (f : SFields) (s : State) : Host.Outcome State Fault Refusal :=
  .next (setGenerator Config.params .two f s)

/-! ### Events of the environment on the generator -/

/-- PLAYBACK TICK of `ch` (R216): the DAC takes entry `idx`, and the index steps around the buffer. A stopped channel has
no tick. An index outside the buffer stands in no state a run reaches (R71; log 15). -/
def tickDac (ch : Channel) (s : State) : Host.Outcome State Fault Refusal :=
  match s.pb.get ch with
  | .stopped => .next s
  | .timed buf rate idx =>
    match buf[idx]? with
    | some c => .next ((s.setDac ch c).setPb ch (.timed buf rate ((idx + 1) % buf.length)))
    | none => .fault .noEntry

/-- `glitch(ch, v)` (R217): enabled while `REARM` is true (log 19). -/
def glitch (ch : Channel) (v : Code) (s : State) : State := if s.rearm then s.setDac ch v else s

end Sys2Proof.Machine
end

