-- ==== Sys2Proof/Machine/Level.lean ====
section
/-! DEFINITION. Exact level arithmetic (spec/41_synthesis.md R172: "computed exactly"; R177, R178: exact reals with
`π` exact). A level is a rational, or a rational plus a rational multiple of `cos(π·j/m)`; comparing one with a rational
is decided in integer arithmetic, so truncation and the code band of R172 are exact and can be evaluated (DEDUCED, log
14; safe: Laws/Level.lean proves the comparison right over the reals). -/

namespace Sys2Proof.Machine

/-- An exact real number: `v`, or `o + a·cos(π·j/m)` with `0 ≤ j ≤ m` and `m ≥ 1`. -/
inductive Level where
  | rat (v : ℚ)
  | trig (o a : ℚ) (j m : Nat)
  deriving DecidableEq, Repr

/-- `x + d`. -/
def Level.shift (d : ℚ) : Level → Level
  | .rat v => .rat (v + d)
  | .trig o a j m => .trig (o + d) a j m

/-- `c · x`. -/
def Level.scale (c : ℚ) : Level → Level
  | .rat v => .rat (c * v)
  | .trig o a j m => .trig (c * o) (c * a) j m

/-- How `x` compares with `y`. -/
def ratCmp (x y : ℚ) : Ordering := if x < y then .lt else if x = y then .eq else .gt

/-- Whether `w` has the sign of `sin t` for `t` in `(q·π, (q+1)·π)`. -/
def sameSide (w : Int) (q : Nat) : Bool := if q % 2 = 0 then decide (0 < w) else decide (w < 0)

/-- Steps along the multiples of `φ = arccos(u/v)`. `prev` and `cur` are `v^(k-2)·sin((k-1)φ)/sin φ` and
`v^(k-1)·sin(kφ)/sin φ`, and `q` is the floor of `kφ/π`; `r` more multiples are visited. Since `0 < φ < π`, one step passes
at most one multiple of `π`, and passes it exactly when the sine changes side or becomes 0. -/
def arcWalk (u v : Int) : Nat → Int → Int → Nat → Int × Nat
  | 0, _, cur, q => (cur, q)
  | r + 1, prev, cur, q =>
    if sameSide (2 * u * cur - v * v * prev) q then arcWalk u v r cur (2 * u * cur - v * v * prev) q
    else arcWalk u v r cur (2 * u * cur - v * v * prev) (q + 1)

/-- How `cos(π·j/m)` compares with `c`, given the floor of `m·arccos(c)/π` and whether it is exact. -/
def arcSide (j : Nat) (w : Int × Nat) : Ordering :=
  if j < w.2 then .gt else if j = w.2 then (if w.1 = 0 then .eq else .gt) else .lt

/-- How `cos(π·j/m)` compares with the rational `c`, for `0 ≤ j ≤ m` and `m ≥ 1`. -/
def cosCmp (j m : Nat) (c : ℚ) : Ordering :=
  if 1 ≤ c then (if c = 1 ∧ j = 0 then .eq else .lt)
  else if c ≤ -1 then (if c = -1 ∧ j = m then .eq else .gt)
  else arcSide j (arcWalk c.num c.den (m - 1) 0 1 0)

/-- How the level compares with the rational `r`. -/
def Level.cmp (r : ℚ) : Level → Ordering
  | .rat v => ratCmp v r
  | .trig o a j m =>
    if a = 0 then ratCmp o r
    else if 0 < a then cosCmp j m ((r - o) / a)
    else (cosCmp j m ((r - o) / a)).swap

/-- `r ≤ x`. -/
def Level.atLeast (r : ℚ) (x : Level) : Bool := x.cmp r != .lt

/-- The largest `z` in `[lo, lo + 2^k)` with `p z`, when `p lo` holds and `p` never becomes true again once false. -/
def bisect (p : Int → Bool) : Nat → Int → Int
  | 0, lo => lo
  | k + 1, lo => if p (lo + 2 ^ k) then bisect p k (lo + 2 ^ k) else bisect p k lo

/-- A natural above the absolute value of `o + a·t` for every `t` in `[-1, 1]`. -/
def trigBound (o a : ℚ) : Nat := (|o| + |a|).floor.toNat + 1

/-- The largest integer not above `x`. -/
def Level.floor : Level → Int
  | .rat v => v.floor
  | .trig o a j m =>
    bisect (fun z => Level.atLeast z (.trig o a j m)) (Nat.log2 (2 * trigBound o a) + 1) (-(trigBound o a : Int))

/-- `trunc(x)`: the integer nearest to `x` in the direction of zero (R9). -/
def Level.trunc (x : Level) : Int :=
  if x.atLeast 0 then x.floor else -(x.scale (-1)).floor

/-- The integer nearest `x`; halfway between two, the upper one, which is outside every code band (R172). -/
def Level.nearest (x : Level) : Int := (x.shift (1 / 2)).floor

/-- `|x - k| < eps` for the integer `k` nearest `x`: `x` lies in the code band (R172). -/
def Level.inBand (eps : ℚ) (x : Level) : Bool :=
  x.cmp (x.nearest - eps) == .gt && x.cmp (x.nearest + eps) == .lt

/-- `code` of R172 for the scaled level `x`: outside the band `trunc(x)`; inside it one of `trunc(x - eps)` and
`trunc(x + eps)`, the upper one if `up`. -/
def Level.code (eps : ℚ) (up : Bool) (x : Level) : Int :=
  if x.inBand eps then (if up then (x.shift eps).trunc else (x.shift (-eps)).trunc) else x.trunc

/-- `code(v)` of R172 for a level `v` of the synthesis domain: scaled by 4095/330 exactly. -/
def levelCode (up : Bool) (v : Level) : Int := (v.scale Config.scale).code Config.numEps up

/-- `t`, or its reflection `2·m - t` when above `m`: the angles `π·t/m` have the same cosine. -/
def foldAngle (m t : Nat) : Nat := if t ≤ m then t else 2 * m - t

/-- R177: `O + A·sin(2π·i/n)`, as `O + A·cos(π·(4i - n)/(2n))`. -/
def sineLevel (a o : ℚ) (n i : Nat) : Level :=
  .trig o a (foldAngle (2 * n) (4 * (i : Int) - n).natAbs) (2 * n)

/-- R178: `O + A·cos(2π·i/n)`, as `O + A·cos(π·4i/(2n))`. -/
def cosineLevel (a o : ℚ) (n i : Nat) : Level := .trig o a (foldAngle (2 * n) (4 * i)) (2 * n)

/-- R179: `O - A·(1 - 4·i/n)` for `i < n/2`, then `O + A·(1 - 4·(i/n - 1/2))`. -/
def triangleLevel (a o : ℚ) (n i : Nat) : Level :=
  if 2 * i < n then .rat (o - a * (1 - 4 * i / n)) else .rat (o + a * (1 - 4 * (i / n - 1 / 2)))

/-- R180: `O - A·(1 - 2·i/n)`. -/
def sawtoothLevel (a o : ℚ) (n i : Nat) : Level := .rat (o - a * (1 - 2 * i / n))

/-- The level of a shape, of rational amplitude and offset (R177 to R180; NONE has no level). -/
def ratLevel (sh : Shape) (a o : ℚ) (n i : Nat) : Level :=
  match sh with
  | .sine => sineLevel a o n i
  | .cosine => cosineLevel a o n i
  | .triangle => triangleLevel a o n i
  | .sawtooth => sawtoothLevel a o n i
  | .none => .rat 0

/-- The rational that a number of this block is, unless it is one of the named reals (log 1). -/
def ratOf (P : Params) : Number → Option ℚ
  | .rat q => some q
  | .named _ =>
    match P.reals with
    | some _ => none
    | none => some 0

/-- A wanted level of rational amplitude and offset. -/
def levelOf (P : Params) : Wanted → Option Level
  | .dc o => (ratOf P o).map .rat
  | .wave sh a o n i =>
    match ratOf P a, ratOf P o with
    | some a, some o => some (ratLevel sh a o n i)
    | _, _ => none

/-- `code` of R172 for a wanted level, whatever reals its amplitude and offset are: evaluated where both are rational, by
the exact decisions of the block's named reals otherwise (log 1, 14). -/
def dacCode (P : Params) (up : Bool) (w : Wanted) : Int :=
  match levelOf P w with
  | some v => levelCode up v
  | none =>
    match P.reals with
    | some r => r.code up w
    | none => 0  -- never reached: without named reals every level is rational

end Sys2Proof.Machine
end

