-- ==== Sys2Proof/Machine/Synthesis.lean ====
section
/-! DEFINITION. Waveform synthesis (spec/41_synthesis.md) and the six SYN instructions: each synthesizes from `WAVE[ch]`
inside a paired re-arm and hands the result to its install (spec/42_generator.md R217; log 10). -/

namespace Sys2Proof.Machine

/-- Why a synthesis raises a fault: its code, and the sample index of a range fault (R293). -/
structure SynFault where
  code : FaultCode
  idx : Option Nat
  deriving DecidableEq, Repr

/-- The DAC code of an integer in range, nothing outside 0 to 4095 (R173). -/
def codeChecked (c : Int) : Option Code := if codeInRange c then some (BitVec.ofNat 12 c.toNat) else none

/-- The codes of `count` samples from index `i` on, in index order; the first index whose code is out of range, if any
(R170, R173). `code j` is the code of sample `j`. -/
def sampleCodes (code : Nat → Int) : Nat → Nat → Except Nat (List Code)
  | _, 0 => .ok []
  | i, count + 1 =>
    match codeChecked (code i) with
    | none => .error i
    | some c =>
      match sampleCodes code (i + 1) count with
      | .ok cs => .ok (c :: cs)
      | .error j => .error j

/-- A timed synthesis (R170): count, then parity, then the samples (R174, R175, R294). -/
def synthTimed (P : Params) (sh : Shape) (n : Nat) (code : Nat → Int) : Except SynFault SynResult :=
  if !countOk P n then .error { code := .synCount, idx := none }
  else if !parityOk sh n then .error { code := .synTriOdd, idx := none }
  else
    match sampleCodes code 0 n with
    | .ok buf => .ok (.timed buf)
    | .error i => .error { code := .dacRange, idx := some i }

/-- DC mode (R176): the code of the offset; the sample index of its range fault is 0 (R293). -/
def synthDc (code : Int) : Except SynFault SynResult :=
  match codeChecked code with
  | some c => .ok (.dc c)
  | none => .error { code := .dacRange, idx := some 0 }

/-- The code of sample `i` of the wave of shape `sh` that `WAVE[ch]` gives, with that sample's own draw (R172, log 6). -/
def sampleCode (P : Params) (ch : Channel) (sh : Shape) (s : State) (i : Nat) : Int :=
  dacCode P (s.env.bandChoice i) (.wave sh (s.wave.get ch).amp (s.wave.get ch).off (s.wave.get ch).n i)

/-- The code of the offset of `WAVE[ch]`, with its draw (R172, R176, log 6). -/
def offsetCode (P : Params) (ch : Channel) (s : State) : Int :=
  dacCode P (s.env.bandChoice 0) (.dc (s.wave.get ch).off)

/-- The re-arm goes on with what synthesis returned for `ch`, or the fault it raised halts the block (R217, R292). -/
def synthesized (ch : Channel) (r : Except SynFault SynResult) (s : State) : State :=
  match r with
  | .ok r => goOn (.install ch r) s
  | .error f => raiseFault f.code (some ch) f.idx s

/-- Synthesis of a timed shape: `N` samples, each with its own draw (R170, log 6). -/
def runTimed (P : Params) (ch : Channel) (sh : Shape) (s : State) : State :=
  synthesized ch (synthTimed P sh (s.wave.get ch).n (sampleCode P ch sh s)) (s.setEnv (s.env.useBand (s.wave.get ch).n))

/-- Synthesis of a constant level, the offset of `WAVE[ch]` (R176). -/
def runDc (P : Params) (ch : Channel) (s : State) : State :=
  synthesized ch (synthDc (offsetCode P ch s)) (s.setEnv (s.env.useBand 1))

/-- SYN.SINE (R177). -/
def execSynSine (ch : Channel) (s : State) : Host.Outcome State Fault Refusal :=
  .next (runTimed Config.params ch .sine s)

/-- SYN.COSINE (R178). -/
def execSynCosine (ch : Channel) (s : State) : Host.Outcome State Fault Refusal :=
  .next (runTimed Config.params ch .cosine s)

/-- SYN.TRIANGLE (R179). -/
def execSynTriangle (ch : Channel) (s : State) : Host.Outcome State Fault Refusal :=
  .next (runTimed Config.params ch .triangle s)

/-- SYN.SAWTOOTH (R180). -/
def execSynSawtooth (ch : Channel) (s : State) : Host.Outcome State Fault Refusal :=
  .next (runTimed Config.params ch .sawtooth s)

/-- SYN.NONE (R181): hold; the count and the frequency are not checked. -/
def execSynNone (ch : Channel) (s : State) : Host.Outcome State Fault Refusal :=
  .next (synthesized ch (.ok .hold) s)

/-- SYN.DC (R176). -/
def execSynDc (ch : Channel) (s : State) : Host.Outcome State Fault Refusal :=
  .next (runDc Config.params ch s)

end Sys2Proof.Machine
end

