-- ==== Sys2Proof/Machine/Dispatch.lean ====
section
/-! DEFINITION. One arm per instruction. -/

namespace Sys2Proof.Machine

/-- The meaning of an instruction. -/
def exec (i : Instr) (s : State) : Host.Outcome State Fault Refusal :=
  match i with
  | .s1 f => Sys2Proof.Machine.execS1 f s
  | .s2 f => Sys2Proof.Machine.execS2 f s
  | .m1 f => Sys2Proof.Machine.execM1 f s
  | .m2 => Sys2Proof.Machine.execM2 s
  | .dz cv => Sys2Proof.Machine.execDz cv s
  | .unrecognized => Sys2Proof.Machine.execUnrecognized s
  | .synSine ch => Sys2Proof.Machine.execSynSine ch s
  | .synCosine ch => Sys2Proof.Machine.execSynCosine ch s
  | .synTriangle ch => Sys2Proof.Machine.execSynTriangle ch s
  | .synSawtooth ch => Sys2Proof.Machine.execSynSawtooth ch s
  | .synNone ch => Sys2Proof.Machine.execSynNone ch s
  | .synDc ch => Sys2Proof.Machine.execSynDc ch s

end Sys2Proof.Machine
end

