-- ==== Sys2Proof/Machine/Sequencer.lean ====
section
/-! DEFINITION. The sequencer's step (spec/40_dispatch.md R140) and the environment's turns (spec/60_exceptions.md
R295, R296). -/

namespace Sys2Proof.Machine

/-- A line is taken from the head of `RXQ`, `LAST_ERR` is cleared, and the line is about to be decoded (R140, R42). -/
def takeLine (raw : List Byte) (rest : List (List Byte)) (s : State) : State :=
  goOn (.decode raw) ((s.setRxq rest).setLastErr none)

/-- The sequencer is ready: it holds for a line, or takes the one at the head (R140). -/
def awaitLine (s : State) : State :=
  match s.rxq with
  | [] => s
  | raw :: rest => takeLine raw rest s

/-- The synthesis selection of channel `ch`: whether its amplitude is 0, and its shape (R170, R171). -/
def synthSelection (P : Params) (ch : Channel) (s : State) : Fetched :=
  .shape ch (P.isZero (s.wave.get ch).amp) (s.wave.get ch).shape

/-- What the sequencer decodes next: the line it has taken (R140), the synthesis selection inside a re-arm (R217), nothing
elsewhere. -/
def fetch (s : State) : Option Fetched :=
  match s.seq with
  | .busy (.decode raw) => some (.line raw)
  | .busy (.rearm ch) => some (synthSelection Config.params ch s)
  | _ => none

/-- Decodes and runs what was fetched; a line that is no instruction is a no-op (R140, R141). -/
def runFetched (w : Fetched) (s : State) : Host.Outcome State Fault Refusal :=
  match decode w with
  | .ok i => exec i s
  | .error code => .next (raiseNoOp code s)

/-- The first step of the startup sequence (R333): the supply setting; the paired re-arm follows. -/
def startup (s : State) : State := goOn .rearmBegin (s.logSupply Config.startupSupply)

/-- The rule step `q` of a running command, where it decodes nothing. -/
def busyStep (P : Params) (q : SeqStep) (s : State) : State :=
  match q with
  | .startup => startup s
  | .decode _ => s
  | .rearmBegin => beginRearm s
  | .rearm _ => s
  | .install ch r => install P ch r s
  | .rearmEnd => endRearm s
  | .afeEvent f ch => emitFrontEnd f ch s
  | .afeSecond f => writeFrontEnd f .two s
  | .captureStart rate => captureStart P rate s
  | .capture => awaitCapture P s
  | .stream k => streamStep P k s
  | .reads j sA sB => readStep P j sA sB s
  | .respond bytes => respondStep bytes s
  | .complete => s.setSeq .ready

/-- The sequencer's step where it decodes nothing; in the faulted state it has none (R145; log 9). -/
def seqInternal (P : Params) (s : State) : State :=
  match s.seq with
  | .ready => awaitLine s
  | .busy q => busyStep P q s
  | .faulted => s

/-- One step of the sequencer. -/
def seqStep (s : State) : Host.Outcome State Fault Refusal :=
  match fetch s with
  | some w => runFetched w s
  | none => .next (seqInternal Config.params s)

/-- A line arrives (R49, D36). Bytes that hold a line feed are no single line (R100), and such an event has no step (log
17). -/
def lineArrives (raw : List Byte) (s : State) : State :=
  if raw.contains lf then s else s.setRxq (s.rxq ++ [raw])

/-- One turn of one agent, already taken off the list. An event whose enabling condition is false has no step (R295):
its turn passes (log 3). -/
def takeTurn (t : Turn) (s : State) : Host.Outcome State Fault Refusal :=
  match t with
  | .sequencer => seqStep s
  | .line raw => .next (lineArrives raw s)
  | .tickDac ch => tickDac ch s
  | .tickCap => .next (tickCap s)
  | .glitch ch v => .next (glitch ch v s)
  | .capTimeout => .next (capTimeout Config.capTimeoutEnabled s)
  | .powerOn => .next (State.resetWith Config.params s.env)

/-- The next turn: the head of the list, the sequencer's when the list is empty (log 3). -/
def nextTurn (s : State) : Turn := s.env.turns.headD .sequencer

/-- The state once the next turn has been taken off the list. -/
def popTurn (s : State) : State := s.setEnv { s.env with turns := s.env.turns.tail }

/-- The turns of a byte sequence from the host: one arrival for each complete line (R100, R49). -/
def lineTurns (bytes : List Byte) : List Turn := (frame bytes).map .line

/-! ### Placing an instruction where the next step fetches it (log 11, 13) -/

/-- The sequencer has taken `raw` and is about to decode it. -/
def placeLine (raw : List Byte) (s : State) : State := goOn (.decode raw) s

/-- The sequencer is about to synthesize `ch`, whose register selects the shape: a zero amplitude gives way to 1 for a
timed shape or NONE, and any amplitude to 0 for DC mode. -/
def placeShape (P : Params) (ch : Channel) (ampZero : Bool) (sh : Shape) (s : State) : State :=
  let w := s.wave.get ch
  goOn (.rearm ch) ((s.setWave ch { w with
    shape := sh
    amp := if ampZero then .rat 0 else if P.isZero w.amp then .rat 1 else w.amp }).setRearm true)

/-- What was fetched, placed where the sequencer's next step fetches it, with no turn of another agent before it. -/
def place (w : Fetched) (s : State) : State :=
  let s' := s.setEnv { s.env with turns := [] }
  match w with
  | .line raw => placeLine raw s'
  | .shape ch ampZero sh => placeShape Config.params ch ampZero sh s'

end Sys2Proof.Machine
end

