-- ==== Sys2Proof/Machine/Step.lean ====
section
/-! DEFINITION. One step of the machine: one turn of one agent (spec/00_scope.md R11). -/

namespace Sys2Proof.Machine

/-- One step: the next turn is taken off the list and its agent moves. -/
def step (s : State) : Host.Outcome State Fault Refusal := takeTurn (nextTurn s) (popTurn s)

/-- `s` with the instruction of a table word placed where the next step fetches it (log 11, 13). -/
def State.withFetchWord (s : State) (nbits w : Nat) : State := place (tableFetched nbits w) s

end Sys2Proof.Machine
end

