-- ==== Sys2Proof/Safety.lean ====
section
/-! DEFINITION. The terms the claims are stated in: codes and levels over the real numbers as spec/41_synthesis.md writes
them, and the invariants of the state. Nothing here is part of the machine. -/

namespace Sys2Proof

open Sys2Proof.Machine

/-! ### Levels of rational amplitude and offset, as real numbers -/

/-- The real number a level stands for. -/
noncomputable def Machine.Level.toReal : Level → ℝ
  | .rat v => v
  | .trig o a j m => o + a * Real.cos (Real.pi * j / m)

/-- A level whose angle is in the range `Level.trig` is used with. -/
def Machine.Level.Valid : Level → Prop
  | .rat _ => True
  | .trig _ _ j m => 1 ≤ m ∧ j ≤ m

/-- A wanted level of the machine: the sample index is below the count (R177 to R180). -/
def Wanted.Ok : Wanted → Prop
  | .dc _ => True
  | .wave _ _ _ n i => i < n

namespace Safety

/-! ### Codes over the reals -/

/-- R172 for the integer `k` nearest the scaled level of `v`: what `code(v)` may be. -/
def IsCode (v : ℝ) (c : ℤ) : Prop :=
  ∀ k : ℤ, |scaled v - k| ≤ 1 / 2 →
    (eps ≤ |scaled v - k| → c = realTrunc (scaled v)) ∧
    (|scaled v - k| < eps → c = realTrunc (scaled v - eps) ∨ c = realTrunc (scaled v + eps))

/-- A code the DAC takes (R173). -/
def InRange (c : ℤ) : Prop := 0 ≤ c ∧ c ≤ 4095

/-- Every code R172 allows for `v` is in 0 to 4095. -/
def SureInRange (v : ℝ) : Prop := -1 + eps ≤ scaled v ∧ scaled v ≤ 4096 - eps

/-- No code R172 allows for `v` is in 0 to 4095. -/
def SureOutOfRange (v : ℝ) : Prop := scaled v ≤ -1 - eps ∨ 4096 + eps ≤ scaled v

/-! ### What `WAVE[ch]` says -/

/-- `WAVE[ch].AMP` as a real number. -/
noncomputable def ampOf (s : State) (ch : Channel) : ℝ := Config.params.toReal (s.wave.get ch).amp

/-- `WAVE[ch].OFF` as a real number. -/
noncomputable def offOf (s : State) (ch : Channel) : ℝ := Config.params.toReal (s.wave.get ch).off

/-- The level of sample `i` of the wave of shape `sh` that `WAVE[ch]` gives. -/
noncomputable def sampleLevel (s : State) (ch : Channel) (sh : Shape) (i : ℕ) : ℝ :=
  shapeLevel sh (ampOf s ch) (offOf s ch) (s.wave.get ch).n i

/-- The code of that sample, by R172 over the reals and the draw the environment makes for it (log 6). -/
noncomputable def drawnCode (s : State) (ch : Channel) (sh : Shape) (i : ℕ) : ℤ :=
  realCode (s.env.bandChoice i) (sampleLevel s ch sh i)

/-- The code of the offset of `WAVE[ch]`, by R172 over the reals and the draw the environment makes for it (log 6). -/
noncomputable def drawnOffset (s : State) (ch : Channel) : ℤ := realCode (s.env.bandChoice 0) (offOf s ch)

/-- `buf` holds the code of each sample. -/
def IsBuffer (s : State) (ch : Channel) (sh : Shape) (buf : List Code) : Prop :=
  buf.length = (s.wave.get ch).n ∧ ∀ i (h : i < buf.length), ((buf[i].toNat : ℕ) : ℤ) = drawnCode s ch sh i

/-- The sample count of `WAVE[ch]` is legal for a timed synthesis of shape `sh` (R174, R175). -/
def LegalCount (s : State) (ch : Channel) (sh : Shape) : Prop :=
  2 ≤ (s.wave.get ch).n ∧ (s.wave.get ch).n ≤ Config.params.synNMax ∧ (sh = .triangle → (s.wave.get ch).n % 2 = 0)

/-- A sample-clock rate the DAC timer takes (R212, R301). -/
def LegalRate (rate : ℕ) : Prop := 1 ≤ rate ∧ rate ≤ Config.params.dacTmrMax

/-- `i` is the timed synthesis of shape `sh` on `ch` (R177 to R180). -/
def IsTimedSyn (i : Instr) (sh : Shape) (ch : Channel) : Prop :=
  (i = .synSine ch ∧ sh = .sine) ∨ (i = .synCosine ch ∧ sh = .cosine) ∨
    (i = .synTriangle ch ∧ sh = .triangle) ∨ (i = .synSawtooth ch ∧ sh = .sawtooth)

open Classical in
/-- The synthesis operation that `WAVE[ch]` selects: the amplitude first, then the shape (R170, R171). -/
noncomputable def selected (s : State) (ch : Channel) : Instr :=
  if ampOf s ch = 0 then .synDc ch
  else
    match (s.wave.get ch).shape with
    | .sine => .synSine ch
    | .cosine => .synCosine ch
    | .triangle => .synTriangle ch
    | .sawtooth => .synSawtooth ch
    | .none => .synNone ch

/-! ### What an install leaves (R210, R211, R213) -/

/-- A result whose install raises no fault: a buffer whose rate is legal (R210, R212), or no buffer. -/
def RateOk (s : State) (ch : Channel) : SynResult → Prop
  | .timed buf => LegalRate ((s.wave.get ch).freq * buf.length)
  | .dc _ => True
  | .hold => True

/-- `PB[ch]` after the install. -/
def installedPb (s : State) (ch : Channel) : SynResult → Playback
  | .timed buf => .timed buf ((s.wave.get ch).freq * buf.length) 0
  | .dc _ => .stopped
  | .hold => .stopped

/-- `DACOUT[ch]` after the install. -/
def installedDac (s : State) (ch : Channel) : SynResult → Option Code
  | .dc c => some c
  | .timed _ => s.dac.get ch
  | .hold => s.dac.get ch

/-- `s` with `r` installed on `ch`, the sequencer at `q`. -/
def installed (s : State) (ch : Channel) (r : SynResult) (q : SeqStep) : State :=
  { s with
    pb := s.pb.set ch (installedPb s ch r)
    dac := s.dac.set ch (installedDac s ch r)
    seq := .busy q }

/-! ### Errors and streams -/

/-- The state after `code` of R292 is raised in `s`: `FAULT` and `SEQ`, nothing else. -/
def faulted (s : State) (code : FaultCode) (ch : Option Channel) (idx : Option Nat) : State :=
  { s with fault := some { code := code, ch := ch, idx := idx }, seq := .faulted }

/-- Why the sequencer's next step faults, with the record it leaves (R293, R294). -/
inductive FaultCause (s : State) : FaultRecord → Prop where
  /-- R174. -/
  | synCount (ch : Channel) (position : s.seq = .busy (.rearm ch)) (amp : ampOf s ch ≠ 0)
      (shape : (s.wave.get ch).shape ≠ .none) (count : (s.wave.get ch).n < 2 ∨ Config.params.synNMax < (s.wave.get ch).n) :
      FaultCause s { code := .synCount, ch := some ch, idx := none }
  /-- R175: the count is legal, but odd. -/
  | synTriOdd (ch : Channel) (position : s.seq = .busy (.rearm ch)) (amp : ampOf s ch ≠ 0)
      (shape : (s.wave.get ch).shape = .triangle)
      (count : 2 ≤ (s.wave.get ch).n ∧ (s.wave.get ch).n ≤ Config.params.synNMax) (odd : (s.wave.get ch).n % 2 = 1) :
      FaultCause s { code := .synTriOdd, ch := some ch, idx := none }
  /-- R173, of a sample: the lowest one out of range. -/
  | dacRange (ch : Channel) (i : ℕ) (position : s.seq = .busy (.rearm ch)) (amp : ampOf s ch ≠ 0)
      (shape : (s.wave.get ch).shape ≠ .none) (count : LegalCount s ch (s.wave.get ch).shape) (bound : i < (s.wave.get ch).n)
      (lower : ∀ j < i, InRange (drawnCode s ch (s.wave.get ch).shape j))
      (out : ¬InRange (drawnCode s ch (s.wave.get ch).shape i)) :
      FaultCause s { code := .dacRange, ch := some ch, idx := some i }
  /-- R173, in DC mode. -/
  | dcRange (ch : Channel) (position : s.seq = .busy (.rearm ch)) (amp : ampOf s ch = 0)
      (out : ¬InRange (drawnOffset s ch)) : FaultCause s { code := .dacRange, ch := some ch, idx := some 0 }
  /-- R212. -/
  | playRate (ch : Channel) (buf : List Code) (position : s.seq = .busy (.install ch (.timed buf)))
      (rate : (s.wave.get ch).freq * buf.length = 0 ∨ Config.params.dacTmrMax < (s.wave.get ch).freq * buf.length) :
      FaultCause s { code := .playRate, ch := some ch, idx := none }
  /-- R253. -/
  | capRate (rate : ℕ) (position : s.seq = .busy (.captureStart rate)) (illegal : rate = 0 ∨ Config.params.adcTmrMax < rate) :
      FaultCause s { code := .capRate, ch := none, idx := none }
  /-- R150. -/
  | supplyZero (raw : List Byte) (position : s.seq = .busy (.decode raw)) (line : decodeLine raw = .ok (.dz 0)) :
      FaultCause s { code := .supplyZero, ch := none, idx := none }

/-- The whole stream of an `m1`, byte for byte (R255). -/
def streamBytes (s : State) : List Byte := responseBytes Config.params.streamEndian (s.capA.toList ++ s.capB.toList)

/-! ### Invariants -/

/-- `WAVE[ch]` holds what a command can write (R31, R33, R34). -/
def GenRegOk (r : GenReg) : Prop := r.n ≤ 999 ∧ r.freq ≤ 9999999

/-- `AFECFG[ch]` holds what a command can write (R38). -/
def AfeCfgOk (c : AfeCfg) : Prop := c.cpl ≤ 9 ∧ c.gain ≤ 999 ∧ c.offs ≤ 999

/-- A running playback has a legal buffer, index and rate (R43, R71, R301). -/
def PlaybackOk (P : Params) : Playback → Prop
  | .stopped => True
  | .timed buf rate idx =>
    Config.nMin ≤ buf.length ∧ buf.length ≤ P.synNMax ∧ idx < buf.length ∧ 1 ≤ rate ∧ rate ≤ P.dacTmrMax

/-- A running capture has entries left to fill and a legal rate (R47, R254, R301). -/
def CaptureOk (P : Params) : Capture → Prop
  | .off => True
  | .running k rate => k < Config.bufSize ∧ 1 ≤ rate ∧ rate ≤ P.adcTmrMax

/-- What a rule step keeps for later is what its command can have left there: a whole line (R100), a buffer of legal count
(R174), the fields of an `m1` line (R109), a place in the stream (R255), the sums of the reads made (R261), the bytes of an
average response not sent yet (R262). -/
def StepOk (P : Params) : SeqStep → Prop
  | .decode raw => lf ∉ raw
  | .install _ (.timed buf) => Config.nMin ≤ buf.length ∧ buf.length ≤ P.synNMax
  | .afeEvent f _ => (Instr.m1 f).wf = true
  | .afeSecond f => (Instr.m1 f).wf = true
  | .captureStart rate => rate ≤ 999999
  | .stream k => 1 ≤ k ∧ k < streamLen
  | .reads j sA sB => 1 ≤ j ∧ j < readCount ∧ sA ≤ (j + 1) / 2 * 65535 ∧ sB ≤ j / 2 * 65535
  | .respond bytes => 1 ≤ bytes.length ∧ bytes.length ≤ 4
  | _ => True

/-- The sequencer is inside a paired re-arm (R217). -/
def InRearm : Seq → Prop
  | .busy (.rearm _) => True
  | .busy (.install _ _) => True
  | .busy .rearmEnd => True
  | _ => False

/-- What every step keeps: the registers, engines, timers and the sequencer's position hold legal values; a capture runs
only while the sequencer waits for it (R256, R292); `FAULT` is set exactly in the faulted state (R292); `REARM` is true
throughout a re-arm, and otherwise only in the faulted state (R45, R217); a queued line holds no line feed (R100). -/
structure Inv (P : Params) (s : State) : Prop where
  wave : ∀ ch, GenRegOk (s.wave.get ch)
  afe : ∀ ch, AfeCfgOk (s.afe.get ch)
  playback : ∀ ch, PlaybackOk P (s.pb.get ch)
  capture : CaptureOk P s.cap
  position : ∀ q, s.seq = .busy q → StepOk P q
  waits : s.cap ≠ .off → s.seq = .busy .capture
  halted : s.seq = .faulted ↔ s.fault.isSome
  window : InRearm s.seq → s.rearm = true
  windowOnly : s.rearm = true → InRearm s.seq ∨ s.seq = .faulted
  lines : ∀ raw ∈ s.rxq, lf ∉ raw

/-- Where the sequencer can be before the startup re-arm has installed channel `ch` in DC mode (R333), or halted. -/
def BeforeInstall (ch : Channel) : Seq → Prop
  | .busy .startup => True
  | .busy .rearmBegin => True
  | .busy (.rearm .one) => True
  | .busy (.install .one r) => ch = .one → ∃ c, r = .dc c
  | .busy (.rearm .two) => ch = .two
  | .busy (.install .two r) => ch = .two ∧ ∃ c, r = .dc c
  | .faulted => True
  | _ => False

/-- A DAC is UNSET only before the startup re-arm has installed its channel, or after a fault; until then the channel is
in DC mode (R44, R213, R333). -/
def DacInv (s : State) : Prop := ∀ ch, s.dac.get ch = none → ampOf s ch = 0 ∧ BeforeInstall ch s.seq

/-- The positions a rule step follows, for the rule step `q`: each command's rule in its order (R79, R140, R217, R251,
R253, R255, R259, R333). -/
def ComesFrom (p : Seq) : SeqStep → Prop
  | .startup => False
  | .decode _ => p = .ready
  | .rearmBegin => p = .busy .startup ∨
      ∃ raw f, p = .busy (.decode raw) ∧ (decodeLine raw = .ok (.s1 f) ∨ decodeLine raw = .ok (.s2 f))
  | .rearm .one => p = .busy .rearmBegin
  | .rearm .two => ∃ r, p = .busy (.install .one r)
  | .install ch _ => p = .busy (.rearm ch)
  | .rearmEnd => ∃ r, p = .busy (.install .two r)
  | .afeEvent f .one => ∃ raw, p = .busy (.decode raw) ∧ decodeLine raw = .ok (.m1 f)
  | .afeEvent f .two => p = .busy (.afeSecond f)
  | .afeSecond f => p = .busy (.afeEvent f .one)
  | .captureStart rate => ∃ f, p = .busy (.afeEvent f .two) ∧ rate = f.fq
  | .capture => ∃ rate, p = .busy (.captureStart rate)
  | .stream k => (k = 1 ∧ p = .busy .capture) ∨ ∃ j, k = j + 1 ∧ p = .busy (.stream j)
  | .reads k _ _ => (∃ raw, k = 1 ∧ p = .busy (.decode raw) ∧ decodeLine raw = .ok .m2) ∨
      ∃ j sA sB, k = j + 1 ∧ p = .busy (.reads j sA sB)
  | .respond bytes => (∃ sA sB, p = .busy (.reads 19 sA sB)) ∨ ∃ b, p = .busy (.respond (b :: bytes))
  | .complete => p = .busy .rearmEnd ∨ p = .busy (.stream 3999) ∨ (∃ b, p = .busy (.respond [b])) ∨
      ∃ raw cv, p = .busy (.decode raw) ∧ decodeLine raw = .ok (.dz cv) ∧ cv ≠ 0

/-- `k` turns taken one after another, each answering a next state. -/
def Runs (k : Nat) (s t : State) : Prop := Sys2Proof.core.run k s = .next t

end Safety

end Sys2Proof
end

