-- ==== Sys2Proof/Certificates/Slice0/Obligations.lean ====
section
/-! DEFINITION. The statements about the WSCE, for the provers. -/

open Sys2Proof Sys2Proof.Machine Sys2Proof.Safety

/-! ### Encoding -/

/-- Decoding the canonical encoding of an instruction whose operands fit their fields gives it back (R104, R110, R114). -/
def Obligations.DecodeEncodeRoundTrip : Prop :=
  ∀ i : Instr, i.wf = true → decode (encode i) = .ok i

/-- What the decoder gives fits the fields (the maxima of R109). -/
def Obligations.DecodedOperandsFitTheirFields : Prop :=
  ∀ (w : Fetched) (i : Instr), decode w = .ok i → i.wf = true

/-- Lines written out from R104, one for each format: `s10000400010000100165`, `s29900400010000100165`,
`m100100001500000160000`, `m2xyz`, `dz0550`, `x1abc`. -/
def Obligations.SpecLinesDecode : Prop :=
  decodeLine [0x73, 0x31, 0x30, 0x30, 0x30, 0x30, 0x34, 0x30, 0x30, 0x30, 0x31, 0x30, 0x30, 0x30, 0x30, 0x31, 0x30,
      0x30, 0x31, 0x36, 0x35] = .ok (.s1 { sh := .sine, ns := 4, fq := 1000, ar := 100, or := 165 }) ∧
    decodeLine [0x73, 0x32, 0x39, 0x39, 0x30, 0x30, 0x34, 0x30, 0x30, 0x30, 0x31, 0x30, 0x30, 0x30, 0x30, 0x31, 0x30,
      0x30, 0x31, 0x36, 0x35] = .ok (.s2 { sh := .none, ns := 4, fq := 1000, ar := 100, or := 165 }) ∧
    decodeLine [0x6D, 0x31, 0x30, 0x30, 0x31, 0x30, 0x30, 0x30, 0x30, 0x31, 0x35, 0x30, 0x30, 0x30, 0x30, 0x30, 0x31,
      0x36, 0x30, 0x30, 0x30, 0x30] =
        .ok (.m1 { fq := 1000, c1 := 0, g1 := 150, o1 := 0, c2 := 0, g2 := 160, o2 := 0 }) ∧
    decodeLine [0x6D, 0x32, 0x78, 0x79, 0x7A] = .ok .m2 ∧
    decodeLine [0x64, 0x7A, 0x30, 0x35, 0x35, 0x30] = .ok (.dz 550) ∧
    decodeLine [0x78, 0x31, 0x61, 0x62, 0x63] = .ok .unrecognized

/-- A byte sequence from the host is cut into lines at its line feeds, and a carriage return just before one is removed
(R100). -/
def Obligations.LineFeedEndsALine : Prop :=
  (∀ raw rest : List Byte, lf ∉ raw → frame (raw ++ lf :: rest) = raw :: frame rest) ∧
    (∀ raw : List Byte, lf ∉ raw → frame raw = []) ∧
    (∀ raw : List Byte, stripCr (raw ++ [cr]) = raw) ∧
    (∀ raw : List Byte, raw.getLast? ≠ some cr → stripCr raw = raw ∧ decodeLine (raw ++ [cr]) = decodeLine raw)

/-- A line that breaks the line contract (R101) or is shorter than its format (R105) is the no-op `E_PARSE`. -/
def Obligations.MalformedLineIsNoOp : Prop :=
  ∀ (s : State) (raw : List Byte), nextTurn s = .sequencer → s.seq = .busy (.decode raw) →
    (stripCr raw = [] ∨ (∃ b ∈ stripCr raw, 0x80 ≤ b.toNat) ∨
      ((stripCr raw).take 2 = [0x73, 0x31] ∧ (stripCr raw).length < 19) ∨
      ((stripCr raw).take 2 = [0x73, 0x32] ∧ (stripCr raw).length < 19) ∨
      ((stripCr raw).take 2 = [0x6D, 0x31] ∧ (stripCr raw).length < 22) ∨
      ((stripCr raw).take 2 = [0x64, 0x7A] ∧ (stripCr raw).length < 6)) →
    step s = .next { popTurn s with lastErr := some .parse, seq := .ready }

/-- Decimal fields (R103): their value, when they are well-formed, and the no-op `E_PARSE` of a line one of whose decimal
fields has a character that is no digit, or no character. The decimal fields of an S line are its characters from 4 on,
of an M1 line 2 to 21, of a DZ line 2 to 5; the last field of an S line, from 18 on, can be empty (R104, R106). -/
def Obligations.DecimalFieldsAreDigitsOnly : Prop :=
  (∀ cs : List Byte, decField cs ≠ none ↔ cs ≠ [] ∧ ∀ b ∈ cs, 0x30 ≤ b.toNat ∧ b.toNat ≤ 0x39) ∧
    (∀ (d : Byte), 0x30 ≤ d.toNat → d.toNat ≤ 0x39 → decField [d] = some (d.toNat - 0x30)) ∧
    (∀ (cs : List Byte) (v : Nat) (d : Byte), decField cs = some v → 0x30 ≤ d.toNat → d.toNat ≤ 0x39 →
      decField (cs ++ [d]) = some (10 * v + (d.toNat - 0x30))) ∧
    (∀ (raw : List Byte) (b : Byte), ¬(0x30 ≤ b.toNat ∧ b.toNat ≤ 0x39) →
      (((stripCr raw).take 2 = [0x73, 0x31] ∧ b ∈ (stripCr raw).drop 4) ∨
        ((stripCr raw).take 2 = [0x73, 0x32] ∧ b ∈ (stripCr raw).drop 4) ∨
        ((stripCr raw).take 2 = [0x6D, 0x31] ∧ b ∈ chars (stripCr raw) 2 22) ∨
        ((stripCr raw).take 2 = [0x64, 0x7A] ∧ b ∈ chars (stripCr raw) 2 6)) →
      decodeLine raw = .error .parse) ∧
    (∀ raw : List Byte, ((stripCr raw).take 2 = [0x73, 0x31] ∨ (stripCr raw).take 2 = [0x73, 0x32]) →
      (stripCr raw).drop 18 = [] → decodeLine raw = .error .parse)

/-- Characters beyond the last field of M1, M2 and DZ are ignored (R107), in an ASCII line: a byte from 0x80 up makes the
line malformed before its tag is looked at (R101). -/
def Obligations.TrailingCharactersAreIgnored : Prop :=
  ∀ line junk : List Byte, (∀ b ∈ line ++ junk, b.toNat < 0x80) →
    ((line.take 2 = [0x6D, 0x31] ∧ line.length = 22) ∨ line = [0x6D, 0x32] ∨
      (line.take 2 = [0x64, 0x7A] ∧ line.length = 6)) →
    decodeLine (line ++ junk) = decodeLine line

/-- A line is UNRECOGNIZED exactly when it has one character or a tag other than the five (R102, R151). -/
def Obligations.TagIsExact : Prop :=
  ∀ raw : List Byte, badLine (stripCr raw) = false →
    (decodeLine raw = .ok .unrecognized ↔
      (stripCr raw).length = 1 ∨
        ¬((stripCr raw).take 2 = [0x73, 0x31] ∨ (stripCr raw).take 2 = [0x73, 0x32] ∨
          (stripCr raw).take 2 = [0x6D, 0x31] ∨ (stripCr raw).take 2 = [0x6D, 0x32] ∨
          (stripCr raw).take 2 = [0x64, 0x7A]))

/-- The shape of an S line is characters 2 and 3 compared as a string: four codes, anything else NONE, and no pair of
characters is a parse error; the shapes' numeric codes (R110). -/
def Obligations.ShapeFieldNeverFails : Prop :=
  [Shape.sine, .cosine, .triangle, .sawtooth, .none].map Shape.code = [0, 1, 2, 3, 4] ∧
  ∀ (line : List Byte) (c2 c3 : Byte) (f : SFields), (line.drop 2).take 2 = [c2, c3] → decodeS line = some f →
    (f.sh = .sine ↔ c2 = 0x30 ∧ c3 = 0x30) ∧ (f.sh = .cosine ↔ c2 = 0x30 ∧ c3 = 0x31) ∧
      (f.sh = .triangle ↔ c2 = 0x31 ∧ c3 = 0x30) ∧ (f.sh = .sawtooth ↔ c2 = 0x31 ∧ c3 = 0x31) ∧
      ∀ d2 d3 : Byte, ∃ f', decodeS (line.take 2 ++ [d2, d3] ++ line.drop 4) = some f' ∧
        f'.ns = f.ns ∧ f'.fq = f.fq ∧ f'.ar = f.ar ∧ f'.or = f.or

/-! ### The sequencer -/

/-- The sequencer, having taken a line, runs the instruction it decodes to (R140). -/
def Obligations.StepRunsDecodedLine : Prop :=
  ∀ (s : State) (raw : List Byte) (i : Instr),
    nextTurn s = .sequencer → s.seq = .busy (.decode raw) → decode (.line raw) = .ok i → step s = exec i (popTurn s)

/-- A sequencer's turn inside a paired re-arm runs the synthesis operation the channel's register selects (R170). -/
def Obligations.StepRunsSelectedSynthesis : Prop :=
  ∀ (s : State) (ch : Channel), nextTurn s = .sequencer → s.seq = .busy (.rearm ch) →
    step s = exec
      (open Classical in if ampOf s ch = 0 then .synDc ch
        else match (s.wave.get ch).shape with
          | .sine => .synSine ch
          | .cosine => .synCosine ch
          | .triangle => .synTriangle ch
          | .sawtooth => .synSawtooth ch
          | .none => .synNone ch) (popTurn s)

/-- A no-op line changes `LAST_ERR` and `RXQ`, nothing else (R143): two steps of the sequencer, no other turn between
them. -/
def Obligations.NoOpLineChangesNothingElse : Prop :=
  ∀ (s : State) (raw : List Byte) (rest : List (List Byte)) (code : NoOpCode),
    nextTurn s = .sequencer → nextTurn (popTurn s) = .sequencer → s.seq = .ready → s.rxq = raw :: rest →
    (decode (.line raw) = .error code ∨ (decode (.line raw) = .ok .unrecognized ∧ code = .tag)) →
    Runs 2 s { popTurn (popTurn s) with rxq := rest, lastErr := some code }

/-- Ready, the sequencer holds for a line, or takes the one at the head and clears `LAST_ERR`; a command complete, it is
ready; the arrival of a line appends it, in any state of the block (R42, R49, R140). -/
def Obligations.SequencerTakesALine : Prop :=
  (∀ s : State, nextTurn s = .sequencer → s.seq = .ready → s.rxq = [] → step s = .next (popTurn s)) ∧
    (∀ (s : State) (raw : List Byte) (rest : List (List Byte)), nextTurn s = .sequencer → s.seq = .ready →
      s.rxq = raw :: rest →
      step s = .next { popTurn s with rxq := rest, lastErr := none, seq := .busy (.decode raw) }) ∧
    (∀ s : State, nextTurn s = .sequencer → s.seq = .busy .complete → step s = .next { popTurn s with seq := .ready }) ∧
    (∀ (s : State) (raw : List Byte), nextTurn s = .line raw → lf ∉ raw →
      step s = .next { popTurn s with rxq := s.rxq ++ [raw] })

/-- The sequencer goes through the rule steps of each command in the order of its rule, and takes a line only when the
last command is complete (R79, R140, R142). -/
def Obligations.CommandsFollowTheirRules : Prop :=
  ∀ (s t : State) (q : SeqStep), Inv Config.params s → nextTurn s ≠ .powerOn → step s = .next t → t.seq = .busy q →
    t.seq = s.seq ∨ (nextTurn s = .sequencer ∧ ComesFrom s.seq q)

/-- Faulted, the sequencer takes no step; the playback engines and the capture engine still take theirs (R145). The passing
turn is log 9's, the order of the two values log 5's. -/
def Obligations.FaultedSequencerStops : Prop :=
  ∀ s : State, s.seq = .faulted →
    (nextTurn s = .sequencer → step s = .next (popTurn s)) ∧
    (∀ ch buf rate idx c, nextTurn s = .tickDac ch → s.pb.get ch = .timed buf rate idx → buf[idx]? = some c →
      step s = .next { popTurn s with
        dac := s.dac.set ch (some c), pb := s.pb.set ch (.timed buf rate ((idx + 1) % buf.length)) }) ∧
    (∀ k rate, ∀ h : k < Config.bufSize, nextTurn s = .tickCap → s.cap = .running k rate →
      step s = .next { popTurn s with
        capA := s.capA.set k (s.env.adcValue 0)
        capB := s.capB.set k (s.env.adcValue 1)
        cap := if k + 1 = Config.bufSize then .off else .running (k + 1) rate
        env := (popTurn s).env.useAdc 2 })

/-- A fault is never cleared and no line is taken after it, except by a reset (R292, R298). -/
def Obligations.FaultLastsUntilReset : Prop :=
  ∀ s t : State, s.seq = .faulted → nextTurn s ≠ .powerOn → step s = .next t →
    t.seq = .faulted ∧ t.fault = s.fault ∧ t.rearm = s.rearm ∧ ∃ new, t.rxq = s.rxq ++ new

/-- While a capture runs, the sequencer holds and no line is taken; only the 1000th tick stops the capture (R256). -/
def Obligations.CaptureBlocksTheSequencer : Prop :=
  ∀ s : State, s.seq = .busy .capture → s.cap ≠ .off →
    (nextTurn s = .sequencer → step s = .next (popTurn s)) ∧
    (∀ t, nextTurn s ≠ .powerOn → step s = .next t →
      t.seq = .busy .capture ∧ t.tx = s.tx ∧ (∃ new, t.rxq = s.rxq ++ new) ∧
        (t.cap = .off → nextTurn s = .tickCap ∧ ∃ rate, s.cap = .running (Config.bufSize - 1) rate))

/-- A fault has one of the causes of R293, with the code, channel and index given there, and it is a step of the
sequencer. -/
def Obligations.OnlyListedCausesFault : Prop :=
  ∀ (s t : State) (r : FaultRecord), step s = .next t → s.fault = none → t.fault = some r →
    nextTurn s = .sequencer ∧ t.seq = .faulted ∧ FaultCause s r

/-! ### The generator -/

/-- S1 and S2 write the five fields of their channel's register in one step, and go on to the paired re-arm (R214, R215). -/
def Obligations.S1S2SetTheirRegister : Prop :=
  ∀ (f : SFields) (s : State),
    exec (.s1 f) s = .next { s with
      wave := { s.wave with one :=
        { shape := f.sh
          n := f.ns
          freq := f.fq
          amp := Config.params.calAmp .one f.ar
          off := Config.params.calOff .one f.or } }
      seq := .busy .rearmBegin } ∧
    exec (.s2 f) s = .next { s with
      wave := { s.wave with two :=
        { shape := f.sh
          n := f.ns
          freq := f.fq
          amp := Config.params.calAmp .two f.ar
          off := Config.params.calOff .two f.or } }
      seq := .busy .rearmBegin }

/-- The paired re-arm (R217, R218, R340). `REARM` opens the window; where the selected synthesis of channel 1 gives `r1` and
that of channel 2, run after channel 1 is installed, gives `r2`, the two channels are installed in this order, each with
its own result, and the window closes. A fault inside the re-arm leaves everything else, `REARM` included, as it was. -/
def Obligations.PairedRearmInstallsBothChannels : Prop :=
  (∀ (s s0 s1 : State) (r1 r2 : SynResult) (e1 e2 : Env), s.seq = .busy .rearmBegin → s.env.turns = [] →
    s0 = { s with rearm := true, seq := .busy (.rearm .one) } →
    exec (selected s0 .one) s0 = .next { s0 with seq := .busy (.install .one r1), env := e1 } → RateOk s .one r1 →
    s1 = installed { s0 with env := e1 } .one r1 (.rearm .two) →
    exec (selected s1 .two) s1 = .next { s1 with seq := .busy (.install .two r2), env := e2 } → RateOk s .two r2 →
    Runs 1 s s0 ∧ Runs 3 s s1 ∧ Runs 7 s { s with
      pb := { one := installedPb s .one r1, two := installedPb s .two r2 }
      dac := { one := installedDac s .one r1, two := installedDac s .two r2 }
      rearm := false
      seq := .ready
      env := e2 }) ∧
  (∀ s t : State, nextTurn s = .sequencer → InRearm s.seq → step s = .next t → t.seq = .faulted →
    t = { popTurn s with fault := t.fault, seq := .faulted, env := t.env })

/-- SYN.SINE, SYN.COSINE, SYN.TRIANGLE and SYN.SAWTOOTH complete where the count, the parity and the codes are legal: the
result is a buffer of the codes of the samples, and, with a legal rate, the channel plays it from index 0 at `FREQ · N` Hz,
and nothing else changes (R170, R177 to R180, R210, R212). -/
def Obligations.TimedSynthesisArmsTheBuffer : Prop :=
  ∀ (i : Instr) (sh : Shape) (ch : Channel) (s : State), IsTimedSyn i sh ch → LegalCount s ch sh →
    (∀ j < (s.wave.get ch).n, InRange (drawnCode s ch sh j)) →
    ∃ (buf : List Code) (t : State), IsBuffer s ch sh buf ∧ exec i s = .next t ∧
      t = { s with seq := .busy (.install ch (.timed buf)), env := s.env.useBand (s.wave.get ch).n } ∧
      (LegalRate ((s.wave.get ch).freq * (s.wave.get ch).n) → s.env.turns = [] →
        Runs 1 t { t with
          pb := s.pb.set ch (.timed buf ((s.wave.get ch).freq * (s.wave.get ch).n) 0)
          seq := .busy (afterInstall ch) })

/-- A timed synthesis with fewer than 2 or more than `SYN_NMAX` samples is `F_SYN_COUNT` (R174). -/
def Obligations.IllegalCountFaults : Prop :=
  ∀ (i : Instr) (sh : Shape) (ch : Channel) (s : State), IsTimedSyn i sh ch →
    ((s.wave.get ch).n < 2 ∨ Config.params.synNMax < (s.wave.get ch).n) →
    exec i s = .next { faulted s .synCount (some ch) none with env := s.env.useBand (s.wave.get ch).n }

/-- An odd triangle is `F_SYN_TRI_ODD`, after the count check (R175). -/
def Obligations.OddTriangleFaults : Prop :=
  ∀ (ch : Channel) (s : State), (s.wave.get ch).n % 2 = 1 →
    exec (.synTriangle ch) s = .next
      { faulted s
          (if 2 ≤ (s.wave.get ch).n ∧ (s.wave.get ch).n ≤ Config.params.synNMax then .synTriOdd else .synCount)
          (some ch) none with
        env := s.env.useBand (s.wave.get ch).n }

/-- The lowest sample out of the DAC range is `F_DAC_RANGE` with its index, before the rate is looked at (R173, R294). -/
def Obligations.FirstSampleOutOfRangeFaults : Prop :=
  ∀ (i : Instr) (sh : Shape) (ch : Channel) (s : State) (k : ℕ), IsTimedSyn i sh ch → LegalCount s ch sh →
    k < (s.wave.get ch).n → (∀ j < k, InRange (drawnCode s ch sh j)) → ¬InRange (drawnCode s ch sh k) →
    exec i s = .next { faulted s .dacRange (some ch) (some k) with env := s.env.useBand (s.wave.get ch).n }

/-- A sample-clock rate of 0 or above `DAC_TMR_MAX_HZ` is `F_PLAY_RATE`, after the synthesis (R210, R212, R294). -/
def Obligations.IllegalPlayRateFaults : Prop :=
  ∀ (i : Instr) (sh : Shape) (ch : Channel) (s : State), IsTimedSyn i sh ch → LegalCount s ch sh →
    (∀ j < (s.wave.get ch).n, InRange (drawnCode s ch sh j)) →
    ((s.wave.get ch).freq * (s.wave.get ch).n = 0 ∨
      Config.params.dacTmrMax < (s.wave.get ch).freq * (s.wave.get ch).n) →
    s.env.turns = [] →
    ∃ t : State, exec i s = .next t ∧
      Runs 1 t { faulted s .playRate (some ch) none with env := s.env.useBand (s.wave.get ch).n }

/-- SYN.NONE holds: no synthesis, and then the channel's timer stops and its DAC keeps its code; count and frequency are
not checked (R181, R213). -/
def Obligations.SynNoneHoldsTheChannel : Prop :=
  ∀ (ch : Channel) (s : State),
    exec (.synNone ch) s = .next { s with seq := .busy (.install ch .hold) } ∧
      (s.env.turns = [] → Runs 1 { s with seq := .busy (.install ch .hold) }
        { s with pb := s.pb.set ch .stopped, seq := .busy (afterInstall ch) })

/-- SYN.DC gives the code of the offset, and then the channel's timer stops and its DAC takes the code (R176, R211). -/
def Obligations.SynDcDrivesTheOffset : Prop :=
  ∀ (ch : Channel) (s : State), InRange (drawnOffset s ch) →
    ∃ (c : Code) (t : State), ((c.toNat : ℕ) : ℤ) = drawnOffset s ch ∧ exec (.synDc ch) s = .next t ∧
      t = { s with seq := .busy (.install ch (.dc c)), env := s.env.useBand 1 } ∧
      (s.env.turns = [] →
        Runs 1 t { t with pb := s.pb.set ch .stopped, dac := s.dac.set ch (some c), seq := .busy (afterInstall ch) })

/-- SYN.DC with the code of the offset out of range is `F_DAC_RANGE`, index 0 (R173, R176, R293). -/
def Obligations.SynDcOutOfRangeFaults : Prop :=
  ∀ (ch : Channel) (s : State), ¬InRange (drawnOffset s ch) →
    exec (.synDc ch) s = .next { faulted s .dacRange (some ch) (some 0) with env := s.env.useBand 1 }

/-- An install puts its result on the channel in one step, whatever turns came since the synthesis; a rate that the timer
does not take is `F_PLAY_RATE` (R210 to R213, R218). -/
def Obligations.InstallPutsTheResultOnTheChannel : Prop :=
  ∀ (s : State) (ch : Channel), nextTurn s = .sequencer →
    (∀ buf, s.seq = .busy (.install ch (.timed buf)) → LegalRate ((s.wave.get ch).freq * buf.length) →
      step s = .next { popTurn s with
        pb := s.pb.set ch (.timed buf ((s.wave.get ch).freq * buf.length) 0), seq := .busy (afterInstall ch) }) ∧
    (∀ buf, s.seq = .busy (.install ch (.timed buf)) → ¬LegalRate ((s.wave.get ch).freq * buf.length) →
      step s = .next (faulted (popTurn s) .playRate (some ch) none)) ∧
    (∀ c, s.seq = .busy (.install ch (.dc c)) →
      step s = .next { popTurn s with
        pb := s.pb.set ch .stopped, dac := s.dac.set ch (some c), seq := .busy (afterInstall ch) }) ∧
    (s.seq = .busy (.install ch .hold) →
      step s = .next { popTurn s with pb := s.pb.set ch .stopped, seq := .busy (afterInstall ch) })

/-- DC mode is taken exactly when the amplitude is 0 as a real number, and reads nothing of the register but the offset
(R171). -/
def Obligations.DcModeReadsOnlyTheOffset : Prop :=
  (∀ (ch : Channel) (z : Bool) (sh : Shape), decode (.shape ch z sh) = .ok (.synDc ch) ↔ z = true) ∧
    (∀ (s : State) (ch : Channel), s.seq = .busy (.rearm ch) →
      (fetch s = some (.shape ch true (s.wave.get ch).shape) ↔ ampOf s ch = 0)) ∧
    (∀ (s : State) (ch : Channel) (w : GenReg), Config.params.toReal w.off = offOf s ch →
      ∃ t, exec (.synDc ch) s = .next t ∧
        exec (.synDc ch) { s with wave := s.wave.set ch w } = .next { t with wave := s.wave.set ch w })

/-- The machine's code is `code` of R172 of the exact real level, whatever real numbers the amplitude and the offset are:
outside the band the truncation, inside it a draw between the two truncations, either one; each sample of a wave has a
choice of its own, and the environment may make any choices. -/
def Obligations.DacCodeIsTheExactCode : Prop :=
  (∀ (up : Bool) (w : Wanted), w.Ok → dacCode Config.params up w = realCode up (w.toReal Config.params.named)) ∧
    (∀ (up : Bool) (v : ℝ), IsCode v (realCode up v)) ∧
    (∀ (v : ℝ) (k : ℤ), |scaled v - k| < eps →
      realCode false v = realTrunc (scaled v - eps) ∧ realCode true v = realTrunc (scaled v + eps)) ∧
    (∀ (e : Env) (choices : List Bool) (i : ℕ) (h : i < choices.length),
      ({ e with band := choices } : Env).bandChoice i = choices[i])

/-- Where the range of R173 lies for every draw, for none, and where the draw decides: there one choice has SYN.DC give its
code and the other has it fault. -/
def Obligations.TheDrawDecidesOnlyAtTheEdges : Prop :=
  (∀ v : ℝ, SureInRange v → ∀ up, InRange (realCode up v)) ∧
    (∀ v : ℝ, SureOutOfRange v → ∀ up, ¬InRange (realCode up v)) ∧
    (∀ v : ℝ, ¬SureInRange v → ¬SureOutOfRange v → ∃ up, InRange (realCode up v) ∧ ¬InRange (realCode (!up) v)) ∧
    (∀ (ch : Channel) (s : State), ¬SureInRange (offOf s ch) → ¬SureOutOfRange (offOf s ch) →
      ∃ up, (∃ (c : Code) (e : Env), exec (.synDc ch) { s with env := { s.env with band := [up] } } =
          .next { s with seq := .busy (.install ch (.dc c)), env := e }) ∧
        ∃ e : Env, exec (.synDc ch) { s with env := { s.env with band := [!up] } } =
          .next { faulted s .dacRange (some ch) (some 0) with env := e })

/-- The laws of the shapes (R182): the triangle's ramp step and its wrap-around, the period of sine and cosine as played,
levels affine in the offset and linear in the amplitude, equal levels outside the band give equal codes in the machine. -/
def Obligations.ShapeLawsHold : Prop :=
  (∀ (A O : ℝ) (n i : ℕ), n % 2 = 0 → i + 1 < n →
    shapeLevel .triangle A O n (i + 1) - shapeLevel .triangle A O n i =
      if i + 1 ≤ n / 2 then 4 * A / n else -(4 * A / n)) ∧
    (∀ (A O : ℝ) (n : ℕ), n % 2 = 0 → 2 ≤ n →
      shapeLevel .triangle A O n 0 - shapeLevel .triangle A O n (n - 1) = -(4 * A / n)) ∧
    (∀ (A O : ℝ) (n i : ℕ), 1 ≤ n →
      shapeLevel .sine A O n (i % n) = shapeLevel .sine A O n i ∧
        shapeLevel .cosine A O n (i % n) = shapeLevel .cosine A O n i) ∧
    (∀ (sh : Shape) (A O : ℝ) (n i : ℕ), sh ≠ .none → shapeLevel sh A O n i = O + A * shapeLevel sh 1 0 n i) ∧
    (∀ (w w' : Wanted) (up up' : Bool), w.Ok → w'.Ok → w.toReal Config.params.named = w'.toReal Config.params.named →
      (∀ k : ℤ, eps ≤ |scaled (w.toReal Config.params.named) - k|) →
      dacCode Config.params up w = dacCode Config.params up' w')

/-! ### Playback -/

/-- A tick of a timed channel puts entry `idx` on the DAC and steps the index around the buffer, in any sequencer state;
a stopped channel has no tick (R216). -/
def Obligations.PlaybackTickAdvances : Prop :=
  ∀ (s : State) (ch : Channel), nextTurn s = .tickDac ch →
    (∀ buf rate idx c, s.pb.get ch = .timed buf rate idx → buf[idx]? = some c →
      step s = .next { popTurn s with
        dac := s.dac.set ch (some c), pb := s.pb.set ch (.timed buf rate ((idx + 1) % buf.length)) }) ∧
    (s.pb.get ch = .stopped → step s = .next (popTurn s))

/-- After an arm, in every run of any turns of any agents, up to the channel's next install, a glitch of the channel in a
window, or a reset, the channel's DAC takes the buffer's codes in order, one per tick of the channel, and around again
(R220, R221). -/
def Obligations.PlaybackFollowsTheBuffer : Prop :=
  ∀ (s t : State) (ch : Channel) (buf : List Code) (rate k : Nat) (h : 0 < buf.length),
    s.pb.get ch = .timed buf rate 0 → Runs k s t →
    (∀ j < k, ∀ u, Runs j s u →
      nextTurn u ≠ .powerOn ∧ (∀ r, ¬(nextTurn u = .sequencer ∧ u.seq = .busy (.install ch r))) ∧
        ∀ v, ¬(nextTurn u = .glitch ch v ∧ u.rearm = true)) →
    t.pb.get ch = .timed buf rate ((s.env.turns.take k).count (.tickDac ch) % buf.length) ∧
      ((s.env.turns.take k).count (.tickDac ch) = 0 → t.dac.get ch = s.dac.get ch) ∧
      (0 < (s.env.turns.take k).count (.tickDac ch) →
        t.dac.get ch =
          some (buf[((s.env.turns.take k).count (.tickDac ch) - 1) % buf.length]'(Nat.mod_lt _ h)))

/-- A glitch sets the DAC of either channel to any code while `REARM` is true, and does nothing else; otherwise it has no
step (R217, R296). -/
def Obligations.GlitchOnlyInTheRearmWindow : Prop :=
  ∀ (s : State) (ch : Channel) (v : Code), nextTurn s = .glitch ch v →
    (s.rearm = true → step s = .next { popTurn s with dac := s.dac.set ch (some v) }) ∧
    (s.rearm = false → step s = .next (popTurn s))

/-- Only its own tick, its own install in a paired re-arm, and a reset change a channel's playback; its DAC code changes
in these ways and by a glitch in the window (R44, R220). -/
def Obligations.OnlyTickOrRearmChangesAGenerator : Prop :=
  ∀ (s t : State) (ch : Channel), step s = .next t → nextTurn s ≠ .tickDac ch → nextTurn s ≠ .powerOn →
    (∀ r, ¬(nextTurn s = .sequencer ∧ s.seq = .busy (.install ch r))) →
    t.pb.get ch = s.pb.get ch ∧
      ((∀ v, nextTurn s ≠ .glitch ch v) ∨ s.rearm = false → t.dac.get ch = s.dac.get ch)

/-- The generator registers are written by `s1` and `s2` and by a reset, and by nothing else (R31, R50). -/
def Obligations.OnlyS1S2WriteTheRegisters : Prop :=
  ∀ (s t : State) (ch : Channel), step s = .next t → nextTurn s ≠ .powerOn →
    t.wave.get ch = s.wave.get ch ∨
      ∃ raw f, nextTurn s = .sequencer ∧ s.seq = .busy (.decode raw) ∧
        ((ch = .one ∧ decodeLine raw = .ok (.s1 f)) ∨ (ch = .two ∧ decodeLine raw = .ok (.s2 f)))

/-! ### Capture and averaged read -/

/-- M1 (R251, R252, R253). Its first step writes `AFECFG[1]`; with a legal rate, four steps more emit the event of channel
1, write `AFECFG[2]`, emit the event of channel 2 and start the capture. -/
def Obligations.M1StartsTheCapture : Prop :=
  ∀ (f : M1Fields) (s : State), ∃ t : State, exec (.m1 f) s = .next t ∧
    t = { s with
      afe := { s.afe with one := { cpl := f.c1, gain := f.g1, offs := f.o1 } }, seq := .busy (.afeEvent f .one) } ∧
    (1 ≤ f.fq → f.fq ≤ Config.params.adcTmrMax → s.env.turns = [] →
      Runs 4 t { s with
        afe := { one := { cpl := f.c1, gain := f.g1, offs := f.o1 }, two := { cpl := f.c2, gain := f.g2, offs := f.o2 } }
        afeLog := s.afeLog ++ [{ ch := .one, cpl := f.c1, gain := f.g1, offs := f.o1 },
          { ch := .two, cpl := f.c2, gain := f.g2, offs := f.o2 }]
        cap := .running 0 f.fq
        seq := .busy .capture })

/-- M1 with a rate of 0 or above `ADC_TMR_MAX_HZ` still configures the front ends, then is `F_CAP_RATE` (R253, R294). -/
def Obligations.IllegalCaptureRateFaults : Prop :=
  ∀ (f : M1Fields) (s : State), f.fq = 0 ∨ Config.params.adcTmrMax < f.fq → s.env.turns = [] →
    ∃ t : State, exec (.m1 f) s = .next t ∧
      Runs 4 t { s with
        afe := { one := { cpl := f.c1, gain := f.g1, offs := f.o1 }, two := { cpl := f.c2, gain := f.g2, offs := f.o2 } }
        afeLog := s.afeLog ++ [{ ch := .one, cpl := f.c1, gain := f.g1, offs := f.o1 },
          { ch := .two, cpl := f.c2, gain := f.g2, offs := f.o2 }]
        fault := some { code := .capRate, ch := none, idx := none }
        seq := .faulted }

/-- A capture tick writes the drawn pair to entry `k` of both buffers and counts it; the 1000th stops the timer; with no
capture running there is no tick (R254). That the pair is the environment's next two values, A first, is log 5's. -/
def Obligations.CaptureTickWritesAPair : Prop :=
  ∀ s : State, nextTurn s = .tickCap →
    (∀ k rate, ∀ h : k < Config.bufSize, s.cap = .running k rate →
      step s = .next { popTurn s with
        capA := s.capA.set k (s.env.adcValue 0)
        capB := s.capB.set k (s.env.adcValue 1)
        cap := if k + 1 = Config.bufSize then .off else .running (k + 1) rate
        env := (popTurn s).env.useAdc 2 }) ∧
    (s.cap = .off → step s = .next (popTurn s))

/-- A thousand capture ticks fill both buffers in index order with the values drawn, end the capture, and send nothing
(R254, R257); the order of the draws is log 5's. -/
def Obligations.ThousandTicksFillTheBuffers : Prop :=
  ∀ (s : State) (rate : Nat), s.cap = .running 0 rate → s.env.turns = List.replicate Config.bufSize .tickCap →
    ∃ t, Runs Config.bufSize s t ∧ t.cap = .off ∧ t.seq = s.seq ∧ t.tx = s.tx ∧ t.pb = s.pb ∧ t.dac = s.dac ∧
      ∀ k (h : k < Config.bufSize),
        t.capA[k] = s.env.adcValue (2 * k) ∧ t.capB[k] = s.env.adcValue (2 * k + 1)

/-- The stream (R255). While the capture runs the sequencer sends nothing; after it, each step sends one byte, byte `k` of
the 4000, whatever turns come between; with none between, all 4000 leave and the sequencer is ready, the buffers as they
were. They are every word of `CAPA` in index order, then every word of `CAPB`. -/
def Obligations.StreamSendsBothBuffers : Prop :=
  (∀ s : State, nextTurn s = .sequencer → s.seq = .busy .capture → s.cap ≠ .off → step s = .next (popTurn s)) ∧
    (∀ (s : State) (k : ℕ) (b : Byte), nextTurn s = .sequencer →
      ((k = 0 ∧ s.seq = .busy .capture ∧ s.cap = .off) ∨ s.seq = .busy (.stream k)) → (streamBytes s)[k]? = some b →
      step s = .next { popTurn s with
        tx := s.tx ++ [b], seq := .busy (if k = 3999 then .complete else .stream (k + 1)) }) ∧
    (∀ s : State, s.seq = .busy .capture → s.cap = .off → s.env.turns = [] →
      Runs 4001 s { s with tx := s.tx ++ streamBytes s, seq := .ready }) ∧
    (∀ s : State, (streamBytes s).length = 4000 ∧
      ∀ k (h : k < Config.bufSize),
        ((streamBytes s).drop (2 * k)).take 2 = wordBytes Config.params.streamEndian s.capA[k] ∧
          ((streamBytes s).drop (2000 + 2 * k)).take 2 = wordBytes Config.params.streamEndian s.capB[k])

/-- The capture buffers are written by capture ticks and by a reset, and by nothing else (R46). -/
def Obligations.OnlyCaptureTicksWriteTheBuffers : Prop :=
  ∀ s t : State, step s = .next t → nextTurn s ≠ .tickCap → nextTurn s ≠ .powerOn → t.capA = s.capA ∧ t.capB = s.capB

/-- With the timeout enabled, its event stops a running capture and ends the command in `E_TIMEOUT`, keeping the buffers
and sending nothing; with it disabled, or no capture running, it has no step (R86, R256). -/
def Obligations.TimeoutEndsTheCaptureOnlyIfEnabled : Prop :=
  ∀ s : State,
    (∀ k rate, s.cap = .running k rate →
      capTimeout true s = { s with cap := .off, lastErr := some .timeout, seq := .ready }) ∧
    (s.cap = .off → capTimeout true s = s) ∧ capTimeout false s = s ∧
    (nextTurn s = .capTimeout → step s = .next (popTurn s))

/-- M2 (R259 to R262). Its first step is the first read of A. Each step is one read, of A and B in turn, or sends one byte,
whatever turns come between. With none between, 24 steps more send the two averages of ten reads each, A first: each the
sum of the ten values drawn for its channel, divided by ten and truncated. Which values are drawn is log 5's. -/
def Obligations.M2SendsTheAverages : Prop :=
  (∀ s : State, ∃ (t : State) (avgA avgB : Sample), exec .m2 s = .next t ∧
    t = { s with seq := .busy (.reads 1 (s.env.adcValue 0).toNat 0), env := s.env.useAdc 1 } ∧
    avgA.toNat = (∑ j ∈ Finset.range 10, (s.env.adcValue (2 * j)).toNat) / 10 ∧
    avgB.toNat = (∑ j ∈ Finset.range 10, (s.env.adcValue (2 * j + 1)).toNat) / 10 ∧
    (s.env.turns = [] → Runs 24 t { s with
      tx := s.tx ++ (wordBytes Config.params.streamEndian avgA ++ wordBytes Config.params.streamEndian avgB)
      seq := .ready
      env := s.env.useAdc 20 })) ∧
  (∀ (s : State) (j sA sB : ℕ), nextTurn s = .sequencer → s.seq = .busy (.reads j sA sB) →
    (j % 2 = 0 → j < 19 → step s = .next { popTurn s with
      seq := .busy (.reads (j + 1) (sA + (s.env.adcValue 0).toNat) sB), env := (popTurn s).env.useAdc 1 }) ∧
    (j % 2 = 1 → j < 19 → step s = .next { popTurn s with
      seq := .busy (.reads (j + 1) sA (sB + (s.env.adcValue 0).toNat)), env := (popTurn s).env.useAdc 1 }) ∧
    (j = 19 → step s = .next { popTurn s with
      seq := .busy (.respond (wordBytes Config.params.streamEndian (BitVec.ofNat 16 (sA / 10)) ++
        wordBytes Config.params.streamEndian (BitVec.ofNat 16 ((sB + (s.env.adcValue 0).toNat) / 10))))
      env := (popTurn s).env.useAdc 1 })) ∧
  (∀ (s : State) (b : Byte) (rest : List Byte), nextTurn s = .sequencer → s.seq = .busy (.respond (b :: rest)) →
    step s = .next { popTurn s with
      tx := s.tx ++ [b], seq := .busy (if rest = [] then .complete else .respond rest) })

/-- The two bytes of a word (R72): low byte first under LE, high byte first under BE. -/
def Obligations.WordBytesFollowTheByteOrder : Prop :=
  ∀ w : Sample, (wordBytes .le w).map BitVec.toNat = [w.toNat % 256, w.toNat / 256] ∧
    (wordBytes .be w).map BitVec.toNat = [w.toNat / 256, w.toNat % 256]

/-- `TX` only grows, a byte a step, and only by the bytes of a completed capture's stream, each in its place, and of an
average response (R257, R311). -/
def Obligations.OnlyResponsesAreSent : Prop :=
  ∀ s t : State, step s = .next t → nextTurn s ≠ .powerOn →
    t.tx = s.tx ∨ ∃ b : Byte, nextTurn s = .sequencer ∧ t.tx = s.tx ++ [b] ∧
      ((s.seq = .busy .capture ∧ s.cap = .off ∧ (streamBytes s)[0]? = some b) ∨
        (∃ k, s.seq = .busy (.stream k) ∧ (streamBytes s)[k]? = some b) ∨
        ∃ rest, s.seq = .busy (.respond (b :: rest)))

/-- The logs to the front end and to the supply are append-only, an event a step; the front end hears only from an `m1` at
an emit (which only an `m1` line leads to: CommandsFollowTheirRules), the supply only from `dz` and the startup (R49, R150,
R252, R333). -/
def Obligations.OutputLogsOnlyGrow : Prop :=
  ∀ s t : State, step s = .next t → nextTurn s ≠ .powerOn →
    (t.afeLog = s.afeLog ∨ ∃ f ch, nextTurn s = .sequencer ∧ s.seq = .busy (.afeEvent f ch) ∧
      t.afeLog = s.afeLog ++ [afeEventOf f ch]) ∧
    (t.supplyLog = s.supplyLog ∨
      (nextTurn s = .sequencer ∧ s.seq = .busy .startup ∧ t.supplyLog = s.supplyLog ++ [550]) ∨
      ∃ raw cv, nextTurn s = .sequencer ∧ s.seq = .busy (.decode raw) ∧ decodeLine raw = .ok (.dz cv) ∧ cv ≠ 0 ∧
        t.supplyLog = s.supplyLog ++ [cv])

/-! ### Supply and unrecognized lines -/

/-- DZ forwards a nonzero value and changes nothing else, and a step later the sequencer is ready; 0 is `F_SUPPLY_ZERO` with
nothing forwarded (R150). -/
def Obligations.DzForwardsOrFaults : Prop :=
  ∀ s : State,
    (∀ cv : Nat, cv ≠ 0 →
      exec (.dz cv) s = .next { s with supplyLog := s.supplyLog ++ [cv], seq := .busy .complete } ∧
        (s.env.turns = [] → Runs 1 { s with supplyLog := s.supplyLog ++ [cv], seq := .busy .complete }
          { s with supplyLog := s.supplyLog ++ [cv], seq := .ready })) ∧
    exec (.dz 0) s = .next { s with fault := some { code := .supplyZero, ch := none, idx := none }, seq := .faulted }

/-- UNRECOGNIZED records `E_TAG` and leaves the sequencer ready, nothing else (R151, R291). -/
def Obligations.UnrecognizedRecordsTheTag : Prop :=
  ∀ s : State, exec .unrecognized s = .next { s with lastErr := some .tag, seq := .ready }

/-- No instruction is stopped: `exec` answers a next state for every instruction in every state. (A fault of R292 is a next
state, with `SEQ = Faulted`: log 9.) -/
def Obligations.EveryInstructionRuns : Prop :=
  ∀ (i : Instr) (s : State), ∃ t, exec i s = .next t

/-! ### Reset and startup -/

/-- The generator registers at reset (R331), and the other elements that R332 gives a value. -/
def Obligations.ResetValues : Prop :=
  (∀ ch, (State.reset.wave.get ch).shape = .sine ∧ (State.reset.wave.get ch).n = 64 ∧
    (State.reset.wave.get ch).freq = 1000 ∧ ampOf State.reset ch = 0 ∧
    (State.reset.wave.get ch).off = Config.params.bias ch) ∧
    (∀ ch, State.reset.pb.get ch = .stopped ∧ State.reset.dac.get ch = none) ∧
    State.reset.rearm = false ∧ State.reset.cap = .off ∧ State.reset.seq = .busy .startup ∧
    State.reset.fault = none ∧ State.reset.lastErr = none ∧ State.reset.rxq = [] ∧ State.reset.tx = [] ∧
    State.reset.afeLog = [] ∧ State.reset.supplyLog = []

/-- The power-on reset discards all state, from any state (R330). That the front-end records and the capture buffers are
then the zeros of `State.reset` is the model's choice (log 7, 8), and so is the environment's future being kept (log 18). -/
def Obligations.PowerOnResetsEverything : Prop :=
  ∀ s : State, nextTurn s = .powerOn → step s = .next { State.reset with env := (popTurn s).env }

/-- The startup sequence from the reset defaults, with the code of both offsets in range: eight steps of the sequencer emit
the supply setting, drive both channels to the code of their offset, and end ready with the window closed (R333, R334).
Channel 1's code takes the first choice of the environment, channel 2's the second (log 6). -/
def Obligations.StartupDrivesBothChannels : Prop :=
  ∀ s : State, s.seq = .busy .startup → s.env.turns = [] → (∀ ch, ampOf s ch = 0) →
    InRange (realCode (s.env.bandChoice 0) (offOf s .one)) → InRange (realCode (s.env.bandChoice 1) (offOf s .two)) →
    ∃ c1 c2 : Code, ((c1.toNat : ℕ) : ℤ) = realCode (s.env.bandChoice 0) (offOf s .one) ∧
      ((c2.toNat : ℕ) : ℤ) = realCode (s.env.bandChoice 1) (offOf s .two) ∧
      Runs 8 s { s with
        pb := { one := .stopped, two := .stopped }
        dac := { one := some c1, two := some c2 }
        rearm := false
        seq := .ready
        supplyLog := s.supplyLog ++ [550]
        env := s.env.useBand 2 }

/-- A bias whose code is out of the DAC range faults the startup on its channel and leaves the window open; for channel 2,
channel 1 has been driven before (R333, R292). -/
def Obligations.StartupWithBadBiasFaults : Prop :=
  ∀ s : State, s.seq = .busy .startup → s.env.turns = [] → (∀ ch, ampOf s ch = 0) →
    (¬InRange (realCode (s.env.bandChoice 0) (offOf s .one)) →
      Runs 3 s { s with
        rearm := true
        seq := .faulted
        fault := some { code := .dacRange, ch := some .one, idx := some 0 }
        supplyLog := s.supplyLog ++ [550]
        env := s.env.useBand 1 }) ∧
    (InRange (realCode (s.env.bandChoice 0) (offOf s .one)) → ¬InRange (realCode (s.env.bandChoice 1) (offOf s .two)) →
      ∃ c1 : Code, ((c1.toNat : ℕ) : ℤ) = realCode (s.env.bandChoice 0) (offOf s .one) ∧
        Runs 5 s { s with
          pb := { s.pb with one := .stopped }
          dac := { s.dac with one := some c1 }
          rearm := true
          seq := .faulted
          fault := some { code := .dacRange, ch := some .two, idx := some 0 }
          supplyLog := s.supplyLog ++ [550]
          env := s.env.useBand 2 })

/-! ### Invariants -/

/-- Both invariants hold right after reset: the machine's, whose clause on the front-end records rests on log 7's zeros,
and that of the UNSET DACs (R44, R332). -/
def Obligations.InvariantsHoldAtReset : Prop := Inv Config.params State.reset ∧ DacInv State.reset

/-- Every step keeps the invariant, from every state that has it. (After a power-on turn the clause on the front-end
records rests on log 7's zeros, the model's choice.) -/
def Obligations.StepKeepsTheInvariant : Prop :=
  ∀ s t : State, Inv Config.params s → step s = .next t → Inv Config.params t

/-- Under the invariant the machine never stops: it runs on for any number of steps, whatever the turns (R71). -/
def Obligations.NoRunStopsUnderTheInvariant : Prop :=
  ∀ s : State, Inv Config.params s → ∀ k, ∃ t, Runs k s t

/-- Every step keeps the second invariant: a DAC is UNSET only before the startup re-arm has installed its channel, or
after a fault (R44, R213). -/
def Obligations.StepKeepsTheUnsetDacInvariant : Prop :=
  ∀ s t : State, DacInv s → step s = .next t → DacInv t
end

