-- ==== Sys2Proof/Laws/Level.lean ====
section
/-! SUPPORT. Exact level arithmetic is right: each comparison, floor, truncation and code of Machine/Level.lean is the one of
the real number the level stands for (log 14); and every calibration over the reals is that of some block (log 1). -/

namespace Sys2Proof.Machine

/-- `o` says how the reals `x` and `y` compare. -/
def Says (o : Ordering) (x y : ℝ) : Prop :=
  match o with
  | .lt => x < y
  | .eq => x = y
  | .gt => y < x

theorem Says.lt_iff {o : Ordering} {x y : ℝ} (h : Says o x y) : o = .lt ↔ x < y := by
  cases o <;> simp only [Says] at h <;> constructor <;> intro k <;> first | exact h | rfl | cases k | linarith

theorem Says.gt_iff {o : Ordering} {x y : ℝ} (h : Says o x y) : o = .gt ↔ y < x := by
  cases o <;> simp only [Says] at h <;> constructor <;> intro k <;> first | exact h | rfl | cases k | linarith

/-! ### The walk along the multiples of an angle -/

theorem sin_side (q : ℕ) {t : ℝ} (h0 : q * Real.pi < t) (h1 : t < (q + 1) * Real.pi) :
    0 < (-1 : ℝ) ^ q * Real.sin t := by
  have hs := Real.sin_sub_nat_mul_pi t q
  rw [← hs]
  exact Real.sin_pos_of_pos_of_lt_pi (by linarith) (by linarith)

theorem sameSide_iff (w : ℤ) (q : ℕ) : sameSide w q = true ↔ 0 < (-1 : ℝ) ^ q * (w : ℝ) := by
  unfold sameSide
  split
  · next h => rw [(Nat.even_iff.mpr h).neg_one_pow]; simp
  · next h => rw [(Nat.odd_iff.mpr (by omega)).neg_one_pow]; simp

/-- What `arcWalk` knows of the `k`-th multiple of `φ`. -/
structure AtMultiple (φ : ℝ) (v : ℤ) (k : ℕ) (prev cur : ℤ) (q : ℕ) : Prop where
  cur_eq : (cur : ℝ) * Real.sin φ = (v : ℝ) ^ k * Real.sin ((k + 1) * φ)
  prev_eq : (v : ℝ) * prev * Real.sin φ = (v : ℝ) ^ k * Real.sin (k * φ)
  low : q * Real.pi ≤ (k + 1) * φ
  high : (k + 1) * φ < (q + 1) * Real.pi

theorem AtMultiple.start {φ : ℝ} (v : ℤ) (h0 : 0 < φ) (h1 : φ < Real.pi) : AtMultiple φ v 0 0 1 0 :=
  ⟨by simp, by simp, by simp; exact h0.le, by simpa using h1⟩

theorem sin_next (x φ : ℝ) : Real.sin (x + 2 * φ) = 2 * Real.cos φ * Real.sin (x + φ) - Real.sin x := by
  have h1 : Real.sin (x + 2 * φ) = Real.sin ((x + φ) + φ) := by ring_nf
  have h2 : Real.sin x = Real.sin ((x + φ) - φ) := by ring_nf
  rw [h1, h2, Real.sin_add, Real.sin_sub]
  ring

theorem AtMultiple.next_eq {φ : ℝ} {u v : ℤ} {k : ℕ} {prev cur : ℤ} {q : ℕ} (hc : (v : ℝ) * Real.cos φ = u)
    (h : AtMultiple φ v k prev cur q) :
    ((2 * u * cur - v * v * prev : ℤ) : ℝ) * Real.sin φ = (v : ℝ) ^ (k + 1) * Real.sin ((k + 1 + 1) * φ) := by
  have hn := sin_next (k * φ) φ
  rw [show (k : ℝ) * φ + 2 * φ = (k + 1 + 1) * φ by ring, show (k : ℝ) * φ + φ = (k + 1) * φ by ring] at hn
  have h1 := h.cur_eq
  have h2 := h.prev_eq
  push_cast
  rw [hn, ← hc]
  calc (2 * ((v : ℝ) * Real.cos φ) * cur - v * v * prev) * Real.sin φ
      = 2 * v * Real.cos φ * (cur * Real.sin φ) - v * (v * prev * Real.sin φ) := by ring
    _ = _ := by rw [h1, h2]; ring

theorem AtMultiple.same_iff {φ : ℝ} {u v : ℤ} {k : ℕ} {prev cur : ℤ} {q : ℕ} (hv : 0 < v) (h0 : 0 < φ)
    (h1 : φ < Real.pi) (hc : (v : ℝ) * Real.cos φ = u) (h : AtMultiple φ v k prev cur q) :
    sameSide (2 * u * cur - v * v * prev) q = true ↔ (k + 1 + 1) * φ < (q + 1) * Real.pi := by
  have hs : 0 < Real.sin φ := Real.sin_pos_of_pos_of_lt_pi h0 h1
  have hvk : (0 : ℝ) < (v : ℝ) ^ (k + 1) := pow_pos (by exact_mod_cast hv) _
  have hn := h.next_eq hc
  have key : 0 < (-1 : ℝ) ^ q * ((2 * u * cur - v * v * prev : ℤ) : ℝ) ↔
      0 < (-1 : ℝ) ^ q * Real.sin ((k + 1 + 1) * φ) := by
    rw [← mul_pos_iff_of_pos_right hs, mul_assoc, hn, mul_left_comm, mul_pos_iff_of_pos_left hvk]
  rw [sameSide_iff, key]
  have hlow := h.low
  constructor
  · intro hp
    by_contra hcon
    rw [not_lt] at hcon
    rcases hcon.eq_or_lt with he | hlt
    · rw [← he] at hp
      have := Real.sin_nat_mul_pi (q + 1)
      push_cast at this
      rw [this] at hp
      simp at hp
    · have hb := sin_side (q + 1) (t := (k + 1 + 1) * φ) (by push_cast; exact hlt)
        (by push_cast; have := h.high; linarith)
      rw [pow_succ] at hb
      linarith
  · intro hlt
    exact sin_side q (by linarith) hlt

theorem AtMultiple.step {φ : ℝ} {u v : ℤ} {k : ℕ} {prev cur : ℤ} {q : ℕ} (hv : 0 < v) (h0 : 0 < φ)
    (h1 : φ < Real.pi) (hc : (v : ℝ) * Real.cos φ = u) (h : AtMultiple φ v k prev cur q) :
    AtMultiple φ v (k + 1) cur (2 * u * cur - v * v * prev)
      (if sameSide (2 * u * cur - v * v * prev) q then q else q + 1) := by
  have hsame := h.same_iff hv h0 h1 hc
  have hprev : (v : ℝ) * cur * Real.sin φ = (v : ℝ) ^ (k + 1) * Real.sin ((k + 1 : ℕ) * φ) := by
    rw [mul_assoc, h.cur_eq]; push_cast; ring
  have hl := h.low
  have hh := h.high
  by_cases hs : sameSide (2 * u * cur - v * v * prev) q = true
  · have hlt := hsame.mp hs
    rw [if_pos hs]
    exact ⟨(h.next_eq hc).trans (by simp), hprev, by push_cast; linarith, by push_cast; linarith⟩
  · have hge : (q + 1) * Real.pi ≤ (k + 1 + 1) * φ := by
      by_contra hcon
      exact hs (hsame.mpr (by linarith))
    rw [if_neg hs]
    exact ⟨(h.next_eq hc).trans (by simp), hprev, by push_cast; linarith, by push_cast; linarith⟩

theorem AtMultiple.walk {φ : ℝ} {u v : ℤ} (hv : 0 < v) (h0 : 0 < φ) (h1 : φ < Real.pi)
    (hc : (v : ℝ) * Real.cos φ = u) (r : ℕ) :
    ∀ {k : ℕ} {prev cur : ℤ} {q : ℕ}, AtMultiple φ v k prev cur q →
      ∃ prev', AtMultiple φ v (k + r) prev' (arcWalk u v r prev cur q).1 (arcWalk u v r prev cur q).2 := by
  induction r with
  | zero => intro k prev cur q h; exact ⟨prev, h⟩
  | succ r ih =>
    intro k prev cur q h
    have hstep := h.step hv h0 h1 hc
    have heq : arcWalk u v (r + 1) prev cur q = arcWalk u v r cur (2 * u * cur - v * v * prev)
        (if sameSide (2 * u * cur - v * v * prev) q then q else q + 1) := by
      rw [arcWalk]; split <;> rfl
    rw [heq, show k + (r + 1) = (k + 1) + r by omega]
    exact ih hstep

/-! ### Comparison with a cosine -/

theorem arcSide_says {φ : ℝ} {u v : ℤ} {j m : ℕ} (hv : 0 < v) (h0 : 0 < φ) (h1 : φ < Real.pi)
    (hc : (v : ℝ) * Real.cos φ = u) (hm : 1 ≤ m) (hj : j ≤ m) :
    Says (arcSide j (arcWalk u v (m - 1) 0 1 0)) (Real.cos (Real.pi * j / m)) (Real.cos φ) := by
  obtain ⟨prev', h⟩ := (AtMultiple.start v h0 h1).walk hv h0 h1 hc (m - 1)
  generalize arcWalk u v (m - 1) 0 1 0 = w at h
  have hm' : ((0 + (m - 1) : ℕ) : ℝ) + 1 = m := by
    have : 0 + (m - 1) + 1 = m := by omega
    exact_mod_cast this
  have hmpos : (0 : ℝ) < m := by exact_mod_cast hm
  have hl := h.low
  have hh := h.high
  have hcur := h.cur_eq
  rw [hm'] at hl hh hcur
  have hpi := Real.pi_pos
  have hmem : Real.pi * j / m ∈ Set.Icc 0 Real.pi := by
    refine ⟨by positivity, ?_⟩
    rw [div_le_iff₀ hmpos]
    have : (j : ℝ) ≤ m := by exact_mod_cast hj
    nlinarith
  have hφmem : φ ∈ Set.Icc 0 Real.pi := ⟨h0.le, h1.le⟩
  have hgt : (j : ℝ) * Real.pi < m * φ → Says .gt (Real.cos (Real.pi * j / m)) (Real.cos φ) := by
    intro hlt
    refine Real.strictAntiOn_cos hmem hφmem ?_
    rw [div_lt_iff₀ hmpos]
    linarith
  unfold arcSide
  split
  · next hlt =>
    apply hgt
    have h2 : (j : ℝ) + 1 ≤ w.2 := by exact_mod_cast hlt
    nlinarith
  · next hnlt =>
    split
    · next heq =>
      have hlow : (j : ℝ) * Real.pi ≤ m * φ := by rw [heq]; exact hl
      have hsin : 0 < Real.sin φ := Real.sin_pos_of_pos_of_lt_pi h0 h1
      have hvk : (0 : ℝ) < (v : ℝ) ^ (0 + (m - 1)) := pow_pos (by exact_mod_cast hv) _
      split
      · next hz =>
        rw [hz] at hcur
        have hs0 : Real.sin (m * φ) = 0 := by
          have : (v : ℝ) ^ (0 + (m - 1)) * Real.sin (m * φ) = 0 := by rw [← hcur]; simp
          rcases mul_eq_zero.mp this with h' | h'
          · exact absurd h' hvk.ne'
          · exact h'
        have : (j : ℝ) * Real.pi = m * φ := by
          by_contra hne
          have hside := sin_side w.2 (t := m * φ) (by rw [← heq]; exact lt_of_le_of_ne hlow hne) hh
          rw [hs0] at hside
          simp at hside
        show Real.cos (Real.pi * j / m) = Real.cos φ
        congr 1
        rw [div_eq_iff hmpos.ne']
        linarith
      · next hnz =>
        apply hgt
        refine lt_of_le_of_ne hlow ?_
        intro he
        apply hnz
        rw [← he, Real.sin_nat_mul_pi] at hcur
        have : (w.1 : ℝ) = 0 := by
          rcases mul_eq_zero.mp (hcur.trans (mul_zero _)) with h' | h'
          · exact h'
          · exact absurd h' hsin.ne'
        exact_mod_cast this
    · next hne =>
      have h2 : (w.2 : ℝ) + 1 ≤ j := by
        have : w.2 + 1 ≤ j := by omega
        exact_mod_cast this
      show Real.cos (Real.pi * j / m) < Real.cos φ
      refine Real.strictAntiOn_cos hφmem hmem ?_
      rw [lt_div_iff₀ hmpos]
      nlinarith

theorem cos_angle_le_one_iff {j m : ℕ} (hm : 1 ≤ m) (hj : j ≤ m) :
    Says (if j = 0 then .eq else .lt) (Real.cos (Real.pi * j / m)) 1 := by
  have hmpos : (0 : ℝ) < m := by exact_mod_cast hm
  split
  · next h => simp [Says, h]
  · next h =>
    have hjpos : (0 : ℝ) < j := by exact_mod_cast Nat.pos_of_ne_zero h
    have hjm : (j : ℝ) ≤ m := by exact_mod_cast hj
    have hpi := Real.pi_pos
    show Real.cos (Real.pi * j / m) < 1
    rw [← Real.cos_zero]
    refine Real.strictAntiOn_cos ⟨le_refl _, hpi.le⟩ ⟨by positivity, ?_⟩ (by positivity)
    rw [div_le_iff₀ hmpos]
    nlinarith

theorem neg_one_le_cos_angle_iff {j m : ℕ} (hm : 1 ≤ m) (hj : j ≤ m) :
    Says (if j = m then .eq else .gt) (Real.cos (Real.pi * j / m)) (-1) := by
  have hmpos : (0 : ℝ) < m := by exact_mod_cast hm
  split
  · next h =>
    show Real.cos (Real.pi * j / m) = -1
    rw [h, mul_div_assoc, div_self hmpos.ne', mul_one, Real.cos_pi]
  · next h =>
    have hjm : (j : ℝ) < m := by exact_mod_cast lt_of_le_of_ne hj h
    have hpi := Real.pi_pos
    show -1 < Real.cos (Real.pi * j / m)
    rw [← Real.cos_pi]
    refine Real.strictAntiOn_cos ⟨by positivity, ?_⟩ ⟨hpi.le, le_refl _⟩ ?_
    · rw [div_le_iff₀ hmpos]; nlinarith
    · rw [div_lt_iff₀ hmpos]; nlinarith

/-- `cosCmp` compares right (R177, R178: "with `π` exact"). -/
theorem cosCmp_says {j m : ℕ} (hm : 1 ≤ m) (hj : j ≤ m) (c : ℚ) :
    Says (cosCmp j m c) (Real.cos (Real.pi * j / m)) c := by
  unfold cosCmp
  split
  · next h1 =>
    have h1' : (1 : ℝ) ≤ c := by exact_mod_cast h1
    have hle := cos_angle_le_one_iff hm hj
    split
    · next h => rw [if_pos h.2] at hle; rw [h.1]; simpa using hle
    · next h =>
      show Real.cos _ < (c : ℝ)
      by_cases hj0 : j = 0
      · have hc1 : c ≠ 1 := fun hc => h ⟨hc, hj0⟩
        have : (1 : ℝ) < c := lt_of_le_of_ne h1' (fun he => hc1 (by exact_mod_cast he.symm))
        exact lt_of_le_of_lt (Real.cos_le_one _) this
      · rw [if_neg hj0] at hle
        exact lt_of_lt_of_le hle h1'
  · next h1 =>
    split
    · next h2 =>
      have h2' : (c : ℝ) ≤ -1 := by exact_mod_cast h2
      have hge := neg_one_le_cos_angle_iff hm hj
      split
      · next h => rw [if_pos h.2] at hge; rw [h.1]; simpa using hge
      · next h =>
        show (c : ℝ) < Real.cos _
        by_cases hjm : j = m
        · have hc1 : c ≠ -1 := fun hc => h ⟨hc, hjm⟩
          have : (c : ℝ) < -1 := lt_of_le_of_ne h2' (fun he => hc1 (by exact_mod_cast he))
          exact lt_of_lt_of_le this (Real.neg_one_le_cos _)
        · rw [if_neg hjm] at hge
          exact lt_of_le_of_lt h2' hge
    · next h2 =>
      have hc1 : (c : ℝ) < 1 := by exact_mod_cast not_le.mp h1
      have hc2 : -1 < (c : ℝ) := by exact_mod_cast not_le.mp h2
      have hcos : Real.cos (Real.arccos c) = c := Real.cos_arccos hc2.le hc1.le
      have := arcSide_says (φ := Real.arccos c) (u := c.num) (v := c.den) (j := j) (m := m)
        (by exact_mod_cast c.den_pos) (Real.arccos_pos.mpr hc1)
        (by
          refine lt_of_le_of_ne (Real.arccos_le_pi _) ?_
          intro he
          rw [he, Real.cos_pi] at hcos
          linarith)
        (by
          rw [hcos]
          have := Rat.mul_den_eq_num c
          have h3 : (c : ℝ) * (c.den : ℝ) = c.num := by exact_mod_cast this
          push_cast
          linarith) hm hj
      rwa [hcos] at this

theorem ratCmp_says (x y : ℚ) : Says (ratCmp x y) x y := by
  unfold ratCmp
  split
  · next h => show (x : ℝ) < y; exact_mod_cast h
  · next h =>
    split
    · next h' => show (x : ℝ) = y; exact_mod_cast h'
    · next h' => show (y : ℝ) < x; exact_mod_cast lt_of_le_of_ne (not_lt.mp h) (Ne.symm h')

/-- A level compares with a rational as its real number does. -/
theorem Level.cmp_says {x : Level} (hx : x.Valid) (r : ℚ) : Says (x.cmp r) x.toReal r := by
  cases x with
  | rat v => exact ratCmp_says v r
  | trig o a j m =>
    obtain ⟨hm, hj⟩ := hx
    simp only [Level.cmp, Level.toReal]
    split
    · next h => simpa [h] using ratCmp_says o r
    · next h =>
      have hcos := cosCmp_says hm hj ((r - o) / a)
      have hcast : (((r - o) / a : ℚ) : ℝ) = ((r : ℝ) - o) / a := by push_cast; ring
      rw [hcast] at hcos
      generalize Real.cos (Real.pi * j / m) = t at hcos
      split
      · next hpos =>
        have ha : (0 : ℝ) < a := by exact_mod_cast hpos
        cases hcc : cosCmp j m ((r - o) / a) <;> rw [hcc] at hcos <;> simp only [Says] at hcos ⊢
        · rw [lt_div_iff₀ ha] at hcos; linarith
        · rw [eq_div_iff ha.ne'] at hcos; linarith
        · rw [div_lt_iff₀ ha] at hcos; linarith
      · next hnpos =>
        have ha : (a : ℝ) < 0 := by
          have : a < 0 := lt_of_le_of_ne (not_lt.mp hnpos) h
          exact_mod_cast this
        cases hcc : cosCmp j m ((r - o) / a) <;> rw [hcc] at hcos <;>
          simp only [Says, Ordering.swap] at hcos ⊢
        · rw [lt_div_iff_of_neg ha] at hcos; linarith
        · rw [eq_div_iff ha.ne] at hcos; linarith
        · rw [div_lt_iff_of_neg ha] at hcos; linarith

theorem Level.atLeast_iff {x : Level} (hx : x.Valid) (r : ℚ) : x.atLeast r = true ↔ (r : ℝ) ≤ x.toReal := by
  have h := (Level.cmp_says hx r).lt_iff
  unfold Level.atLeast
  rw [bne_iff_ne, ne_eq, h, not_lt]

/-! ### Arithmetic on levels -/

@[simp] theorem Level.shift_valid (d : ℚ) (x : Level) : (x.shift d).Valid ↔ x.Valid := by cases x <;> rfl

@[simp] theorem Level.scale_valid (c : ℚ) (x : Level) : (x.scale c).Valid ↔ x.Valid := by cases x <;> rfl

@[simp] theorem Level.toReal_shift (d : ℚ) (x : Level) : (x.shift d).toReal = x.toReal + d := by
  cases x <;> simp [Level.shift, Level.toReal]; ring

@[simp] theorem Level.toReal_scale (c : ℚ) (x : Level) : (x.scale c).toReal = c * x.toReal := by
  cases x <;> simp [Level.scale, Level.toReal]; ring

/-! ### Floor and truncation -/

theorem bisect_spec (p : ℤ → Bool) (k : ℕ) :
    ∀ lo, p lo = true → p (lo + 2 ^ k) = false →
      p (bisect p k lo) = true ∧ p (bisect p k lo + 1) = false := by
  induction k with
  | zero => intro lo h0 h1; exact ⟨h0, by simpa [bisect] using h1⟩
  | succ k ih =>
    intro lo h0 h1
    rw [bisect]
    split
    · next h =>
      refine ih _ h ?_
      rw [show lo + 2 ^ k + 2 ^ k = lo + 2 ^ (k + 1) by ring]
      exact h1
    · next h => exact ih _ h0 (by simpa using h)

theorem abs_trig_lt (o a : ℚ) {t : ℝ} (ht : |t| ≤ 1) : |(o : ℝ) + a * t| < trigBound o a := by
  have h1 : |(o : ℝ) + a * t| ≤ |(o : ℝ)| + |(a : ℝ)| := by
    refine (abs_add_le _ _).trans ?_
    rw [abs_mul]
    have : |(a : ℝ)| * |t| ≤ |(a : ℝ)| * 1 := mul_le_mul_of_nonneg_left ht (abs_nonneg _)
    linarith
  have h2 : |o| + |a| < (trigBound o a : ℚ) := by
    unfold trigBound
    have hnn : 0 ≤ |o| + |a| := by positivity
    have hf : 0 ≤ (|o| + |a|).floor := Int.floor_nonneg.mpr hnn
    have hlt : |o| + |a| < ((|o| + |a|).floor : ℚ) + 1 := Int.lt_floor_add_one (|o| + |a|)
    have hcast : (((|o| + |a|).floor.toNat : ℕ) : ℚ) = ((|o| + |a|).floor : ℚ) := by
      have : (((|o| + |a|).floor.toNat : ℕ) : ℤ) = (|o| + |a|).floor := Int.toNat_of_nonneg hf
      exact_mod_cast this
    push_cast
    rw [hcast]
    exact hlt
  have h3 : |(o : ℝ)| + |(a : ℝ)| < trigBound o a := by exact_mod_cast h2
  linarith

/-- `Level.floor` is the floor of the real number. -/
theorem Level.floor_eq {x : Level} (hx : x.Valid) : x.floor = ⌊x.toReal⌋ := by
  cases x with
  | rat v =>
    simp only [Level.floor, Level.toReal, Rat.floor_cast]
    rfl
  | trig o a j m =>
    simp only [Level.floor]
    have hb := abs_trig_lt o a (Real.abs_cos_le_one (Real.pi * j / m))
    rw [abs_lt] at hb
    have hreal : (Level.trig o a j m).toReal = o + a * Real.cos (Real.pi * j / m) := rfl
    rw [← hreal] at hb
    generalize hB : trigBound o a = B at *
    have hiff : ∀ z : ℤ, (Level.trig o a j m).atLeast z = true ↔ (z : ℝ) ≤ (Level.trig o a j m).toReal := by
      intro z
      rw [Level.atLeast_iff hx]
      norm_cast
    have hspec := bisect_spec (fun z => Level.atLeast z (.trig o a j m))
      (Nat.log2 (2 * B) + 1) (-(B : ℤ))
      ((hiff _).mpr (by push_cast; exact hb.1.le))
      (by
        rw [Bool.eq_false_iff]
        intro hcon
        have := (hiff _).mp hcon
        have hlog : 2 * B < 2 ^ (Nat.log2 (2 * B) + 1) := Nat.lt_log2_self
        have hlog' : (2 : ℝ) * B < 2 ^ (Nat.log2 (2 * B) + 1) := by exact_mod_cast hlog
        push_cast at this
        linarith [hb.2])
    refine (Int.floor_eq_iff.mpr ⟨(hiff _).mp hspec.1, ?_⟩).symm
    have h2 := hspec.2
    rw [Bool.eq_false_iff, ne_eq, hiff] at h2
    push_cast at h2
    linarith

/-- `Level.trunc` truncates toward zero (R9). -/
theorem Level.trunc_eq {x : Level} (hx : x.Valid) : x.trunc = realTrunc x.toReal := by
  unfold Level.trunc realTrunc
  have h := Level.atLeast_iff hx 0
  simp only [Rat.cast_zero] at h
  by_cases h0 : x.atLeast 0 = true
  · rw [if_pos h0, if_pos (h.mp h0), Level.floor_eq hx]
  · rw [if_neg h0, if_neg (fun hh => h0 (h.mpr hh)), Level.floor_eq ((Level.scale_valid _ _).mpr hx)]
    simp [Int.floor_neg]

/-- `Level.nearest` is within one half. -/
theorem Level.abs_sub_nearest_le {x : Level} (hx : x.Valid) : |x.toReal - x.nearest| ≤ 1 / 2 := by
  have h1 : x.nearest = ⌊x.toReal + 1 / 2⌋ := by
    unfold Level.nearest
    rw [Level.floor_eq ((Level.shift_valid _ _).mpr hx), Level.toReal_shift]
    push_cast
    rfl
  have h2 := Int.floor_le (x.toReal + 1 / 2)
  have h3 := Int.lt_floor_add_one (x.toReal + 1 / 2)
  rw [h1, abs_le]
  constructor <;> linarith

/-- The code band of R172 around the nearest integer. -/
theorem Level.inBand_iff {x : Level} (hx : x.Valid) (e : ℚ) :
    x.inBand e = true ↔ |x.toReal - x.nearest| < e := by
  have h1 := (Level.cmp_says hx (x.nearest - e)).gt_iff
  have h2 := (Level.cmp_says hx (x.nearest + e)).lt_iff
  unfold Level.inBand
  rw [Bool.and_eq_true, beq_iff_eq, beq_iff_eq, h1, h2, abs_lt]
  push_cast
  constructor <;> rintro ⟨a, b⟩ <;> constructor <;> linarith

/-! ### The four shapes -/

theorem foldAngle_le {m t : ℕ} (h : t ≤ 2 * m) : foldAngle m t ≤ m := by
  unfold foldAngle; split <;> omega

theorem cos_foldAngle {m t : ℕ} (hm : 1 ≤ m) (h : t ≤ 2 * m) :
    Real.cos (Real.pi * (foldAngle m t : ℕ) / m) = Real.cos (Real.pi * t / m) := by
  unfold foldAngle
  split
  · rfl
  · have hmpos : (m : ℝ) ≠ 0 := by exact_mod_cast (by omega : m ≠ 0)
    rw [Nat.cast_sub h, ← Real.cos_two_pi_sub]
    congr 1
    push_cast
    field_simp
    ring

theorem sineLevel_valid {a o : ℚ} {n i : ℕ} (hi : i < n) : (sineLevel a o n i).Valid :=
  ⟨by omega, foldAngle_le (by omega)⟩

theorem cosineLevel_valid {a o : ℚ} {n i : ℕ} (hi : i < n) : (cosineLevel a o n i).Valid :=
  ⟨by omega, foldAngle_le (by omega)⟩

theorem triangleLevel_valid (a o : ℚ) (n i : ℕ) : (triangleLevel a o n i).Valid := by
  unfold triangleLevel; split <;> trivial

theorem sawtoothLevel_valid (a o : ℚ) (n i : ℕ) : (sawtoothLevel a o n i).Valid := trivial

/-- R177. -/
theorem toReal_sineLevel (a o : ℚ) {n i : ℕ} (hi : i < n) :
    (sineLevel a o n i).toReal = shapeLevel .sine a o n i := by
  simp only [sineLevel, Level.toReal, shapeLevel]
  rw [cos_foldAngle (by omega) (by omega)]
  congr 2
  have hn : (n : ℝ) ≠ 0 := by exact_mod_cast (by omega : n ≠ 0)
  rw [← Real.cos_pi_div_two_sub, ← Real.cos_abs, ← Real.cos_abs (Real.pi / 2 - _)]
  congr 1
  have hk : (((4 * (i : ℤ) - n).natAbs : ℕ) : ℝ) = |4 * (i : ℝ) - n| := by
    rw [Nat.cast_natAbs]; push_cast; rfl
  rw [hk]
  have h1 : Real.pi / 2 - 2 * Real.pi * i / n = -(Real.pi * (4 * i - n) / (2 * n)) := by field_simp; ring
  rw [h1, abs_neg]
  push_cast
  rw [abs_div, abs_mul, abs_abs, abs_div, abs_mul, abs_mul]

/-- R178. -/
theorem toReal_cosineLevel (a o : ℚ) {n i : ℕ} (hi : i < n) :
    (cosineLevel a o n i).toReal = shapeLevel .cosine a o n i := by
  simp only [cosineLevel, Level.toReal, shapeLevel]
  rw [cos_foldAngle (by omega) (by omega)]
  congr 3
  have hn : (n : ℝ) ≠ 0 := by exact_mod_cast (by omega : n ≠ 0)
  push_cast
  field_simp
  ring

/-- R179. -/
theorem toReal_triangleLevel (a o : ℚ) (n i : ℕ) :
    (triangleLevel a o n i).toReal = shapeLevel .triangle a o n i := by
  have hiff : (i : ℝ) < n / 2 ↔ 2 * i < n := by
    rw [lt_div_iff₀ (by norm_num)]
    constructor <;> intro h
    · have : ((i * 2 : ℕ) : ℝ) < n := by push_cast; exact h
      have := Nat.cast_lt.mp this
      omega
    · have : ((i * 2 : ℕ) : ℝ) < n := by exact_mod_cast (by omega)
      push_cast at this; exact this
  simp only [triangleLevel, shapeLevel, hiff]
  split <;> simp [Level.toReal]

/-- R180. -/
theorem toReal_sawtoothLevel (a o : ℚ) (n i : ℕ) :
    (sawtoothLevel a o n i).toReal = shapeLevel .sawtooth a o n i := by
  simp [sawtoothLevel, Level.toReal, shapeLevel]

/-- The rational level of a shape is the shape's level. -/
theorem ratLevel_spec (sh : Shape) (a o : ℚ) {n i : ℕ} (hi : i < n) :
    (ratLevel sh a o n i).Valid ∧ (ratLevel sh a o n i).toReal = shapeLevel sh a o n i := by
  cases sh with
  | sine => exact ⟨sineLevel_valid hi, toReal_sineLevel a o hi⟩
  | cosine => exact ⟨cosineLevel_valid hi, toReal_cosineLevel a o hi⟩
  | triangle => exact ⟨triangleLevel_valid a o n i, toReal_triangleLevel a o n i⟩
  | sawtooth => exact ⟨sawtoothLevel_valid a o n i, toReal_sawtoothLevel a o n i⟩
  | none => exact ⟨trivial, by simp [ratLevel, Level.toReal, shapeLevel]⟩

/-! ### Codes -/

/-- Two integers within one half of a real are at one distance from it. -/
theorem abs_sub_eq_of_near {x : ℝ} {j k : ℤ} (hj : |x - j| ≤ 1 / 2) (hk : |x - k| ≤ 1 / 2) : |x - j| = |x - k| := by
  rw [abs_le] at hj hk
  have h1 : (j : ℝ) - k ≤ 1 := by linarith [hj.1, hk.2]
  have h2 : (-1 : ℝ) ≤ j - k := by linarith [hj.2, hk.1]
  have h1' : j - k ≤ 1 := by exact_mod_cast h1
  have h2' : -1 ≤ j - k := by exact_mod_cast h2
  rcases (show j = k ∨ j = k + 1 ∨ j = k - 1 by omega) with rfl | rfl | rfl
  · rfl
  · push_cast at hj ⊢
    rw [show x - k = 1 / 2 by linarith [hj.1, hk.2], show x - ((k : ℝ) + 1) = -(1 / 2) by linarith [hj.1, hk.2], abs_neg]
  · push_cast at hj ⊢
    rw [show x - k = -(1 / 2) by linarith [hj.2, hk.1], show x - ((k : ℝ) - 1) = 1 / 2 by linarith [hj.2, hk.1], abs_neg]

/-- `levelCode` is `code` of R172 of the level's real number. -/
theorem levelCode_eq (up : Bool) {v : Level} (hv : v.Valid) : levelCode up v = realCode up v.toReal := by
  have hx : (v.scale Config.scale).Valid := (Level.scale_valid _ _).mpr hv
  have hs : (v.scale Config.scale).toReal = scaled v.toReal := by
    rw [Level.toReal_scale, scaled, Config.scale]
    push_cast
    ring
  have he : ((Config.numEps : ℚ) : ℝ) = eps := by
    rw [Config.numEps, eps]
    norm_num
  have hband := Level.inBand_iff hx Config.numEps
  rw [hs, he, abs_sub_eq_of_near (hs ▸ Level.abs_sub_nearest_le hx) (abs_sub_round (scaled v.toReal))] at hband
  unfold levelCode Level.code realCode
  by_cases hb : (v.scale Config.scale).inBand Config.numEps = true
  · rw [if_pos hb, if_neg (not_le.mpr (hband.mp hb))]
    rw [Level.trunc_eq ((Level.shift_valid _ _).mpr hx), Level.trunc_eq ((Level.shift_valid _ _).mpr hx),
      Level.toReal_shift, Level.toReal_shift, hs, Rat.cast_neg, he, sub_eq_add_neg]
  · rw [if_neg hb, if_pos (not_lt.mp fun h => hb (hband.mpr h)), Level.trunc_eq hx, hs]

/-- The rational that a number is, if it is evaluated as one. -/
theorem toReal_of_ratOf {P : Params} {x : Number} {q : ℚ} (h : ratOf P x = some q) : P.toReal x = q := by
  cases x with
  | rat r => cases h; rfl
  | named k =>
    simp only [ratOf] at h
    split at h
    · cases h
    · next hr => cases h; simp [Params.toReal, Number.toReal, Params.named, hr]

/-- A wanted level that is evaluated is the level wanted. -/
theorem levelOf_spec {P : Params} {w : Wanted} {v : Level} (hw : w.Ok) (h : levelOf P w = some v) :
    v.Valid ∧ v.toReal = w.toReal P.named := by
  cases w with
  | dc o =>
    simp only [levelOf, Option.map_eq_some_iff] at h
    obtain ⟨q, hq, rfl⟩ := h
    exact ⟨trivial, (toReal_of_ratOf hq).symm⟩
  | wave sh a o n i =>
    simp only [levelOf] at h
    split at h
    · next qa qo ha ho =>
      cases h
      have := ratLevel_spec sh qa qo (n := n) (i := i) hw
      refine ⟨this.1, this.2.trans ?_⟩
      show _ = shapeLevel sh (P.toReal a) (P.toReal o) n i
      rw [toReal_of_ratOf ha, toReal_of_ratOf ho]
    · cases h

/-- Without named reals every level is evaluated. -/
theorem levelOf_isSome {P : Params} (h : P.reals = none) (w : Wanted) : ∃ v, levelOf P w = some v := by
  have hr : ∀ x, ∃ q, ratOf P x = some q := by
    intro x
    cases x with
    | rat q => exact ⟨q, rfl⟩
    | named k => exact ⟨0, by simp [ratOf, h]⟩
  cases w with
  | dc o => obtain ⟨q, hq⟩ := hr o; exact ⟨.rat q, by simp [levelOf, hq]⟩
  | wave sh a o n i =>
    obtain ⟨qa, ha⟩ := hr a
    obtain ⟨qo, ho⟩ := hr o
    exact ⟨ratLevel sh qa qo n i, by simp [levelOf, ha, ho]⟩

/-- The machine's code is `code` of R172 over the reals, whatever reals the amplitude and the offset are. -/
theorem dacCode_eq (P : Params) (up : Bool) {w : Wanted} (hw : w.Ok) :
    dacCode P up w = realCode up (w.toReal P.named) := by
  unfold dacCode
  cases hl : levelOf P w with
  | some v =>
    obtain ⟨hv, hr⟩ := levelOf_spec hw hl
    rw [← hr]
    exact levelCode_eq up hv
  | none =>
    cases hreals : P.reals with
    | some r =>
      have : P.named = r.value := by funext k; simp [Params.named, hreals]
      simpa [this] using r.code_eq up w
    | none =>
      obtain ⟨v, hv⟩ := levelOf_isSome hreals w
      rw [hv] at hl
      cases hl

/-- The machine's decision of R171. -/
theorem isZero_iff (P : Params) (x : Number) : P.isZero x = true ↔ P.toReal x = 0 := by
  cases x with
  | rat q => simp [Params.isZero, Params.toReal, Number.toReal]
  | named k =>
    cases hr : P.reals with
    | some r => simpa [Params.isZero, Params.toReal, Number.toReal, Params.named, hr] using r.isZero_iff k
    | none => simp [Params.isZero, Params.toReal, Number.toReal, Params.named, hr]

/-- What R172 allows, as a relation: `code` with either draw. -/
theorem realCode_isCode (up : Bool) (v : ℝ) : Safety.IsCode v (realCode up v) := by
  intro k hk
  have heq := abs_sub_eq_of_near hk (abs_sub_round (scaled v))
  unfold realCode
  constructor
  · intro h
    rw [if_pos (heq ▸ h)]
  · intro h
    rw [if_neg (not_le.mpr (heq ▸ h))]
    cases up
    · exact .inl rfl
    · exact .inr rfl

/-! ### Every calibration is one of some block (log 1) -/

open Classical in
/-- Any sequence of reals can be the named reals of a block. -/
noncomputable def namedReals (value : ℕ → ℝ) : NamedReals where
  value := value
  isZero k := decide (value k = 0)
  isZero_iff _ := decide_eq_true_iff
  code up w := realCode up (w.toReal value)
  code_eq _ _ := rfl

/-- Where a channel's constant stands among the named reals. -/
def nameOf (kind : ℕ) (ch : Channel) (r : ℕ) : ℕ := Nat.pair (Nat.pair kind (if ch = .one then 0 else 1)) r

/-- For all real-valued calibrations and biases, and all the other parameters, there is a block that has them: `Params`
excludes no value that R7 leaves open. -/
theorem every_calibration (calAmp calOff : Channel → ℕ → ℝ) (bias : Channel → ℝ) (P : Params) :
    ∃ Q : Params, (∀ ch r, Q.toReal (Q.calAmp ch r) = calAmp ch r) ∧ (∀ ch r, Q.toReal (Q.calOff ch r) = calOff ch r) ∧
      (∀ ch, Q.toReal (Q.bias ch) = bias ch) ∧ Q.streamEndian = P.streamEndian ∧ Q.synNMax = P.synNMax ∧
      Q.dacTmrMax = P.dacTmrMax ∧ Q.adcTmrMax = P.adcTmrMax := by
  let chan : ℕ → Channel := fun c => if c = 0 then .one else .two
  have hchan : ∀ ch : Channel, chan (if ch = .one then 0 else 1) = ch := by intro ch; cases ch <;> rfl
  let value : ℕ → ℝ := fun k =>
    match k.unpair.1.unpair.1 with
    | 0 => calAmp (chan k.unpair.1.unpair.2) k.unpair.2
    | 1 => calOff (chan k.unpair.1.unpair.2) k.unpair.2
    | _ => bias (chan k.unpair.1.unpair.2)
  refine ⟨{ P with
    reals := some (namedReals value)
    calAmp := fun ch r => .named (nameOf 0 ch r)
    calOff := fun ch r => .named (nameOf 1 ch r)
    bias := fun ch => .named (nameOf 2 ch 0) }, ?_, ?_, ?_, rfl, rfl, rfl, rfl⟩ <;> intros <;>
    simp [Params.toReal, Number.toReal, Params.named, namedReals, nameOf, value, hchan]

end Sys2Proof.Machine
end

