-- ==== Sys2Proof/Laws/State.lean ====
section
/-! SUPPORT. What each update of the state writes and leaves, one lemma per field; what a pair holds after one of its
elements is replaced. -/

namespace Sys2Proof

section PerChannel

variable {α : Type} (p : PerChannel α) (v w : α)

@[simp] theorem PerChannel.get_set_self (ch : Channel) : (p.set ch v).get ch = v := by cases ch <;> rfl

@[simp] theorem PerChannel.get_set_other (ch : Channel) : (p.set ch v).get ch.other = p.get ch.other := by
  cases ch <;> rfl

theorem PerChannel.get_set_ne {ch ch' : Channel} (h : ch' ≠ ch) : (p.set ch v).get ch' = p.get ch' := by
  cases ch <;> cases ch' <;> first | rfl | exact absurd rfl h

@[simp] theorem PerChannel.set_set (ch : Channel) : (p.set ch v).set ch w = p.set ch w := by cases ch <;> rfl

@[simp] theorem PerChannel.set_get (ch : Channel) : p.set ch (p.get ch) = p := by cases ch <;> rfl

theorem Channel.eq_or_other (ch ch' : Channel) : ch' = ch ∨ ch' = ch.other := by
  cases ch <;> cases ch' <;> simp [Channel.other]

end PerChannel

namespace Machine.State

variable (s : State)

@[simp] theorem setWave_wave (ch : Channel) (r : GenReg) : (s.setWave ch r).wave = s.wave.set ch r := rfl
@[simp] theorem setWave_afe (ch : Channel) (r : GenReg) : (s.setWave ch r).afe = s.afe := rfl
@[simp] theorem setWave_pb (ch : Channel) (r : GenReg) : (s.setWave ch r).pb = s.pb := rfl
@[simp] theorem setWave_dac (ch : Channel) (r : GenReg) : (s.setWave ch r).dac = s.dac := rfl
@[simp] theorem setWave_rearm (ch : Channel) (r : GenReg) : (s.setWave ch r).rearm = s.rearm := rfl
@[simp] theorem setWave_capA (ch : Channel) (r : GenReg) : (s.setWave ch r).capA = s.capA := rfl
@[simp] theorem setWave_capB (ch : Channel) (r : GenReg) : (s.setWave ch r).capB = s.capB := rfl
@[simp] theorem setWave_cap (ch : Channel) (r : GenReg) : (s.setWave ch r).cap = s.cap := rfl
@[simp] theorem setWave_seq (ch : Channel) (r : GenReg) : (s.setWave ch r).seq = s.seq := rfl
@[simp] theorem setWave_fault (ch : Channel) (r : GenReg) : (s.setWave ch r).fault = s.fault := rfl
@[simp] theorem setWave_lastErr (ch : Channel) (r : GenReg) : (s.setWave ch r).lastErr = s.lastErr := rfl
@[simp] theorem setWave_rxq (ch : Channel) (r : GenReg) : (s.setWave ch r).rxq = s.rxq := rfl
@[simp] theorem setWave_tx (ch : Channel) (r : GenReg) : (s.setWave ch r).tx = s.tx := rfl
@[simp] theorem setWave_afeLog (ch : Channel) (r : GenReg) : (s.setWave ch r).afeLog = s.afeLog := rfl
@[simp] theorem setWave_supplyLog (ch : Channel) (r : GenReg) : (s.setWave ch r).supplyLog = s.supplyLog := rfl
@[simp] theorem setWave_env (ch : Channel) (r : GenReg) : (s.setWave ch r).env = s.env := rfl

@[simp] theorem setAfe_wave (ch : Channel) (c : AfeCfg) : (s.setAfe ch c).wave = s.wave := rfl
@[simp] theorem setAfe_afe (ch : Channel) (c : AfeCfg) : (s.setAfe ch c).afe = s.afe.set ch c := rfl
@[simp] theorem setAfe_pb (ch : Channel) (c : AfeCfg) : (s.setAfe ch c).pb = s.pb := rfl
@[simp] theorem setAfe_dac (ch : Channel) (c : AfeCfg) : (s.setAfe ch c).dac = s.dac := rfl
@[simp] theorem setAfe_rearm (ch : Channel) (c : AfeCfg) : (s.setAfe ch c).rearm = s.rearm := rfl
@[simp] theorem setAfe_capA (ch : Channel) (c : AfeCfg) : (s.setAfe ch c).capA = s.capA := rfl
@[simp] theorem setAfe_capB (ch : Channel) (c : AfeCfg) : (s.setAfe ch c).capB = s.capB := rfl
@[simp] theorem setAfe_cap (ch : Channel) (c : AfeCfg) : (s.setAfe ch c).cap = s.cap := rfl
@[simp] theorem setAfe_seq (ch : Channel) (c : AfeCfg) : (s.setAfe ch c).seq = s.seq := rfl
@[simp] theorem setAfe_fault (ch : Channel) (c : AfeCfg) : (s.setAfe ch c).fault = s.fault := rfl
@[simp] theorem setAfe_lastErr (ch : Channel) (c : AfeCfg) : (s.setAfe ch c).lastErr = s.lastErr := rfl
@[simp] theorem setAfe_rxq (ch : Channel) (c : AfeCfg) : (s.setAfe ch c).rxq = s.rxq := rfl
@[simp] theorem setAfe_tx (ch : Channel) (c : AfeCfg) : (s.setAfe ch c).tx = s.tx := rfl
@[simp] theorem setAfe_afeLog (ch : Channel) (c : AfeCfg) : (s.setAfe ch c).afeLog = s.afeLog := rfl
@[simp] theorem setAfe_supplyLog (ch : Channel) (c : AfeCfg) : (s.setAfe ch c).supplyLog = s.supplyLog := rfl
@[simp] theorem setAfe_env (ch : Channel) (c : AfeCfg) : (s.setAfe ch c).env = s.env := rfl

@[simp] theorem setPb_wave (ch : Channel) (p : Playback) : (s.setPb ch p).wave = s.wave := rfl
@[simp] theorem setPb_afe (ch : Channel) (p : Playback) : (s.setPb ch p).afe = s.afe := rfl
@[simp] theorem setPb_pb (ch : Channel) (p : Playback) : (s.setPb ch p).pb = s.pb.set ch p := rfl
@[simp] theorem setPb_dac (ch : Channel) (p : Playback) : (s.setPb ch p).dac = s.dac := rfl
@[simp] theorem setPb_rearm (ch : Channel) (p : Playback) : (s.setPb ch p).rearm = s.rearm := rfl
@[simp] theorem setPb_capA (ch : Channel) (p : Playback) : (s.setPb ch p).capA = s.capA := rfl
@[simp] theorem setPb_capB (ch : Channel) (p : Playback) : (s.setPb ch p).capB = s.capB := rfl
@[simp] theorem setPb_cap (ch : Channel) (p : Playback) : (s.setPb ch p).cap = s.cap := rfl
@[simp] theorem setPb_seq (ch : Channel) (p : Playback) : (s.setPb ch p).seq = s.seq := rfl
@[simp] theorem setPb_fault (ch : Channel) (p : Playback) : (s.setPb ch p).fault = s.fault := rfl
@[simp] theorem setPb_lastErr (ch : Channel) (p : Playback) : (s.setPb ch p).lastErr = s.lastErr := rfl
@[simp] theorem setPb_rxq (ch : Channel) (p : Playback) : (s.setPb ch p).rxq = s.rxq := rfl
@[simp] theorem setPb_tx (ch : Channel) (p : Playback) : (s.setPb ch p).tx = s.tx := rfl
@[simp] theorem setPb_afeLog (ch : Channel) (p : Playback) : (s.setPb ch p).afeLog = s.afeLog := rfl
@[simp] theorem setPb_supplyLog (ch : Channel) (p : Playback) : (s.setPb ch p).supplyLog = s.supplyLog := rfl
@[simp] theorem setPb_env (ch : Channel) (p : Playback) : (s.setPb ch p).env = s.env := rfl

@[simp] theorem setDac_wave (ch : Channel) (c : Code) : (s.setDac ch c).wave = s.wave := rfl
@[simp] theorem setDac_afe (ch : Channel) (c : Code) : (s.setDac ch c).afe = s.afe := rfl
@[simp] theorem setDac_pb (ch : Channel) (c : Code) : (s.setDac ch c).pb = s.pb := rfl
@[simp] theorem setDac_dac (ch : Channel) (c : Code) : (s.setDac ch c).dac = s.dac.set ch (some c) := rfl
@[simp] theorem setDac_rearm (ch : Channel) (c : Code) : (s.setDac ch c).rearm = s.rearm := rfl
@[simp] theorem setDac_capA (ch : Channel) (c : Code) : (s.setDac ch c).capA = s.capA := rfl
@[simp] theorem setDac_capB (ch : Channel) (c : Code) : (s.setDac ch c).capB = s.capB := rfl
@[simp] theorem setDac_cap (ch : Channel) (c : Code) : (s.setDac ch c).cap = s.cap := rfl
@[simp] theorem setDac_seq (ch : Channel) (c : Code) : (s.setDac ch c).seq = s.seq := rfl
@[simp] theorem setDac_fault (ch : Channel) (c : Code) : (s.setDac ch c).fault = s.fault := rfl
@[simp] theorem setDac_lastErr (ch : Channel) (c : Code) : (s.setDac ch c).lastErr = s.lastErr := rfl
@[simp] theorem setDac_rxq (ch : Channel) (c : Code) : (s.setDac ch c).rxq = s.rxq := rfl
@[simp] theorem setDac_tx (ch : Channel) (c : Code) : (s.setDac ch c).tx = s.tx := rfl
@[simp] theorem setDac_afeLog (ch : Channel) (c : Code) : (s.setDac ch c).afeLog = s.afeLog := rfl
@[simp] theorem setDac_supplyLog (ch : Channel) (c : Code) : (s.setDac ch c).supplyLog = s.supplyLog := rfl
@[simp] theorem setDac_env (ch : Channel) (c : Code) : (s.setDac ch c).env = s.env := rfl

@[simp] theorem setRearm_wave (b : Bool) : (s.setRearm b).wave = s.wave := rfl
@[simp] theorem setRearm_afe (b : Bool) : (s.setRearm b).afe = s.afe := rfl
@[simp] theorem setRearm_pb (b : Bool) : (s.setRearm b).pb = s.pb := rfl
@[simp] theorem setRearm_dac (b : Bool) : (s.setRearm b).dac = s.dac := rfl
@[simp] theorem setRearm_rearm (b : Bool) : (s.setRearm b).rearm = b := rfl
@[simp] theorem setRearm_capA (b : Bool) : (s.setRearm b).capA = s.capA := rfl
@[simp] theorem setRearm_capB (b : Bool) : (s.setRearm b).capB = s.capB := rfl
@[simp] theorem setRearm_cap (b : Bool) : (s.setRearm b).cap = s.cap := rfl
@[simp] theorem setRearm_seq (b : Bool) : (s.setRearm b).seq = s.seq := rfl
@[simp] theorem setRearm_fault (b : Bool) : (s.setRearm b).fault = s.fault := rfl
@[simp] theorem setRearm_lastErr (b : Bool) : (s.setRearm b).lastErr = s.lastErr := rfl
@[simp] theorem setRearm_rxq (b : Bool) : (s.setRearm b).rxq = s.rxq := rfl
@[simp] theorem setRearm_tx (b : Bool) : (s.setRearm b).tx = s.tx := rfl
@[simp] theorem setRearm_afeLog (b : Bool) : (s.setRearm b).afeLog = s.afeLog := rfl
@[simp] theorem setRearm_supplyLog (b : Bool) : (s.setRearm b).supplyLog = s.supplyLog := rfl
@[simp] theorem setRearm_env (b : Bool) : (s.setRearm b).env = s.env := rfl

@[simp] theorem setSample_wave (k : Nat) (h : k < Config.bufSize) (a b : Sample) : (s.setSample k h a b).wave = s.wave := rfl
@[simp] theorem setSample_afe (k : Nat) (h : k < Config.bufSize) (a b : Sample) : (s.setSample k h a b).afe = s.afe := rfl
@[simp] theorem setSample_pb (k : Nat) (h : k < Config.bufSize) (a b : Sample) : (s.setSample k h a b).pb = s.pb := rfl
@[simp] theorem setSample_dac (k : Nat) (h : k < Config.bufSize) (a b : Sample) : (s.setSample k h a b).dac = s.dac := rfl
@[simp] theorem setSample_rearm (k : Nat) (h : k < Config.bufSize) (a b : Sample) : (s.setSample k h a b).rearm = s.rearm := rfl
@[simp] theorem setSample_capA (k : Nat) (h : k < Config.bufSize) (a b : Sample) : (s.setSample k h a b).capA = s.capA.set k a := rfl
@[simp] theorem setSample_capB (k : Nat) (h : k < Config.bufSize) (a b : Sample) : (s.setSample k h a b).capB = s.capB.set k b := rfl
@[simp] theorem setSample_cap (k : Nat) (h : k < Config.bufSize) (a b : Sample) : (s.setSample k h a b).cap = s.cap := rfl
@[simp] theorem setSample_seq (k : Nat) (h : k < Config.bufSize) (a b : Sample) : (s.setSample k h a b).seq = s.seq := rfl
@[simp] theorem setSample_fault (k : Nat) (h : k < Config.bufSize) (a b : Sample) : (s.setSample k h a b).fault = s.fault := rfl
@[simp] theorem setSample_lastErr (k : Nat) (h : k < Config.bufSize) (a b : Sample) : (s.setSample k h a b).lastErr = s.lastErr := rfl
@[simp] theorem setSample_rxq (k : Nat) (h : k < Config.bufSize) (a b : Sample) : (s.setSample k h a b).rxq = s.rxq := rfl
@[simp] theorem setSample_tx (k : Nat) (h : k < Config.bufSize) (a b : Sample) : (s.setSample k h a b).tx = s.tx := rfl
@[simp] theorem setSample_afeLog (k : Nat) (h : k < Config.bufSize) (a b : Sample) : (s.setSample k h a b).afeLog = s.afeLog := rfl
@[simp] theorem setSample_supplyLog (k : Nat) (h : k < Config.bufSize) (a b : Sample) : (s.setSample k h a b).supplyLog = s.supplyLog := rfl
@[simp] theorem setSample_env (k : Nat) (h : k < Config.bufSize) (a b : Sample) : (s.setSample k h a b).env = s.env := rfl

@[simp] theorem setCap_wave (c : Capture) : (s.setCap c).wave = s.wave := rfl
@[simp] theorem setCap_afe (c : Capture) : (s.setCap c).afe = s.afe := rfl
@[simp] theorem setCap_pb (c : Capture) : (s.setCap c).pb = s.pb := rfl
@[simp] theorem setCap_dac (c : Capture) : (s.setCap c).dac = s.dac := rfl
@[simp] theorem setCap_rearm (c : Capture) : (s.setCap c).rearm = s.rearm := rfl
@[simp] theorem setCap_capA (c : Capture) : (s.setCap c).capA = s.capA := rfl
@[simp] theorem setCap_capB (c : Capture) : (s.setCap c).capB = s.capB := rfl
@[simp] theorem setCap_cap (c : Capture) : (s.setCap c).cap = c := rfl
@[simp] theorem setCap_seq (c : Capture) : (s.setCap c).seq = s.seq := rfl
@[simp] theorem setCap_fault (c : Capture) : (s.setCap c).fault = s.fault := rfl
@[simp] theorem setCap_lastErr (c : Capture) : (s.setCap c).lastErr = s.lastErr := rfl
@[simp] theorem setCap_rxq (c : Capture) : (s.setCap c).rxq = s.rxq := rfl
@[simp] theorem setCap_tx (c : Capture) : (s.setCap c).tx = s.tx := rfl
@[simp] theorem setCap_afeLog (c : Capture) : (s.setCap c).afeLog = s.afeLog := rfl
@[simp] theorem setCap_supplyLog (c : Capture) : (s.setCap c).supplyLog = s.supplyLog := rfl
@[simp] theorem setCap_env (c : Capture) : (s.setCap c).env = s.env := rfl

@[simp] theorem setSeq_wave (q : Seq) : (s.setSeq q).wave = s.wave := rfl
@[simp] theorem setSeq_afe (q : Seq) : (s.setSeq q).afe = s.afe := rfl
@[simp] theorem setSeq_pb (q : Seq) : (s.setSeq q).pb = s.pb := rfl
@[simp] theorem setSeq_dac (q : Seq) : (s.setSeq q).dac = s.dac := rfl
@[simp] theorem setSeq_rearm (q : Seq) : (s.setSeq q).rearm = s.rearm := rfl
@[simp] theorem setSeq_capA (q : Seq) : (s.setSeq q).capA = s.capA := rfl
@[simp] theorem setSeq_capB (q : Seq) : (s.setSeq q).capB = s.capB := rfl
@[simp] theorem setSeq_cap (q : Seq) : (s.setSeq q).cap = s.cap := rfl
@[simp] theorem setSeq_seq (q : Seq) : (s.setSeq q).seq = q := rfl
@[simp] theorem setSeq_fault (q : Seq) : (s.setSeq q).fault = s.fault := rfl
@[simp] theorem setSeq_lastErr (q : Seq) : (s.setSeq q).lastErr = s.lastErr := rfl
@[simp] theorem setSeq_rxq (q : Seq) : (s.setSeq q).rxq = s.rxq := rfl
@[simp] theorem setSeq_tx (q : Seq) : (s.setSeq q).tx = s.tx := rfl
@[simp] theorem setSeq_afeLog (q : Seq) : (s.setSeq q).afeLog = s.afeLog := rfl
@[simp] theorem setSeq_supplyLog (q : Seq) : (s.setSeq q).supplyLog = s.supplyLog := rfl
@[simp] theorem setSeq_env (q : Seq) : (s.setSeq q).env = s.env := rfl

@[simp] theorem setFault_wave (f : FaultRecord) : (s.setFault f).wave = s.wave := rfl
@[simp] theorem setFault_afe (f : FaultRecord) : (s.setFault f).afe = s.afe := rfl
@[simp] theorem setFault_pb (f : FaultRecord) : (s.setFault f).pb = s.pb := rfl
@[simp] theorem setFault_dac (f : FaultRecord) : (s.setFault f).dac = s.dac := rfl
@[simp] theorem setFault_rearm (f : FaultRecord) : (s.setFault f).rearm = s.rearm := rfl
@[simp] theorem setFault_capA (f : FaultRecord) : (s.setFault f).capA = s.capA := rfl
@[simp] theorem setFault_capB (f : FaultRecord) : (s.setFault f).capB = s.capB := rfl
@[simp] theorem setFault_cap (f : FaultRecord) : (s.setFault f).cap = s.cap := rfl
@[simp] theorem setFault_seq (f : FaultRecord) : (s.setFault f).seq = s.seq := rfl
@[simp] theorem setFault_fault (f : FaultRecord) : (s.setFault f).fault = some f := rfl
@[simp] theorem setFault_lastErr (f : FaultRecord) : (s.setFault f).lastErr = s.lastErr := rfl
@[simp] theorem setFault_rxq (f : FaultRecord) : (s.setFault f).rxq = s.rxq := rfl
@[simp] theorem setFault_tx (f : FaultRecord) : (s.setFault f).tx = s.tx := rfl
@[simp] theorem setFault_afeLog (f : FaultRecord) : (s.setFault f).afeLog = s.afeLog := rfl
@[simp] theorem setFault_supplyLog (f : FaultRecord) : (s.setFault f).supplyLog = s.supplyLog := rfl
@[simp] theorem setFault_env (f : FaultRecord) : (s.setFault f).env = s.env := rfl

@[simp] theorem setLastErr_wave (e : Option NoOpCode) : (s.setLastErr e).wave = s.wave := rfl
@[simp] theorem setLastErr_afe (e : Option NoOpCode) : (s.setLastErr e).afe = s.afe := rfl
@[simp] theorem setLastErr_pb (e : Option NoOpCode) : (s.setLastErr e).pb = s.pb := rfl
@[simp] theorem setLastErr_dac (e : Option NoOpCode) : (s.setLastErr e).dac = s.dac := rfl
@[simp] theorem setLastErr_rearm (e : Option NoOpCode) : (s.setLastErr e).rearm = s.rearm := rfl
@[simp] theorem setLastErr_capA (e : Option NoOpCode) : (s.setLastErr e).capA = s.capA := rfl
@[simp] theorem setLastErr_capB (e : Option NoOpCode) : (s.setLastErr e).capB = s.capB := rfl
@[simp] theorem setLastErr_cap (e : Option NoOpCode) : (s.setLastErr e).cap = s.cap := rfl
@[simp] theorem setLastErr_seq (e : Option NoOpCode) : (s.setLastErr e).seq = s.seq := rfl
@[simp] theorem setLastErr_fault (e : Option NoOpCode) : (s.setLastErr e).fault = s.fault := rfl
@[simp] theorem setLastErr_lastErr (e : Option NoOpCode) : (s.setLastErr e).lastErr = e := rfl
@[simp] theorem setLastErr_rxq (e : Option NoOpCode) : (s.setLastErr e).rxq = s.rxq := rfl
@[simp] theorem setLastErr_tx (e : Option NoOpCode) : (s.setLastErr e).tx = s.tx := rfl
@[simp] theorem setLastErr_afeLog (e : Option NoOpCode) : (s.setLastErr e).afeLog = s.afeLog := rfl
@[simp] theorem setLastErr_supplyLog (e : Option NoOpCode) : (s.setLastErr e).supplyLog = s.supplyLog := rfl
@[simp] theorem setLastErr_env (e : Option NoOpCode) : (s.setLastErr e).env = s.env := rfl

@[simp] theorem setRxq_wave (q : List (List Byte)) : (s.setRxq q).wave = s.wave := rfl
@[simp] theorem setRxq_afe (q : List (List Byte)) : (s.setRxq q).afe = s.afe := rfl
@[simp] theorem setRxq_pb (q : List (List Byte)) : (s.setRxq q).pb = s.pb := rfl
@[simp] theorem setRxq_dac (q : List (List Byte)) : (s.setRxq q).dac = s.dac := rfl
@[simp] theorem setRxq_rearm (q : List (List Byte)) : (s.setRxq q).rearm = s.rearm := rfl
@[simp] theorem setRxq_capA (q : List (List Byte)) : (s.setRxq q).capA = s.capA := rfl
@[simp] theorem setRxq_capB (q : List (List Byte)) : (s.setRxq q).capB = s.capB := rfl
@[simp] theorem setRxq_cap (q : List (List Byte)) : (s.setRxq q).cap = s.cap := rfl
@[simp] theorem setRxq_seq (q : List (List Byte)) : (s.setRxq q).seq = s.seq := rfl
@[simp] theorem setRxq_fault (q : List (List Byte)) : (s.setRxq q).fault = s.fault := rfl
@[simp] theorem setRxq_lastErr (q : List (List Byte)) : (s.setRxq q).lastErr = s.lastErr := rfl
@[simp] theorem setRxq_rxq (q : List (List Byte)) : (s.setRxq q).rxq = q := rfl
@[simp] theorem setRxq_tx (q : List (List Byte)) : (s.setRxq q).tx = s.tx := rfl
@[simp] theorem setRxq_afeLog (q : List (List Byte)) : (s.setRxq q).afeLog = s.afeLog := rfl
@[simp] theorem setRxq_supplyLog (q : List (List Byte)) : (s.setRxq q).supplyLog = s.supplyLog := rfl
@[simp] theorem setRxq_env (q : List (List Byte)) : (s.setRxq q).env = s.env := rfl

@[simp] theorem send_wave (b : Byte) : (s.send b).wave = s.wave := rfl
@[simp] theorem send_afe (b : Byte) : (s.send b).afe = s.afe := rfl
@[simp] theorem send_pb (b : Byte) : (s.send b).pb = s.pb := rfl
@[simp] theorem send_dac (b : Byte) : (s.send b).dac = s.dac := rfl
@[simp] theorem send_rearm (b : Byte) : (s.send b).rearm = s.rearm := rfl
@[simp] theorem send_capA (b : Byte) : (s.send b).capA = s.capA := rfl
@[simp] theorem send_capB (b : Byte) : (s.send b).capB = s.capB := rfl
@[simp] theorem send_cap (b : Byte) : (s.send b).cap = s.cap := rfl
@[simp] theorem send_seq (b : Byte) : (s.send b).seq = s.seq := rfl
@[simp] theorem send_fault (b : Byte) : (s.send b).fault = s.fault := rfl
@[simp] theorem send_lastErr (b : Byte) : (s.send b).lastErr = s.lastErr := rfl
@[simp] theorem send_rxq (b : Byte) : (s.send b).rxq = s.rxq := rfl
@[simp] theorem send_tx (b : Byte) : (s.send b).tx = s.tx ++ [b] := rfl
@[simp] theorem send_afeLog (b : Byte) : (s.send b).afeLog = s.afeLog := rfl
@[simp] theorem send_supplyLog (b : Byte) : (s.send b).supplyLog = s.supplyLog := rfl
@[simp] theorem send_env (b : Byte) : (s.send b).env = s.env := rfl

@[simp] theorem logAfe_wave (e : AfeEvent) : (s.logAfe e).wave = s.wave := rfl
@[simp] theorem logAfe_afe (e : AfeEvent) : (s.logAfe e).afe = s.afe := rfl
@[simp] theorem logAfe_pb (e : AfeEvent) : (s.logAfe e).pb = s.pb := rfl
@[simp] theorem logAfe_dac (e : AfeEvent) : (s.logAfe e).dac = s.dac := rfl
@[simp] theorem logAfe_rearm (e : AfeEvent) : (s.logAfe e).rearm = s.rearm := rfl
@[simp] theorem logAfe_capA (e : AfeEvent) : (s.logAfe e).capA = s.capA := rfl
@[simp] theorem logAfe_capB (e : AfeEvent) : (s.logAfe e).capB = s.capB := rfl
@[simp] theorem logAfe_cap (e : AfeEvent) : (s.logAfe e).cap = s.cap := rfl
@[simp] theorem logAfe_seq (e : AfeEvent) : (s.logAfe e).seq = s.seq := rfl
@[simp] theorem logAfe_fault (e : AfeEvent) : (s.logAfe e).fault = s.fault := rfl
@[simp] theorem logAfe_lastErr (e : AfeEvent) : (s.logAfe e).lastErr = s.lastErr := rfl
@[simp] theorem logAfe_rxq (e : AfeEvent) : (s.logAfe e).rxq = s.rxq := rfl
@[simp] theorem logAfe_tx (e : AfeEvent) : (s.logAfe e).tx = s.tx := rfl
@[simp] theorem logAfe_afeLog (e : AfeEvent) : (s.logAfe e).afeLog = s.afeLog ++ [e] := rfl
@[simp] theorem logAfe_supplyLog (e : AfeEvent) : (s.logAfe e).supplyLog = s.supplyLog := rfl
@[simp] theorem logAfe_env (e : AfeEvent) : (s.logAfe e).env = s.env := rfl

@[simp] theorem logSupply_wave (cv : Nat) : (s.logSupply cv).wave = s.wave := rfl
@[simp] theorem logSupply_afe (cv : Nat) : (s.logSupply cv).afe = s.afe := rfl
@[simp] theorem logSupply_pb (cv : Nat) : (s.logSupply cv).pb = s.pb := rfl
@[simp] theorem logSupply_dac (cv : Nat) : (s.logSupply cv).dac = s.dac := rfl
@[simp] theorem logSupply_rearm (cv : Nat) : (s.logSupply cv).rearm = s.rearm := rfl
@[simp] theorem logSupply_capA (cv : Nat) : (s.logSupply cv).capA = s.capA := rfl
@[simp] theorem logSupply_capB (cv : Nat) : (s.logSupply cv).capB = s.capB := rfl
@[simp] theorem logSupply_cap (cv : Nat) : (s.logSupply cv).cap = s.cap := rfl
@[simp] theorem logSupply_seq (cv : Nat) : (s.logSupply cv).seq = s.seq := rfl
@[simp] theorem logSupply_fault (cv : Nat) : (s.logSupply cv).fault = s.fault := rfl
@[simp] theorem logSupply_lastErr (cv : Nat) : (s.logSupply cv).lastErr = s.lastErr := rfl
@[simp] theorem logSupply_rxq (cv : Nat) : (s.logSupply cv).rxq = s.rxq := rfl
@[simp] theorem logSupply_tx (cv : Nat) : (s.logSupply cv).tx = s.tx := rfl
@[simp] theorem logSupply_afeLog (cv : Nat) : (s.logSupply cv).afeLog = s.afeLog := rfl
@[simp] theorem logSupply_supplyLog (cv : Nat) : (s.logSupply cv).supplyLog = s.supplyLog ++ [cv] := rfl
@[simp] theorem logSupply_env (cv : Nat) : (s.logSupply cv).env = s.env := rfl

@[simp] theorem setEnv_wave (e : Env) : (s.setEnv e).wave = s.wave := rfl
@[simp] theorem setEnv_afe (e : Env) : (s.setEnv e).afe = s.afe := rfl
@[simp] theorem setEnv_pb (e : Env) : (s.setEnv e).pb = s.pb := rfl
@[simp] theorem setEnv_dac (e : Env) : (s.setEnv e).dac = s.dac := rfl
@[simp] theorem setEnv_rearm (e : Env) : (s.setEnv e).rearm = s.rearm := rfl
@[simp] theorem setEnv_capA (e : Env) : (s.setEnv e).capA = s.capA := rfl
@[simp] theorem setEnv_capB (e : Env) : (s.setEnv e).capB = s.capB := rfl
@[simp] theorem setEnv_cap (e : Env) : (s.setEnv e).cap = s.cap := rfl
@[simp] theorem setEnv_seq (e : Env) : (s.setEnv e).seq = s.seq := rfl
@[simp] theorem setEnv_fault (e : Env) : (s.setEnv e).fault = s.fault := rfl
@[simp] theorem setEnv_lastErr (e : Env) : (s.setEnv e).lastErr = s.lastErr := rfl
@[simp] theorem setEnv_rxq (e : Env) : (s.setEnv e).rxq = s.rxq := rfl
@[simp] theorem setEnv_tx (e : Env) : (s.setEnv e).tx = s.tx := rfl
@[simp] theorem setEnv_afeLog (e : Env) : (s.setEnv e).afeLog = s.afeLog := rfl
@[simp] theorem setEnv_supplyLog (e : Env) : (s.setEnv e).supplyLog = s.supplyLog := rfl
@[simp] theorem setEnv_env (e : Env) : (s.setEnv e).env = e := rfl

end Machine.State

end Sys2Proof
end

