-- ==== Sys2Proof/Laws/Ops.lean ====
section
/-! SUPPORT. What the shared operations do: the two error outcomes, the words on TX, the draws, the capture tick, the
stream and the averaged read. -/

namespace Sys2Proof.Machine

theorem raiseNoOp_eq (code : NoOpCode) (s : State) :
    raiseNoOp code s = { s with lastErr := some code, seq := .ready } := rfl

theorem raiseFault_eq (code : FaultCode) (ch : Option Channel) (idx : Option Nat) (s : State) :
    raiseFault code ch idx s = Safety.faulted s code ch idx := rfl

theorem goOn_eq (q : SeqStep) (s : State) : goOn q s = { s with seq := .busy q } := rfl

theorem complete_eq (s : State) : complete s = { s with seq := .busy .complete } := rfl

/-! ### Words on TX -/

@[simp] theorem wordBytes_length (e : Endian) (w : Sample) : (wordBytes e w).length = 2 := rfl

@[simp] theorem responseBytes_nil (e : Endian) : responseBytes e [] = [] := rfl

@[simp] theorem responseBytes_cons (e : Endian) (w : Sample) (ws : List Sample) :
    responseBytes e (w :: ws) = wordBytes e w ++ responseBytes e ws := rfl

@[simp] theorem responseBytes_append (e : Endian) (us ws : List Sample) :
    responseBytes e (us ++ ws) = responseBytes e us ++ responseBytes e ws := by
  simp [responseBytes]

@[simp] theorem responseBytes_length (e : Endian) (ws : List Sample) : (responseBytes e ws).length = 2 * ws.length := by
  induction ws with
  | nil => rfl
  | cons w ws ih => simp [ih]; omega

/-- Word `k` of a response is its bytes `2k` and `2k + 1` (R74: no padding). -/
theorem responseBytes_word (e : Endian) (ws : List Sample) (k : Nat) (h : k < ws.length) :
    ((responseBytes e ws).drop (2 * k)).take 2 = wordBytes e ws[k] := by
  induction ws generalizing k with
  | nil => simp at h
  | cons w ws ih =>
    cases k with
    | zero => exact List.take_left' (wordBytes_length e w)
    | succ k =>
      have h2 : 2 * (k + 1) = (wordBytes e w).length + 2 * k := by rw [wordBytes_length]; omega
      rw [responseBytes_cons, h2, ← List.drop_drop, List.drop_left]
      simpa using ih k (by simpa using h)

/-- Byte `j` of a response is the first or the second byte of word `j / 2`. -/
theorem responseBytes_getElem? (e : Endian) (ws : List Sample) (j : Nat) :
    (responseBytes e ws)[j]? = ws[j / 2]?.map (fun w => wordByte e w (j % 2 == 1)) := by
  induction ws generalizing j with
  | nil => simp
  | cons w ws ih =>
    match j with
    | 0 => rfl
    | 1 => rfl
    | j + 2 =>
      rw [responseBytes_cons, List.getElem?_append_right (by simp), wordBytes_length, Nat.add_sub_cancel, ih,
        show (j + 2) / 2 = j / 2 + 1 by omega, List.getElem?_cons_succ, show (j + 2) % 2 = j % 2 by omega]

/-! ### Draws -/

theorem Env.adcValue_useAdc (e : Env) (k j : Nat) : (e.useAdc k).adcValue j = e.adcValue (k + j) := by
  simp [Env.adcValue, Env.useAdc, List.getElem?_drop, Nat.add_assoc]

theorem Env.bandChoice_useBand (e : Env) (k j : Nat) : (e.useBand k).bandChoice j = e.bandChoice (k + j) := by
  simp [Env.bandChoice, Env.useBand, List.getElem?_drop, Nat.add_assoc]

@[simp] theorem Env.turns_useAdc (e : Env) (k : Nat) : (e.useAdc k).turns = e.turns := rfl

@[simp] theorem Env.turns_useBand (e : Env) (k : Nat) : (e.useBand k).turns = e.turns := rfl

/-! ### Averages -/

/-- No average overflows (R261). -/
theorem average_toNat {sum : Nat} (h : sum ≤ 655350) : (average sum).toNat = sum / 10 := by
  simp only [average, Config.avgN, BitVec.toNat_ofNat]
  omega

/-! ### The capture tick -/

theorem tickCap_off {s : State} (h : s.cap = .off) : tickCap s = s := by simp [tickCap, h]

theorem tickCap_running {s : State} {k rate : Nat} (h : s.cap = .running k rate) (hk : k < Config.bufSize) :
    tickCap s = { s with
      capA := s.capA.set k (s.env.adcValue 0)
      capB := s.capB.set k (s.env.adcValue 1)
      cap := if k + 1 = Config.bufSize then .off else .running (k + 1) rate
      env := s.env.useAdc 2 } := by
  simp only [tickCap, h]
  rw [dif_pos hk]
  rfl

/-- Everything a capture tick can do. -/
theorem tickCap_cases (s : State) :
    tickCap s = s ∨ ∃ k rate, ∃ h : k < Config.bufSize, s.cap = .running k rate ∧
      tickCap s = { s with
        capA := s.capA.set k (s.env.adcValue 0)
        capB := s.capB.set k (s.env.adcValue 1)
        cap := if k + 1 = Config.bufSize then .off else .running (k + 1) rate
        env := s.env.useAdc 2 } := by
  cases hc : s.cap with
  | off => exact .inl (tickCap_off hc)
  | running k rate =>
    by_cases hk : k < Config.bufSize
    · exact .inr ⟨k, rate, hk, rfl, tickCap_running hc hk⟩
    · left; simp only [tickCap, hc]; rw [dif_neg hk]

/-! ### The stream and the response -/

/-- The words of the stream: `CAPA` in index order, then `CAPB` (R255). -/
theorem streamWord_eq (s : State) (i : Nat) : streamWord s i = (s.capA.toList ++ s.capB.toList)[i]? := by
  unfold streamWord
  have hlen : s.capA.toList.length = Config.bufSize := by simp
  split
  · next h =>
    rw [List.getElem?_append_left (by omega)]
    simp
  · next h =>
    rw [List.getElem?_append_right (by omega), hlen]
    simp

@[simp] theorem streamBytes_length (s : State) : (Safety.streamBytes s).length = streamLen := by
  simp [Safety.streamBytes, streamLen]
  omega

/-- A step of the stream sends its byte of the whole stream; after the last one the command is complete. -/
theorem streamStep_eq {s : State} {k : Nat} (h : k < streamLen) :
    streamStep Config.params k s = { s with
      tx := s.tx ++ [(Safety.streamBytes s)[k]'(by simpa using h)]
      seq := .busy (if k + 1 = streamLen then .complete else .stream (k + 1)) } := by
  have hb := responseBytes_getElem? Config.params.streamEndian (s.capA.toList ++ s.capB.toList) k
  have hk : k < (responseBytes Config.params.streamEndian (s.capA.toList ++ s.capB.toList)).length := by
    have := streamBytes_length s
    rw [Safety.streamBytes] at this
    omega
  rw [List.getElem?_eq_getElem hk] at hb
  unfold streamStep
  rw [streamWord_eq]
  cases hw : (s.capA.toList ++ s.capB.toList)[k / 2]? with
  | none => rw [hw] at hb; cases hb
  | some w =>
    rw [hw, Option.map_some, Option.some.injEq] at hb
    simp only [goOn_eq, State.send, Safety.streamBytes]
    rw [hb]

/-- Beyond the last byte there is nothing to send. -/
theorem streamStep_end {s : State} {k : Nat} (h : streamLen ≤ k) : streamStep Config.params k s = complete s := by
  unfold streamStep
  rw [streamWord_eq, List.getElem?_eq_none]
  simp only [streamLen, Config.bufSize] at h
  simp only [List.length_append, Vector.length_toList, Config.bufSize]
  omega

/-- While the capture runs the sequencer holds; then the stream begins (R253, R255). -/
theorem awaitCapture_cases (P : Params) (s : State) :
    (s.cap ≠ .off ∧ awaitCapture P s = s) ∨ (s.cap = .off ∧ awaitCapture P s = streamStep P 0 s) := by
  unfold awaitCapture
  by_cases h : s.cap = .off
  · exact .inr ⟨h, if_pos h⟩
  · exact .inl ⟨h, if_neg h⟩

/-- One byte of the response, and what follows it (R262). -/
theorem respondStep_cons (b : Byte) (rest : List Byte) (s : State) :
    respondStep (b :: rest) s =
      { s with tx := s.tx ++ [b], seq := .busy (if rest = [] then .complete else .respond rest) } := rfl

@[simp] theorem averageBytes_length (P : Params) (sA sB : Nat) : (averageBytes P sA sB).length = 4 := by
  simp [averageBytes]

/-- One read adds its value to its channel's sum, and consumes one draw (R259, R260). -/
theorem readStep_eq (P : Params) (j sA sB : Nat) (s : State) :
    readStep P j sA sB s = { s with
      seq := .busy
        (if j % 2 = 0 then afterReads P (j + 1) (sA + (s.env.adcValue 0).toNat) sB
          else afterReads P (j + 1) sA (sB + (s.env.adcValue 0).toNat))
      env := s.env.useAdc 1 } := rfl

/-! ### Starting a capture -/

theorem captureStart_cases (P : Params) (rate : Nat) (s : State) :
    ((1 ≤ rate ∧ rate ≤ P.adcTmrMax) ∧
        captureStart P rate s = { s with cap := .running 0 rate, seq := .busy .capture }) ∨
      (¬(1 ≤ rate ∧ rate ≤ P.adcTmrMax) ∧ captureStart P rate s = Safety.faulted s .capRate none none) := by
  have hiff : capRateOk P rate = true ↔ 1 ≤ rate ∧ rate ≤ P.adcTmrMax := by
    simp [capRateOk, Nat.one_le_iff_ne_zero]
  unfold captureStart
  by_cases h : capRateOk P rate = true
  · exact .inl ⟨hiff.mp h, by rw [if_pos h]; rfl⟩
  · exact .inr ⟨fun hc => h (hiff.mpr hc), by rw [if_neg h]; rfl⟩

end Sys2Proof.Machine
end

