-- ==== Sys2Proof/Laws/Generator.lean ====
section
/-! SUPPORT. What synthesis returns and what installing a result does. -/

namespace Sys2Proof.Machine

/-! ### Conditions -/

theorem countOk_iff (P : Params) (n : Nat) : countOk P n = true ↔ 2 ≤ n ∧ n ≤ P.synNMax := by
  rw [countOk, Bool.and_eq_true, decide_eq_true_iff, decide_eq_true_iff]
  rfl

theorem parityOk_iff (sh : Shape) (n : Nat) : parityOk sh n = true ↔ (sh = .triangle → n % 2 = 0) := by
  cases sh <;> simp [parityOk]

theorem codeInRange_iff (c : Int) : codeInRange c = true ↔ 0 ≤ c ∧ c ≤ 4095 := by
  rw [codeInRange, Bool.and_eq_true, decide_eq_true_iff, decide_eq_true_iff]
  rfl

theorem dacRateOk_iff (P : Params) (r : Nat) : dacRateOk P r = true ↔ 1 ≤ r ∧ r ≤ P.dacTmrMax := by
  simp [dacRateOk, Nat.one_le_iff_ne_zero]

/-! ### Synthesis -/

theorem codeChecked_some {c : Int} (h : 0 ≤ c ∧ c ≤ 4095) :
    ∃ d : Code, codeChecked c = some d ∧ ((d.toNat : ℕ) : ℤ) = c := by
  refine ⟨BitVec.ofNat 12 c.toNat, by simp [codeChecked, codeInRange_iff, h], ?_⟩
  rw [BitVec.toNat_ofNat]
  omega

theorem codeChecked_none {c : Int} (h : ¬(0 ≤ c ∧ c ≤ 4095)) : codeChecked c = none := by
  simp only [codeChecked]
  rw [if_neg (by rwa [codeInRange_iff])]

theorem codeChecked_eq_some {c : Int} {d : Code} (h : codeChecked c = some d) : ((d.toNat : ℕ) : ℤ) = c := by
  by_cases hc : 0 ≤ c ∧ c ≤ 4095
  · obtain ⟨d', hd, he⟩ := codeChecked_some hc
    rw [hd] at h
    cases h
    exact he
  · rw [codeChecked_none hc] at h
    cases h

/-- Every sample in range: the buffer, sample by sample (R170). -/
theorem sampleCodes_ok {code : Nat → Int} (n : Nat) :
    ∀ i, (∀ j, i ≤ j → j < i + n → 0 ≤ code j ∧ code j ≤ 4095) →
      ∃ buf, sampleCodes code i n = .ok buf ∧ buf.length = n ∧
        ∀ j (h : j < buf.length), ((buf[j].toNat : ℕ) : ℤ) = code (i + j) := by
  induction n with
  | zero => intro i _; exact ⟨[], rfl, rfl, fun j h => absurd h (by simp)⟩
  | succ n ih =>
    intro i hall
    obtain ⟨d, hd, hdv⟩ := codeChecked_some (hall i le_rfl (by omega))
    obtain ⟨buf, hbuf, hlen, hval⟩ := ih (i + 1) (fun j h1 h2 => hall j (by omega) (by omega))
    refine ⟨d :: buf, by simp [sampleCodes, hd, hbuf], by simp [hlen], ?_⟩
    intro j h
    cases j with
    | zero => simpa using hdv
    | succ j =>
      have := hval j (by simpa using h)
      rw [show i + 1 + j = i + (j + 1) by omega] at this
      simpa using this

/-- The first sample out of range ends the synthesis (R173, R294). -/
theorem sampleCodes_error {code : Nat → Int} {k : Nat} (n : Nat) :
    ∀ i, i ≤ k → k < i + n →
      (∀ j, i ≤ j → j < k → 0 ≤ code j ∧ code j ≤ 4095) →
      ¬(0 ≤ code k ∧ code k ≤ 4095) →
      sampleCodes code i n = .error k := by
  induction n with
  | zero => intro i h1 h2; omega
  | succ n ih =>
    intro i h1 h2 hall hk
    rcases Nat.eq_or_lt_of_le h1 with he | hlt
    · subst he; simp [sampleCodes, codeChecked_none hk]
    · obtain ⟨d, hd, -⟩ := codeChecked_some (hall i le_rfl hlt)
      have := ih (i + 1) (by omega) (by omega) (fun j h1 h2 => hall j (by omega) h2) hk
      simp [sampleCodes, hd, this]

/-- A buffer has as many codes as samples were asked for. -/
theorem sampleCodes_length {code : Nat → Int} (n : Nat) :
    ∀ {i buf}, sampleCodes code i n = .ok buf → buf.length = n := by
  induction n with
  | zero => intro i buf h; simp [sampleCodes] at h; simp [← h]
  | succ n ih =>
    intro i buf h
    rw [sampleCodes] at h
    split at h
    · cases h
    · split at h
      · next cs hcs => cases h; simp [ih hcs]
      · cases h

/-- Everything a timed synthesis can return (R170, R173 to R175, R294): the count first, then the parity, then the lowest
sample out of range, else the buffer. -/
inductive TimedSynthesis (P : Params) (sh : Shape) (n : Nat) (code : Nat → Int) : Except SynFault SynResult → Prop where
  | count (h : ¬(2 ≤ n ∧ n ≤ P.synNMax)) : TimedSynthesis P sh n code (.error { code := .synCount, idx := none })
  | parity (h : 2 ≤ n ∧ n ≤ P.synNMax) (hp : ¬(sh = .triangle → n % 2 = 0)) :
      TimedSynthesis P sh n code (.error { code := .synTriOdd, idx := none })
  | range (h : 2 ≤ n ∧ n ≤ P.synNMax) (hp : sh = .triangle → n % 2 = 0) (k : Nat) (hk : k < n)
      (hlow : ∀ j < k, Safety.InRange (code j)) (hout : ¬Safety.InRange (code k)) :
      TimedSynthesis P sh n code (.error { code := .dacRange, idx := some k })
  | buffer (h : 2 ≤ n ∧ n ≤ P.synNMax) (hp : sh = .triangle → n % 2 = 0) (buf : List Code) (hlen : buf.length = n)
      (hall : ∀ j < n, Safety.InRange (code j)) (hval : ∀ j (h : j < buf.length), ((buf[j].toNat : ℕ) : ℤ) = code j) :
      TimedSynthesis P sh n code (.ok (.timed buf))

theorem synthTimed_spec (P : Params) (sh : Shape) (n : Nat) (code : Nat → Int) :
    TimedSynthesis P sh n code (synthTimed P sh n code) := by
  unfold synthTimed
  by_cases hc : countOk P n = true
  · have hn := (countOk_iff P n).mp hc
    by_cases hp : parityOk sh n = true
    · have hpar := (parityOk_iff sh n).mp hp
      simp only [hc, hp, Bool.not_true, Bool.false_eq_true, if_false]
      by_cases hall : ∀ j < n, Safety.InRange (code j)
      · obtain ⟨buf, hbuf, hlen, hval⟩ := sampleCodes_ok (code := code) n 0 (fun j _ h => hall j (by omega))
        rw [hbuf]
        exact .buffer hn hpar buf hlen hall (fun j h => by simpa using hval j h)
      · have hex : ∃ k, k < n ∧ ¬Safety.InRange (code k) := by
          by_contra hcon
          exact hall fun j hj => by_contra fun hr => hcon ⟨j, hj, hr⟩
        classical
        have hlow : ∀ j < Nat.find hex, Safety.InRange (code j) := by
          intro j hj
          by_contra hr
          exact Nat.find_min hex hj ⟨hj.trans (Nat.find_spec hex).1, hr⟩
        rw [sampleCodes_error (code := code) (k := Nat.find hex) n 0 (Nat.zero_le _)
          (by simpa using (Nat.find_spec hex).1) (fun j _ h => hlow j h) (Nat.find_spec hex).2]
        exact .range hn hpar _ (Nat.find_spec hex).1 hlow (Nat.find_spec hex).2
    · simp only [hc, Bool.not_true, Bool.false_eq_true, if_false, Bool.not_eq_true _ ▸ hp, Bool.not_false, if_true]
      exact .parity hn (fun h => hp ((parityOk_iff sh n).mpr h))
  · simp only [Bool.not_eq_true _ ▸ hc, Bool.not_false, if_true]
    exact .count (fun h => hc ((countOk_iff P n).mpr h))

/-- The faults of a timed synthesis, each under its condition (R293, R294). -/
theorem synthTimed_count {P : Params} {sh : Shape} {n : Nat} {code : Nat → Int} (h : ¬(2 ≤ n ∧ n ≤ P.synNMax)) :
    synthTimed P sh n code = .error { code := .synCount, idx := none } := by
  have hs := synthTimed_spec P sh n code
  generalize synthTimed P sh n code = r at hs
  cases hs with
  | count => rfl
  | parity hn => exact absurd hn h
  | range hn => exact absurd hn h
  | buffer hn => exact absurd hn h

theorem synthTimed_parity {P : Params} {sh : Shape} {n : Nat} {code : Nat → Int} (h : 2 ≤ n ∧ n ≤ P.synNMax)
    (hp : ¬(sh = .triangle → n % 2 = 0)) : synthTimed P sh n code = .error { code := .synTriOdd, idx := none } := by
  have hs := synthTimed_spec P sh n code
  generalize synthTimed P sh n code = r at hs
  cases hs with
  | count hn => exact absurd h hn
  | parity => rfl
  | range _ hpar => exact absurd hpar hp
  | buffer _ hpar => exact absurd hpar hp

theorem synthTimed_range {P : Params} {sh : Shape} {n k : Nat} {code : Nat → Int} (h : 2 ≤ n ∧ n ≤ P.synNMax)
    (hp : sh = .triangle → n % 2 = 0) (hk : k < n) (hlow : ∀ j < k, Safety.InRange (code j))
    (hout : ¬Safety.InRange (code k)) : synthTimed P sh n code = .error { code := .dacRange, idx := some k } := by
  have hs := synthTimed_spec P sh n code
  generalize synthTimed P sh n code = r at hs
  cases hs with
  | count hn => exact absurd h hn
  | parity _ hpar => exact absurd hp hpar
  | range _ _ k' hk' hlow' hout' =>
    rcases Nat.lt_trichotomy k k' with hl | rfl | hl
    · exact absurd (hlow' k hl) hout
    · rfl
    · exact absurd (hlow k' hl) hout'
  | buffer _ _ _ _ hall => exact absurd (hall k hk) hout

theorem synthTimed_buffer {P : Params} {sh : Shape} {n : Nat} {code : Nat → Int} (h : 2 ≤ n ∧ n ≤ P.synNMax)
    (hp : sh = .triangle → n % 2 = 0) (hall : ∀ j < n, Safety.InRange (code j)) :
    ∃ buf : List Code, synthTimed P sh n code = .ok (.timed buf) ∧ buf.length = n ∧
      ∀ j (h : j < buf.length), ((buf[j].toNat : ℕ) : ℤ) = code j := by
  have hs := synthTimed_spec P sh n code
  generalize synthTimed P sh n code = r at hs
  cases hs with
  | count hn => exact absurd h hn
  | parity _ hpar => exact absurd hp hpar
  | range _ _ k hk _ hout => exact absurd (hall k hk) hout
  | buffer _ _ buf hlen _ hval => exact ⟨buf, rfl, hlen, hval⟩

/-- DC mode: the code of the offset, or the range fault of index 0 (R176, R293). -/
theorem synthDc_ok {c : Int} (h : Safety.InRange c) : ∃ d : Code, synthDc c = .ok (.dc d) ∧ ((d.toNat : ℕ) : ℤ) = c := by
  obtain ⟨d, hd, hv⟩ := codeChecked_some h
  exact ⟨d, by simp [synthDc, hd], hv⟩

theorem synthDc_fault {c : Int} (h : ¬Safety.InRange c) : synthDc c = .error { code := .dacRange, idx := some 0 } := by
  simp [synthDc, codeChecked_none h]

/-- The code of a sample is the one that the environment's draw gives by R172 over the reals. -/
theorem sampleCode_eq {s : State} {ch : Channel} {sh : Shape} {i : Nat} (hi : i < (s.wave.get ch).n) :
    sampleCode Config.params ch sh s i = Safety.drawnCode s ch sh i :=
  dacCode_eq Config.params (s.env.bandChoice i) (w := .wave sh _ _ _ i) hi

theorem offsetCode_eq (s : State) (ch : Channel) : offsetCode Config.params ch s = Safety.drawnOffset s ch :=
  dacCode_eq Config.params (s.env.bandChoice 0) (w := .dc _) trivial

/-- Only the codes of the samples asked for enter a synthesis. -/
theorem sampleCodes_congr {code code' : Nat → Int} (n : Nat) :
    ∀ i, (∀ j, i ≤ j → j < i + n → code j = code' j) → sampleCodes code i n = sampleCodes code' i n := by
  induction n with
  | zero => intro i _; rfl
  | succ n ih =>
    intro i h
    rw [sampleCodes, sampleCodes, h i le_rfl (by omega), ih (i + 1) (fun j h1 h2 => h j (by omega) (by omega))]

theorem synthTimed_congr (P : Params) (sh : Shape) {n : Nat} {code code' : Nat → Int} (h : ∀ j < n, code j = code' j) :
    synthTimed P sh n code = synthTimed P sh n code' := by
  rw [synthTimed, synthTimed, sampleCodes_congr n 0 (fun j _ hj => h j (by omega))]

/-- A timed synthesis, with the codes R172 gives over the reals. -/
theorem runTimed_eq (ch : Channel) (sh : Shape) (s : State) :
    runTimed Config.params ch sh s =
      synthesized ch (synthTimed Config.params sh (s.wave.get ch).n (Safety.drawnCode s ch sh))
        { s with env := s.env.useBand (s.wave.get ch).n } := by
  rw [runTimed, synthTimed_congr Config.params sh (fun j hj => sampleCode_eq (s := s) (ch := ch) (sh := sh) hj)]
  rfl

theorem runDc_eq (ch : Channel) (s : State) :
    runDc Config.params ch s =
      synthesized ch (synthDc (Safety.drawnOffset s ch)) { s with env := s.env.useBand 1 } := by
  rw [runDc, offsetCode_eq]
  rfl

/-- Each timed synthesis operation runs its shape. -/
theorem exec_timed {i : Instr} {sh : Shape} {ch : Channel} (h : Safety.IsTimedSyn i sh ch) (s : State) :
    exec i s = .next (runTimed Config.params ch sh s) := by
  rcases h with ⟨rfl, rfl⟩ | ⟨rfl, rfl⟩ | ⟨rfl, rfl⟩ | ⟨rfl, rfl⟩ <;> rfl

/-! ### Installing -/

/-- An install whose rate is legal. -/
theorem install_ok {ch : Channel} {r : SynResult} {s : State} (h : Safety.RateOk s ch r) :
    install Config.params ch r s = Safety.installed s ch r (afterInstall ch) := by
  cases r with
  | dc c => rfl
  | timed buf =>
    rw [install, armTimed, if_pos ((dacRateOk_iff Config.params (armRate ch buf s)).mpr h)]
    simp [Safety.installed, Safety.installedPb, Safety.installedDac, rearmNext, goOn_eq, armRate, State.setPb]
  | hold => simp [install, hold, Safety.installed, Safety.installedPb, Safety.installedDac, rearmNext, goOn_eq, State.setPb]

/-- The fault of an install (R212, R293). -/
theorem install_fault {ch : Channel} {r : SynResult} {s : State} (h : ¬Safety.RateOk s ch r) :
    (∃ buf, r = .timed buf) ∧ install Config.params ch r s = Safety.faulted s .playRate (some ch) none := by
  cases r with
  | dc c => exact absurd trivial h
  | timed buf =>
    refine ⟨⟨buf, rfl⟩, ?_⟩
    rw [install, armTimed, if_neg (fun hc => h ((dacRateOk_iff Config.params (armRate ch buf s)).mp hc))]
    rfl
  | hold => exact absurd trivial h

/-! ### The playback tick -/

theorem tickDac_stopped {ch : Channel} {s : State} (h : s.pb.get ch = .stopped) : tickDac ch s = .next s := by
  simp [tickDac, h]

theorem tickDac_timed {ch : Channel} {s : State} {buf : List Code} {rate idx : Nat}
    (h : s.pb.get ch = .timed buf rate idx) (hi : idx < buf.length) :
    tickDac ch s = .next { s with
      dac := s.dac.set ch (some buf[idx])
      pb := s.pb.set ch (.timed buf rate ((idx + 1) % buf.length)) } := by
  simp only [tickDac, h, List.getElem?_eq_getElem hi]
  rfl

/-- Everything a playback tick that answers a next state can have done. -/
theorem tickDac_cases {ch : Channel} {s t : State} (h : tickDac ch s = .next t) :
    (s.pb.get ch = .stopped ∧ t = s) ∨
      ∃ buf rate idx, ∃ hi : idx < buf.length, s.pb.get ch = .timed buf rate idx ∧
        t = { s with
          dac := s.dac.set ch (some buf[idx])
          pb := s.pb.set ch (.timed buf rate ((idx + 1) % buf.length)) } := by
  cases hp : s.pb.get ch with
  | stopped => rw [tickDac_stopped hp] at h; cases h; exact .inl ⟨rfl, rfl⟩
  | timed buf rate idx =>
    by_cases hi : idx < buf.length
    · rw [tickDac_timed hp hi] at h; cases h; exact .inr ⟨buf, rate, idx, hi, rfl, rfl⟩
    · simp [tickDac, hp, List.getElem?_eq_none (not_lt.mp hi)] at h

end Sys2Proof.Machine
end

