-- ==== Sys2Proof/Laws/Step.lean ====
section
/-! SUPPORT. Everything a step can do: one inversion lemma for the sequencer's step, one for a turn. -/

namespace Sys2Proof.Machine

/-- What the selected synthesis of channel `ch` can return, by the codes of R172 over the reals (R170, R171). -/
inductive Synthesis (s : State) (ch : Channel) : Except SynFault SynResult → Prop where
  | dc (ha : Safety.ampOf s ch = 0) : Synthesis s ch (synthDc (Safety.drawnOffset s ch))
  | hold (ha : Safety.ampOf s ch ≠ 0) (hsh : (s.wave.get ch).shape = .none) : Synthesis s ch (.ok .hold)
  | timed (ha : Safety.ampOf s ch ≠ 0) (hsh : (s.wave.get ch).shape ≠ .none) :
      Synthesis s ch (synthTimed Config.params (s.wave.get ch).shape (s.wave.get ch).n
        (Safety.drawnCode s ch (s.wave.get ch).shape))

/-- What a step of the sequencer can have done, one case for each rule step. -/
inductive SeqMove (s : State) : State → Prop where
  | idle (h : s.seq = .faulted ∨ (s.seq = .ready ∧ s.rxq = []) ∨ (s.seq = .busy .capture ∧ s.cap ≠ .off)) : SeqMove s s
  | take (raw : List Byte) (rest : List (List Byte)) (h : s.seq = .ready) (hq : s.rxq = raw :: rest) :
      SeqMove s { s with rxq := rest, lastErr := none, seq := .busy (.decode raw) }
  | noOp (raw : List Byte) (code : NoOpCode) (h : s.seq = .busy (.decode raw))
      (hd : decodeLine raw = .error code ∨ (decodeLine raw = .ok .unrecognized ∧ code = .tag)) :
      SeqMove s { s with lastErr := some code, seq := .ready }
  | generator (raw : List Byte) (ch : Channel) (f : SFields) (h : s.seq = .busy (.decode raw))
      (hd : (ch = .one ∧ decodeLine raw = .ok (.s1 f)) ∨ (ch = .two ∧ decodeLine raw = .ok (.s2 f))) :
      SeqMove s { s with wave := s.wave.set ch (genRegOf Config.params ch f), seq := .busy .rearmBegin }
  | m1 (raw : List Byte) (f : M1Fields) (h : s.seq = .busy (.decode raw)) (hd : decodeLine raw = .ok (.m1 f)) :
      SeqMove s { s with afe := s.afe.set .one (afeCfgOf f .one), seq := .busy (.afeEvent f .one) }
  | dz (raw : List Byte) (cv : Nat) (h : s.seq = .busy (.decode raw)) (hd : decodeLine raw = .ok (.dz cv)) (hcv : cv ≠ 0) :
      SeqMove s { s with supplyLog := s.supplyLog ++ [cv], seq := .busy .complete }
  | dzZero (raw : List Byte) (h : s.seq = .busy (.decode raw)) (hd : decodeLine raw = .ok (.dz 0)) :
      SeqMove s (Safety.faulted s .supplyZero none none)
  | startup (h : s.seq = .busy .startup) :
      SeqMove s { s with supplyLog := s.supplyLog ++ [550], seq := .busy .rearmBegin }
  | rearmBegin (h : s.seq = .busy .rearmBegin) : SeqMove s { s with rearm := true, seq := .busy (.rearm .one) }
  | synth (ch : Channel) (r : SynResult) (k : Nat) (h : s.seq = .busy (.rearm ch)) (hr : Synthesis s ch (.ok r)) :
      SeqMove s { s with seq := .busy (.install ch r), env := s.env.useBand k }
  | synthFault (ch : Channel) (f : SynFault) (k : Nat) (h : s.seq = .busy (.rearm ch))
      (hf : Synthesis s ch (.error f)) :
      SeqMove s { Safety.faulted s f.code (some ch) f.idx with env := s.env.useBand k }
  | install (ch : Channel) (r : SynResult) (h : s.seq = .busy (.install ch r)) (hr : Safety.RateOk s ch r) :
      SeqMove s (Safety.installed s ch r (afterInstall ch))
  | installFault (ch : Channel) (buf : List Code) (h : s.seq = .busy (.install ch (.timed buf)))
      (hr : ¬Safety.RateOk s ch (.timed buf)) : SeqMove s (Safety.faulted s .playRate (some ch) none)
  | rearmEnd (h : s.seq = .busy .rearmEnd) : SeqMove s { s with rearm := false, seq := .busy .complete }
  | afeEvent (f : M1Fields) (ch : Channel) (h : s.seq = .busy (.afeEvent f ch)) :
      SeqMove s { s with afeLog := s.afeLog ++ [afeEventOf f ch], seq := .busy (afterEvent f ch) }
  | afeSecond (f : M1Fields) (h : s.seq = .busy (.afeSecond f)) :
      SeqMove s { s with afe := s.afe.set .two (afeCfgOf f .two), seq := .busy (.afeEvent f .two) }
  | captureStart (rate : Nat) (h : s.seq = .busy (.captureStart rate))
      (hr : 1 ≤ rate ∧ rate ≤ Config.params.adcTmrMax) :
      SeqMove s { s with cap := .running 0 rate, seq := .busy .capture }
  | captureFault (rate : Nat) (h : s.seq = .busy (.captureStart rate))
      (hr : ¬(1 ≤ rate ∧ rate ≤ Config.params.adcTmrMax)) : SeqMove s (Safety.faulted s .capRate none none)
  | stream (k : Nat) (h : (k = 0 ∧ s.seq = .busy .capture ∧ s.cap = .off) ∨ s.seq = .busy (.stream k))
      (b : Byte) (hb : (Safety.streamBytes s)[k]? = some b) :
      SeqMove s { s with
        tx := s.tx ++ [b], seq := .busy (if k + 1 = streamLen then .complete else .stream (k + 1)) }
  | streamEnd (k : Nat) (h : s.seq = .busy (.stream k)) (hk : streamLen ≤ k) :
      SeqMove s { s with seq := .busy .complete }
  | read (j sA sB : Nat)
      (h : (∃ raw, j = 0 ∧ sA = 0 ∧ sB = 0 ∧ s.seq = .busy (.decode raw) ∧ decodeLine raw = .ok .m2) ∨
        s.seq = .busy (.reads j sA sB)) : SeqMove s (readStep Config.params j sA sB s)
  | respond (b : Byte) (rest : List Byte) (h : s.seq = .busy (.respond (b :: rest))) :
      SeqMove s { s with tx := s.tx ++ [b], seq := .busy (if rest = [] then .complete else .respond rest) }
  | respondEnd (h : s.seq = .busy (.respond [])) : SeqMove s { s with seq := .busy .complete }
  | complete (h : s.seq = .busy .complete) : SeqMove s { s with seq := .ready }

/-- A line never decodes to a synthesis operation. -/
theorem decodeLine_ok_cases {raw : List Byte} {i : Instr} (h : decodeLine raw = .ok i) :
    (∃ f, i = .s1 f) ∨ (∃ f, i = .s2 f) ∨ (∃ f, i = .m1 f) ∨ i = .m2 ∨ (∃ cv, i = .dz cv) ∨ i = .unrecognized := by
  have horParse : ∀ {α : Type} {o : Option α} {c : α → Instr}, orParse (o.map c) = .ok i → ∃ a, i = c a := by
    intro α o c ho
    cases o with
    | none => simp [orParse] at ho
    | some a => simp only [orParse, Option.map_some, Except.ok.injEq] at ho; exact ⟨a, ho.symm⟩
  unfold decodeLine at h
  simp only at h
  split at h
  · cases h
  · split at h
    · unfold decodeTag at h
      split at h
      · exact .inl (horParse h)
      split at h
      · exact .inr (.inl (horParse h))
      split at h
      · exact .inr (.inr (.inl (horParse h)))
      split at h
      · cases h; exact .inr (.inr (.inr (.inl rfl)))
      split at h
      · exact .inr (.inr (.inr (.inr (.inl (horParse h)))))
      · cases h; exact .inr (.inr (.inr (.inr (.inr rfl))))
    · cases h; exact .inr (.inr (.inr (.inr (.inr rfl))))

theorem runTimed_move {s : State} {ch : Channel} {sh : Shape} (h : s.seq = .busy (.rearm ch))
    (ha : Safety.ampOf s ch ≠ 0) (hsh : (s.wave.get ch).shape = sh) (hne : sh ≠ .none) :
    SeqMove s (runTimed Config.params ch sh s) := by
  subst hsh
  have hr := Synthesis.timed ha hne
  rw [runTimed_eq]
  revert hr
  generalize synthTimed _ _ _ _ = r
  intro hr
  cases r with
  | ok r => exact .synth ch r _ h hr
  | error f => exact .synthFault ch f _ h hr

theorem runDc_move {s : State} {ch : Channel} (h : s.seq = .busy (.rearm ch)) (ha : Safety.ampOf s ch = 0) :
    SeqMove s (runDc Config.params ch s) := by
  have hr := Synthesis.dc (s := s) (ch := ch) ha
  rw [runDc_eq]
  revert hr
  generalize synthDc _ = r
  intro hr
  cases r with
  | ok r => exact .synth ch r 1 h hr
  | error f => exact .synthFault ch f 1 h hr

/-- The line taken, decoded and run: its command's first rule step, or its no-op. -/
theorem decode_move {s : State} {raw : List Byte} (hs : s.seq = .busy (.decode raw)) :
    ∃ t, runFetched (.line raw) s = .next t ∧ SeqMove s t := by
  simp only [runFetched, decode]
  cases hd : decodeLine raw with
  | error code => exact ⟨_, rfl, .noOp raw code hs (.inl hd)⟩
  | ok i =>
    rcases decodeLine_ok_cases hd with ⟨f, rfl⟩ | ⟨f, rfl⟩ | ⟨f, rfl⟩ | rfl | ⟨cv, rfl⟩ | rfl
    · exact ⟨_, rfl, .generator raw .one f hs (.inl ⟨rfl, hd⟩)⟩
    · exact ⟨_, rfl, .generator raw .two f hs (.inr ⟨rfl, hd⟩)⟩
    · exact ⟨_, rfl, .m1 raw f hs hd⟩
    · exact ⟨_, rfl, .read 0 0 0 (.inl ⟨raw, rfl, rfl, rfl, hs, hd⟩)⟩
    · refine ⟨_, rfl, ?_⟩
      unfold forwardSupply
      split
      · next h0 => subst h0; exact .dzZero raw hs hd
      · next h0 => exact .dz raw cv hs hd h0
    · exact ⟨_, rfl, .noOp raw .tag hs (.inr ⟨hd, rfl⟩)⟩

/-- The selected synthesis of channel `ch`, run. -/
theorem synth_move {s : State} {ch : Channel} (hs : s.seq = .busy (.rearm ch)) :
    ∃ t, runFetched (synthSelection Config.params ch s) s = .next t ∧ SeqMove s t := by
  simp only [runFetched, synthSelection, decode, decodeSynth]
  have hz := isZero_iff Config.params (s.wave.get ch).amp
  by_cases ha : Config.params.isZero (s.wave.get ch).amp = true
  · rw [if_pos ha]
    exact ⟨_, rfl, runDc_move hs (hz.mp ha)⟩
  · rw [if_neg ha]
    have hne : Safety.ampOf s ch ≠ 0 := fun h => ha (hz.mpr h)
    cases hsh : (s.wave.get ch).shape with
    | sine => exact ⟨_, rfl, runTimed_move hs hne hsh (by simp)⟩
    | cosine => exact ⟨_, rfl, runTimed_move hs hne hsh (by simp)⟩
    | triangle => exact ⟨_, rfl, runTimed_move hs hne hsh (by simp)⟩
    | sawtooth => exact ⟨_, rfl, runTimed_move hs hne hsh (by simp)⟩
    | none =>
      refine ⟨_, rfl, ?_⟩
      have := SeqMove.synth ch .hold 0 hs (.hold hne hsh)
      simpa [Env.useBand, synthesized, goOn_eq] using this

theorem seqInternal_busy {P : Params} {s : State} {q : SeqStep} (h : s.seq = .busy q) :
    seqInternal P s = busyStep P q s := by rw [seqInternal, h]

/-- A step of the stream. -/
theorem streamStep_move {s : State} {k : Nat}
    (h : (k = 0 ∧ s.seq = .busy .capture ∧ s.cap = .off) ∨ s.seq = .busy (.stream k)) :
    SeqMove s (streamStep Config.params k s) := by
  by_cases hk : k < streamLen
  · rw [streamStep_eq hk]
    exact .stream k h _ (List.getElem?_eq_getElem _)
  · rw [streamStep_end (not_lt.mp hk)]
    rcases h with ⟨rfl, -⟩ | h
    · exact absurd (by decide) hk
    · exact .streamEnd k h (not_lt.mp hk)

/-- Everything a step of the sequencer can do; it always answers a next state. -/
theorem seqStep_move (s : State) : ∃ t, seqStep s = .next t ∧ SeqMove s t := by
  unfold seqStep fetch
  cases hs : s.seq with
  | faulted => exact ⟨_, rfl, by simpa [seqInternal, hs] using SeqMove.idle (.inl hs)⟩
  | ready =>
    cases hq : s.rxq with
    | nil => exact ⟨_, rfl, by simpa [seqInternal, awaitLine, hs, hq] using SeqMove.idle (.inr (.inl ⟨hs, hq⟩))⟩
    | cons raw rest =>
      exact ⟨_, rfl, by
        simpa [seqInternal, awaitLine, hs, hq, takeLine, goOn_eq, State.setRxq, State.setLastErr] using
          SeqMove.take raw rest hs hq⟩
  | busy q =>
    cases q with
    | decode raw => exact decode_move hs
    | rearm ch => exact synth_move hs
    | startup => exact ⟨_, rfl, by rw [seqInternal_busy hs]; exact .startup hs⟩
    | rearmBegin => exact ⟨_, rfl, by rw [seqInternal_busy hs]; exact .rearmBegin hs⟩
    | install ch r =>
      refine ⟨_, rfl, ?_⟩
      rw [seqInternal_busy hs, busyStep]
      by_cases hr : Safety.RateOk s ch r
      · rw [install_ok hr]
        exact .install ch r hs hr
      · obtain ⟨⟨buf, rfl⟩, he⟩ := install_fault hr
        rw [he]
        exact .installFault ch buf hs hr
    | rearmEnd => exact ⟨_, rfl, by rw [seqInternal_busy hs]; exact .rearmEnd hs⟩
    | afeEvent f ch => exact ⟨_, rfl, by rw [seqInternal_busy hs]; exact .afeEvent f ch hs⟩
    | afeSecond f => exact ⟨_, rfl, by rw [seqInternal_busy hs]; exact .afeSecond f hs⟩
    | captureStart rate =>
      refine ⟨_, rfl, ?_⟩
      rw [seqInternal_busy hs, busyStep]
      rcases captureStart_cases Config.params rate s with ⟨hr, he⟩ | ⟨hr, he⟩ <;> rw [he]
      · exact .captureStart rate hs hr
      · exact .captureFault rate hs hr
    | capture =>
      refine ⟨_, rfl, ?_⟩
      rw [seqInternal_busy hs, busyStep]
      rcases awaitCapture_cases Config.params s with ⟨hc, he⟩ | ⟨hc, he⟩ <;> rw [he]
      · exact .idle (.inr (.inr ⟨hs, hc⟩))
      · exact streamStep_move (.inl ⟨rfl, hs, hc⟩)
    | stream k => exact ⟨_, rfl, by rw [seqInternal_busy hs]; exact streamStep_move (.inr hs)⟩
    | reads j sA sB => exact ⟨_, rfl, by rw [seqInternal_busy hs]; exact .read j sA sB (.inr hs)⟩
    | respond bytes =>
      cases bytes with
      | nil => exact ⟨_, rfl, by rw [seqInternal_busy hs]; exact .respondEnd hs⟩
      | cons b rest => exact ⟨_, rfl, by rw [seqInternal_busy hs]; exact .respond b rest hs⟩
    | complete => exact ⟨_, rfl, by rw [seqInternal_busy hs]; exact .complete hs⟩

/-- What a turn that answers a next state can have done. -/
inductive TurnMove (s : State) : Turn → State → Prop where
  | sequencer (t : State) (h : SeqMove s t) : TurnMove s .sequencer t
  | line (raw : List Byte) : TurnMove s (.line raw) (lineArrives raw s)
  | tickDac (ch : Channel) (t : State) (h : Machine.tickDac ch s = .next t) : TurnMove s (.tickDac ch) t
  | tickCap : TurnMove s .tickCap (Machine.tickCap s)
  | glitch (ch : Channel) (v : Code) : TurnMove s (.glitch ch v) (Machine.glitch ch v s)
  | capTimeout : TurnMove s .capTimeout s
  | powerOn : TurnMove s .powerOn (State.resetWith Config.params s.env)

/-- Everything a step can do. -/
theorem step_move {s t : State} (h : step s = .next t) : TurnMove (popTurn s) (nextTurn s) t := by
  unfold step at h
  cases hn : nextTurn s with
  | sequencer =>
    rw [hn] at h
    obtain ⟨t', ht, hm⟩ := seqStep_move (popTurn s)
    rw [takeTurn, ht] at h
    cases h
    exact .sequencer _ hm
  | line raw => rw [hn] at h; cases h; exact .line raw
  | tickDac ch => rw [hn] at h; exact .tickDac ch t h
  | tickCap => rw [hn] at h; cases h; exact .tickCap
  | glitch ch v => rw [hn] at h; cases h; exact .glitch ch v
  | capTimeout =>
    rw [hn] at h
    simp only [takeTurn, Machine.capTimeout, Config.capTimeoutEnabled] at h
    cases h
    exact .capTimeout
  | powerOn => rw [hn] at h; cases h; exact .powerOn

/-! ### A sequencer's turn -/

theorem step_sequencer {s : State} (h : nextTurn s = .sequencer) : step s = seqStep (popTurn s) := by
  rw [step, h]
  rfl

/-- The line that was taken is decoded and run (R140). -/
theorem step_decode {s : State} {raw : List Byte} (h : nextTurn s = .sequencer) (hs : s.seq = .busy (.decode raw)) :
    step s = runFetched (.line raw) (popTurn s) := by
  rw [step_sequencer h, seqStep, fetch, show (popTurn s).seq = s.seq from rfl, hs]

/-- The selection of channel `ch` is decoded and run (R217). -/
theorem step_rearm {s : State} {ch : Channel} (h : nextTurn s = .sequencer) (hs : s.seq = .busy (.rearm ch)) :
    step s = runFetched (synthSelection Config.params ch s) (popTurn s) := by
  rw [step_sequencer h, seqStep, fetch, show (popTurn s).seq = s.seq from rfl, hs]
  rfl

/-- What the selection of a channel decodes to. -/
theorem decode_synthSelection (s : State) (ch : Channel) :
    decode (synthSelection Config.params ch s) = .ok (Safety.selected s ch) := by
  have hz : Config.params.isZero (s.wave.get ch).amp = true ↔ Safety.ampOf s ch = 0 := isZero_iff _ _
  simp only [synthSelection, decode, decodeSynth, Safety.selected]
  by_cases ha : Safety.ampOf s ch = 0
  · rw [if_pos (hz.mpr ha), if_pos ha]
  · rw [if_neg (fun h => ha (hz.mp h))]
    cases (s.wave.get ch).shape <;> exact congrArg Except.ok (if_neg ha).symm

/-- Ready, the sequencer holds for a line or takes one. -/
theorem step_ready {s : State} (h : nextTurn s = .sequencer) (hs : s.seq = .ready) :
    step s = .next (awaitLine (popTurn s)) := by
  rw [step_sequencer h, seqStep, fetch, show (popTurn s).seq = s.seq from rfl, hs]
  simp only [seqInternal, show (popTurn s).seq = s.seq from rfl, hs]

/-- Every other rule step decodes nothing. -/
theorem step_busy {s : State} {q : SeqStep} (h : nextTurn s = .sequencer) (hs : s.seq = .busy q)
    (hq : (∀ raw, q ≠ .decode raw) ∧ ∀ ch, q ≠ .rearm ch) :
    step s = .next (busyStep Config.params q (popTurn s)) := by
  have hf : fetch (popTurn s) = none := by
    rw [fetch, show (popTurn s).seq = s.seq from rfl, hs]
    cases q <;> first | rfl | exact absurd rfl (hq.1 _) | exact absurd rfl (hq.2 _)
  rw [step_sequencer h, seqStep, hf]
  exact congrArg Host.Outcome.next (seqInternal_busy (s := popTurn s) hs)

/-! ### The list of turns -/

/-- With no turn listed it is the sequencer's turn. -/
theorem nextTurn_of_nil {s : State} (h : s.env.turns = []) : nextTurn s = .sequencer := by simp [nextTurn, h]

theorem popTurn_of_nil {s : State} (h : s.env.turns = []) : popTurn s = s := by
  have he : { s.env with turns := s.env.turns.tail } = s.env := by
    cases hE : s.env
    simp_all
  unfold popTurn
  rw [he]
  rfl

/-- A step takes its turn off the list, and puts none on it. -/
theorem step_turns {s t : State} (h : step s = .next t) : t.env.turns = s.env.turns.tail := by
  have hm := step_move h
  generalize nextTurn s = turn at hm
  change t.env.turns = (popTurn s).env.turns
  generalize popTurn s = s' at hm
  cases hm with
  | sequencer _ hm => cases hm <;> rfl
  | line raw => unfold lineArrives; split <;> rfl
  | tickDac ch _ ht =>
    rcases tickDac_cases ht with ⟨-, rfl⟩ | ⟨buf, rate, idx, hi, -, rfl⟩
    · rfl
    · rfl
  | tickCap =>
    rcases tickCap_cases s' with he | ⟨k, rate, hk, -, he⟩ <;> exact congrArg (·.env.turns) he
  | glitch ch v => unfold Machine.glitch; split <;> rfl
  | capTimeout => rfl
  | powerOn => rfl

/-! ### Runs -/

theorem core_run_succ (M : Host.Core) {k : Nat} {s t : M.State} (h : M.step s = .next t) :
    M.run (k + 1) s = M.run k t := by
  simp only [Host.Core.run, h]

/-- A run of no step. -/
theorem runs_zero (s : State) : Safety.Runs 0 s s := rfl

/-- A run of one step more: its first step, and the run from there. -/
theorem runs_succ {k : Nat} {s t u : State} (h : step s = .next t) : Safety.Runs (k + 1) s u ↔ Safety.Runs k t u := by
  rw [Safety.Runs, core_run_succ Sys2Proof.core h, Safety.Runs]

theorem core_run_next (M : Host.Core) {k : Nat} {s u : M.State} (h : M.run (k + 1) s = .next u) :
    ∃ t, M.step s = .next t := by
  simp only [Host.Core.run] at h
  cases hs : M.step s with
  | next t => exact ⟨t, rfl⟩
  | fault r => rw [hs] at h; cases h
  | refused r => rw [hs] at h; cases h

theorem runs_succ_iff {k : Nat} {s u : State} : Safety.Runs (k + 1) s u ↔ ∃ t, step s = .next t ∧ Safety.Runs k t u := by
  constructor
  · intro h
    obtain ⟨t, ht⟩ := core_run_next Sys2Proof.core h
    exact ⟨t, ht, (runs_succ ht).mp h⟩
  · rintro ⟨t, ht, h⟩
    exact (runs_succ ht).mpr h

theorem runs_one {s t : State} : Safety.Runs 1 s t ↔ step s = .next t := by
  rw [show (1 : Nat) = 0 + 1 from rfl, runs_succ_iff]
  constructor
  · rintro ⟨u, h, hu⟩
    cases hu
    exact h
  · intro h
    exact ⟨t, h, runs_zero t⟩

/-- Two runs, one after the other. -/
theorem runs_add {j k : Nat} {s t u : State} (h : Safety.Runs j s t) (h' : Safety.Runs k t u) :
    Safety.Runs (j + k) s u := by
  induction j generalizing s with
  | zero =>
    cases h
    rwa [Nat.zero_add]
  | succ j ih =>
    obtain ⟨v, hv, hr⟩ := runs_succ_iff.mp h
    rw [show j + 1 + k = (j + k) + 1 by omega]
    exact (runs_succ hv).mpr (ih hr)

end Sys2Proof.Machine
end

