-- ==== Sys2Proof/Tests/Slice0.lean ====
section
/-! SUPPORT. The model's own tests. Expected values are the spec's (spec/95_test_vectors.md, its row or program named at
each test, under the test instance of its section 0) or hand calculation from the cited rule; and, for every statement
with hypotheses, a witness that meets them. -/

namespace Sys2Proof.Tests

open Sys2Proof.Machine Sys2Proof.Safety

/-! ### Helpers -/

/-- The test instance of spec/95_test_vectors.md section 0. -/
def testParams : Params :=
  { reals := none, calAmp := fun _ r => .rat r, calOff := fun _ r => .rat r, bias := fun _ => .rat 165
    streamEndian := .le, synOver := 192, dacOver := 936000, adcOver := 99999 }

/-- A ready sequencer with nothing waiting. -/
def ready : State := { State.resetWith testParams Env.reset with seq := .ready }

/-- A ready sequencer with one line waiting. -/
def waiting (raw : List Byte) : State := { ready with rxq := [raw] }

/-- Whether `REARM` is true at a rule step (R217). -/
def inWindow : SeqStep → Bool
  | .rearm _ => true
  | .install _ _ => true
  | .rearmEnd => true
  | _ => false

/-- The sequencer is at rule step `q`; both channels are in DC mode at 165. -/
def doing (q : SeqStep) : State := { ready with rearm := inWindow q, seq := .busy q }

/-- Inside a paired re-arm at channel `ch`, both registers holding `w`. -/
def rearming (w : GenReg) (ch : Channel) : State := { doing (.rearm ch) with wave := { one := w, two := w } }

/-- A register that selects DC mode at the level `o`. -/
def level (o : ℚ) : GenReg := { shape := .none, n := 0, freq := 0, amp := .rat 0, off := .rat o }

/-- The same state with other turns to come. -/
def turning (ts : List Turn) (s : State) : State := { s with env := { s.env with turns := ts } }

/-- The same state with the draws of the code band lined up. -/
def drawing (bs : List Bool) (s : State) : State := { s with env := { s.env with band := bs } }

/-- The same state with ADC values lined up. -/
def reading (vs : List Sample) (s : State) : State := { s with env := { s.env with adc := vs } }

/-- Channel 1 plays the buffer of V97. -/
def playing (idx : Nat) : State := { ready with pb := { ready.pb with one := .timed [2047, 3288, 2047, 806] 4000 idx } }

/-- A capture is running. -/
def capturing (k : Nat) : State := { doing .capture with cap := .running k 1000 }

/-- The sequencer has faulted. -/
def halted : State := faulted ready .capRate none none

/-- The line `s10000400010000100165` of V1. -/
def lineS1 : List Byte :=
  [0x73, 0x31, 0x30, 0x30, 0x30, 0x30, 0x34, 0x30, 0x30, 0x30, 0x31, 0x30, 0x30, 0x30, 0x30, 0x31, 0x30, 0x30, 0x31,
    0x36, 0x35]

/-- The line `s20000400010000100165` of V2. -/
def lineS2 : List Byte :=
  [0x73, 0x32, 0x30, 0x30, 0x30, 0x30, 0x34, 0x30, 0x30, 0x30, 0x31, 0x30, 0x30, 0x30, 0x30, 0x31, 0x30, 0x30, 0x31,
    0x36, 0x35]

/-- The line `m100100001500000160000` of V13. -/
def lineM1 : List Byte :=
  [0x6D, 0x31, 0x30, 0x30, 0x31, 0x30, 0x30, 0x30, 0x30, 0x31, 0x35, 0x30, 0x30, 0x30, 0x30, 0x30, 0x31, 0x36, 0x30,
    0x30, 0x30, 0x30]

/-- The operands of V1. -/
def fieldsS : SFields := { sh := .sine, ns := 4, fq := 1000, ar := 100, or := 165 }

/-- The operands of V13. -/
def fieldsM1 : M1Fields := { fq := 1000, c1 := 0, g1 := 150, o1 := 0, c2 := 0, g2 := 160, o2 := 0 }

/-- The next state's view `f`, if the outcome is a next state. -/
def view {α : Type} (f : State → α) : Host.Outcome State Machine.Fault Machine.Refusal → Option α
  | .next t => some (f t)
  | _ => none

/-! ### WellFormed: each bound refuses a term beyond it (R109) -/

theorem test_wf_s1_ns : (Instr.s1 { fieldsS with ns := 1000 }).wf = false := by decide
theorem test_wf_s1_fq : (Instr.s1 { fieldsS with fq := 10000000 }).wf = false := by decide
theorem test_wf_s1_ar : (Instr.s1 { fieldsS with ar := 10000 }).wf = false := by decide
theorem test_wf_s2_ns : (Instr.s2 { fieldsS with ns := 1000 }).wf = false := by decide
theorem test_wf_m1_fq : (Instr.m1 { fieldsM1 with fq := 1000000 }).wf = false := by decide
theorem test_wf_m1_c1 : (Instr.m1 { fieldsM1 with c1 := 10 }).wf = false := by decide
theorem test_wf_m1_g1 : (Instr.m1 { fieldsM1 with g1 := 1000 }).wf = false := by decide
theorem test_wf_m1_o1 : (Instr.m1 { fieldsM1 with o1 := 1000 }).wf = false := by decide
theorem test_wf_m1_c2 : (Instr.m1 { fieldsM1 with c2 := 10 }).wf = false := by decide
theorem test_wf_m1_g2 : (Instr.m1 { fieldsM1 with g2 := 1000 }).wf = false := by decide
theorem test_wf_m1_o2 : (Instr.m1 { fieldsM1 with o2 := 1000 }).wf = false := by decide
theorem test_wf_dz_cv : (Instr.dz 10000).wf = false := by decide
theorem test_wf_maxima :
    (Instr.s1 { sh := .none, ns := 999, fq := 9999999, ar := 9999, or := 100000 }).wf = true ∧
      (Instr.m1 { fq := 999999, c1 := 9, g1 := 999, o1 := 999, c2 := 9, g2 := 999, o2 := 999 }).wf = true ∧
      (Instr.dz 9999).wf = true := by decide

/-! ### Decoding (V1 to V29) -/

theorem test_decode_s1 : decodeLine lineS1 = .ok (.s1 fieldsS) := by decide
theorem test_decode_s2 : decodeLine lineS2 = .ok (.s2 fieldsS) := by decide
theorem test_decode_m1 : decodeLine lineM1 = .ok (.m1 fieldsM1) := by decide
theorem test_decode_m2 : decodeLine [0x6D, 0x32] = .ok .m2 := by decide
theorem test_decode_dz : decodeLine [0x64, 0x7A, 0x30, 0x35, 0x35, 0x30] = .ok (.dz 550) := by decide
/-- V25: a 1-character line. -/
theorem test_decode_one_char : decodeLine [0x78] = .ok .unrecognized := by decide
/-- V23: the tag is case-sensitive. -/
theorem test_decode_capital : decodeLine (0x53 :: lineS1.tail) = .ok .unrecognized := by decide
/-- V3: `s21000800005000060100`, a triangle. -/
theorem test_decode_triangle :
    decodeLine [0x73, 0x32, 0x31, 0x30, 0x30, 0x30, 0x38, 0x30, 0x30, 0x30, 0x30, 0x35, 0x30, 0x30, 0x30, 0x30, 0x36,
      0x30, 0x31, 0x30, 0x30] = .ok (.s2 { sh := .triangle, ns := 8, fq := 500, ar := 60, or := 100 }) := by decide
/-- V12: `s1+0064000100001001`: `+0` is a shape code; the minimum length, with a 1-digit OR. -/
theorem test_decode_shortest :
    decodeLine [0x73, 0x31, 0x2B, 0x30, 0x30, 0x36, 0x34, 0x30, 0x30, 0x30, 0x31, 0x30, 0x30, 0x30, 0x30, 0x31, 0x30,
      0x30, 0x31] = .ok (.s1 { sh := .none, ns := 64, fq := 1000, ar := 100, or := 1 }) := by decide
/-- T7: `s100064001000020000100500`. -/
theorem test_decode_slicing :
    decodeLine [0x73, 0x31, 0x30, 0x30, 0x30, 0x36, 0x34, 0x30, 0x30, 0x31, 0x30, 0x30, 0x30, 0x30, 0x32, 0x30, 0x30,
      0x30, 0x30, 0x31, 0x30, 0x30, 0x35, 0x30, 0x30] =
      .ok (.s1 { sh := .sine, ns := 64, fq := 10000, ar := 2000, or := 100500 }) := by decide
/-- V8, V15, V21: lines shorter than their format. -/
theorem test_decode_short :
    decodeLine (lineS1.take 18) = .error .parse ∧ decodeLine (lineM1.take 8) = .error .parse ∧
      decodeLine [0x64, 0x7A, 0x30, 0x35, 0x35] = .error .parse := by decide
/-- V10, V11, V22: a character that is no digit. -/
theorem test_decode_not_a_digit :
    decodeLine (lineS1.take 17 ++ [0x20, 0x30]) = .error .parse ∧
      decodeLine (lineS1.take 18 ++ [0x78, 0x36, 0x35]) = .error .parse ∧
      decodeLine [0x64, 0x7A, 0x30, 0x35, 0x35, 0x61] = .error .parse := by decide
/-- V26, V28: an empty line, and a byte above 0x7F before the tag is looked at. -/
theorem test_decode_bad_line :
    decodeLine [] = .error .parse ∧ decodeLine (0x6D :: 0x31 :: 0xE9 :: lineM1.drop 3) = .error .parse := by decide
/-- V14, V18, V20, V27: trailing characters are ignored, and one final CR is removed. -/
theorem test_decode_trailing :
    decodeLine (lineM1 ++ [0x31]) = .ok (.m1 fieldsM1) ∧ decodeLine [0x6D, 0x32, 0x78, 0x79, 0x7A] = .ok .m2 ∧
      decodeLine [0x64, 0x7A, 0x30, 0x35, 0x35, 0x30, 0x31] = .ok (.dz 550) ∧
      decodeLine (lineS1 ++ [0x0D]) = .ok (.s1 fieldsS) := by decide
/-- The synthesis selection: the amplitude first (T1, V71), then the shape (R170). -/
theorem test_decode_synth :
    decode (.shape .two true .none) = .ok (.synDc .two) ∧ decode (.shape .two false .none) = .ok (.synNone .two) ∧
      decode (.shape .one false .sine) = .ok (.synSine .one) ∧
      decode (.shape .one false .cosine) = .ok (.synCosine .one) ∧
      decode (.shape .one false .triangle) = .ok (.synTriangle .one) ∧
      decode (.shape .one false .sawtooth) = .ok (.synSawtooth .one) := by decide
/-- The words of the opcode table, written out from its `match` column. -/
theorem test_table_words :
    (decodeTableWord 16 0x7331 matches some (.s1 _)) = true ∧ (decodeTableWord 16 0x7332 matches some (.s2 _)) = true ∧
      (decodeTableWord 16 0x6D31 matches some (.m1 _)) = true ∧ decodeTableWord 16 0x6D32 = some .m2 ∧
      (decodeTableWord 16 0x647A matches some (.dz _)) = true ∧ decodeTableWord 16 0x0000 = some .unrecognized ∧
      decodeTableWord 16 0x3030 = some (.synSine .one) ∧ decodeTableWord 16 0x3031 = some (.synCosine .one) ∧
      decodeTableWord 16 0x3130 = some (.synTriangle .one) ∧ decodeTableWord 16 0x3131 = some (.synSawtooth .one) := by
  decide
/-- The line of P3.4 and half of the next one, as bytes from the host (R100). -/
theorem test_frame :
    frame [0x64, 0x7A, 0x30, 0x35, 0x35, 0x30, 0x0A, 0x6D] = [[0x64, 0x7A, 0x30, 0x35, 0x35, 0x30]] := by decide
/-- R114: the canonical lines of V1, V13 and V19. -/
theorem test_encode :
    encode (.s1 fieldsS) = .line lineS1 ∧ encode (.m1 fieldsM1) = .line lineM1 ∧
      encode (.dz 550) = .line [0x64, 0x7A, 0x30, 0x35, 0x35, 0x30] := by decide

/-! ### Synthesis (V40 to V82), with the lower and then the upper choice in the band -/

/-- A timed synthesis of rational amplitude and offset under the test instance, sample `i` drawing `choice i`. -/
def samples (sh : Shape) (a o : ℚ) (n : Nat) (choice : Nat → Bool) : Except SynFault SynResult :=
  synthTimed testParams sh n (fun i => dacCode testParams (choice i) (.wave sh (.rat a) (.rat o) n i))

/-- DC mode at a rational offset under the test instance. -/
def constant (o : ℚ) (up : Bool) : Except SynFault SynResult := synthDc (dacCode testParams up (.dc (.rat o)))

/-- V40. -/
theorem test_sine : samples .sine 100 165 4 (fun _ => false) = .ok (.timed [2047, 3288, 2047, 806]) := by
  decide +kernel
/-- V65: the first sample out of range is index 3. -/
theorem test_sine_range : samples .sine 100 50 4 (fun _ => true) = .error { code := .dacRange, idx := some 3 } := by
  decide +kernel
/-- V45: an irrational argument on every second sample. -/
theorem test_cosine : samples .cosine 100 165 6 (fun _ => false) =
    .ok (.timed [3288, 2667, 1427, 806, 1427, 2667]) := by decide +kernel
/-- V61: the code band at samples 1 and 3. -/
theorem test_cosine_band : samples .cosine 10 110 4 (fun i => i == 1) = .ok (.timed [1489, 1365, 1240, 1364]) := by
  decide +kernel
/-- V42 (T2). -/
theorem test_triangle : samples .triangle 100 165 8 (fun _ => false) =
    .ok (.timed [806, 1427, 2047, 2667, 3288, 2667, 2047, 1427]) := by decide +kernel
/-- V66, V67: the count is checked before the parity. -/
theorem test_triangle_checks :
    samples .triangle 100 165 5 (fun _ => false) = .error { code := .synTriOdd, idx := none } ∧
      samples .triangle 100 165 1 (fun _ => false) = .error { code := .synCount, idx := none } := by decide +kernel
/-- V55: a negative amplitude is a falling ramp. -/
theorem test_sawtooth : samples .sawtooth (-100) 165 4 (fun _ => true) = .ok (.timed [3288, 2667, 2047, 1427]) := by
  decide +kernel
/-- V60: a level below zero that truncates to 0. -/
theorem test_sawtooth_below_zero : samples .sawtooth (1 / 2) (9 / 20) 2 (fun _ => false) = .ok (.timed [0, 5]) := by
  decide +kernel
/-- V72, V75 both ways, V77. -/
theorem test_dc :
    constant 165 true = .ok (.dc 2047) ∧ constant 330 false = .ok (.dc 4094) ∧ constant 330 true = .ok (.dc 4095) ∧
      constant (-1) true = .error { code := .dacRange, idx := some 0 } := by decide +kernel
/-- V78 and V79 both ways, V81. -/
theorem test_dc_edges :
    constant (-22 / 273) true = .ok (.dc 0) ∧
      constant (-22 / 273) false = .error { code := .dacRange, idx := some 0 } ∧
      constant (4096 * 22 / 273) false = .ok (.dc 4095) ∧
      constant (4096 * 22 / 273) true = .error { code := .dacRange, idx := some 0 } ∧
      constant (220015 / 10000) false = .ok (.dc 273) := by decide +kernel
/-- V71: a zero amplitude gives way to nothing, NONE included: the step of the re-arm synthesizes the offset. -/
theorem test_dc_step :
    view State.seq (step (rearming (level 100) .two)) = some (.busy (.install .two (.dc 1240))) := by decide +kernel
/-- R181. -/
theorem test_none_step :
    view State.seq (step (rearming { level 100 with amp := .rat 7 } .two)) = some (.busy (.install .two .hold)) := by
  decide +kernel

/-! ### Installing (V90 to V96) -/

/-- V96: NONE keeps the DAC's code and stops the timer. -/
theorem test_hold :
    view (fun t => (t.pb.two, t.dac.two, t.seq))
      (step { doing (.install .two .hold) with
        pb := { ready.pb with two := .timed [806, 3288] 2000 1 }
        dac := { ready.dac with two := some 806 } }) =
      some (.stopped, some 806, .busy .rearmEnd) := by decide
/-- V90 and V91, under the test instance. -/
theorem test_arm_rate :
    (armTimed testParams .one [2047, 3288, 2047, 806] (rearming { level 165 with freq := 1000 } .one)).pb.one =
        .timed [2047, 3288, 2047, 806] 4000 0 ∧
      (armTimed testParams .one [2047, 3288, 2047, 806] (rearming (level 165) .one)).fault =
        some { code := .playRate, ch := some .one, idx := none } := by decide
/-- V92, V93: 64 samples at 15625 Hz are exactly the largest rate. -/
theorem test_arm_limit : dacRateOk testParams (15625 * 64) = true ∧ dacRateOk testParams (15625 * 64 + 1) = false := by
  decide

/-! ### The other instructions -/

/-- R214: the register of channel 2 alone is written, and the re-arm follows. -/
theorem test_s2_register :
    view (fun t => ((t.wave.two.shape, t.wave.two.n, t.wave.two.freq), t.wave.one.n, t.rearm, t.seq))
      (exec (.s2 fieldsS) ready) = some ((.sine, 4, 1000), 64, false, .busy .rearmBegin) := by decide
/-- R214, on channel 1. -/
theorem test_s1_register :
    view (fun t => ((t.wave.one.shape, t.wave.one.n, t.wave.one.freq), t.wave.two.n, t.rearm, t.seq))
      (exec (.s1 fieldsS) ready) = some ((.sine, 4, 1000), 64, false, .busy .rearmBegin) := by decide
/-- V110: the two events, and the start of the capture; the rate of V115 is refused by a fault. -/
theorem test_m1 :
    view State.afeLog (step (doing (.afeEvent fieldsM1 .one))) = some [⟨.one, 0, 150, 0⟩] ∧
      view State.afeLog (step (doing (.afeEvent fieldsM1 .two))) = some [⟨.two, 0, 160, 0⟩] := by decide
theorem test_m1_rate :
    (captureStart testParams 1000 ready).cap = .running 0 1000 ∧
      (captureStart testParams 200000 ready).fault = some { code := .capRate, ch := none, idx := none } := by decide
/-- V117, V118, V119: the averages; and A is read first (R259, R260). -/
theorem test_m2_averages :
    averageBytes testParams 10 25 = [0x01, 0x00, 0x02, 0x00] ∧ average 655350 = 0xFFFF ∧ average 9 = 0 := by decide
theorem test_m2_reads :
    view State.seq (exec .m2 (reading [1, 2] ready)) = some (.busy (.reads 1 1 0)) ∧
      view State.seq (step (reading [2] (doing (.reads 1 1 0)))) = some (.busy (.reads 2 1 2)) := by decide
/-- V111: the last word of `CAPA`, then the first of `CAPB`; V112: the other byte order. -/
theorem test_stream :
    (streamStep testParams 1998 { ready with capA := captureReset.set 999 0x03E7 }).tx = [0xE7] ∧
      (streamStep testParams 1999 { ready with capA := captureReset.set 999 0x03E7 }).tx = [0x03] ∧
      (streamStep testParams 2000 { ready with capB := captureReset.set 0 0x0FFF }).tx = [0xFF] ∧
      (streamStep { testParams with streamEndian := .be } 2000
        { ready with capB := captureReset.set 0 0x0FFF }).tx = [0x0F] := by decide +kernel
/-- P3 line 4, and V136. -/
theorem test_dz :
    view (fun t => (t.supplyLog, t.seq)) (exec (.dz 550) ready) = some ([550], .busy .complete) ∧
      view (fun t => (t.supplyLog, t.fault)) (exec (.dz 0) ready) =
        some ([], some { code := .supplyZero, ch := none, idx := none }) := by decide
/-- V24: the step that decodes `x1abc`. -/
theorem test_unrecognized :
    view (fun t => (t.lastErr, t.seq)) (step (doing (.decode [0x78, 0x31, 0x61, 0x62, 0x63]))) =
      some (some .tag, .ready) := by decide
/-- R140: the step before it. -/
theorem test_take :
    view (fun t => (t.rxq, t.seq)) (step (waiting lineM1)) = some ([], .busy (.decode lineM1)) := by decide
/-- V111, V112: the words 0x03E7 and 0x0FFF. -/
theorem test_word_bytes :
    responseBytes .le [0x03E7, 0x0FFF] = [0xE7, 0x03, 0xFF, 0x0F] ∧
      responseBytes .be [0x03E7, 0x0FFF] = [0x03, 0xE7, 0x0F, 0xFF] := by decide
/-- V97. -/
theorem test_tick_wraps :
    view (fun t => (t.dac.one, t.pb.one)) (step (turning [.tickDac .one] (playing 3))) =
      some (some 806, .timed [2047, 3288, 2047, 806] 4000 0) := by decide
/-- V113: the timeout, if it were enabled. -/
theorem test_timeout :
    (capTimeout true (capturing 999)).lastErr = some .timeout ∧ (capTimeout true (capturing 999)).cap = .off ∧
      (capTimeout false (capturing 999)).cap = .running 999 1000 := by decide

/-! ### The host's two questions, on a word of each of its kinds -/

theorem test_fetch_word_line : view State.lastErr (step (State.reset.withFetchWord 16 0x0000)) = some (some .tag) := by
  decide
theorem test_fetch_word_s1 : view State.seq (step (State.reset.withFetchWord 16 0x7331)) =
    some (.busy .rearmBegin) := by decide
/-! ### Witnesses: a concrete state and operands that meet the hypotheses of each statement, clause by clause -/

/-- A register with amplitude 1 around mid-scale. -/
def small (sh : Shape) (n freq : Nat) : GenReg := { shape := sh, n := n, freq := freq, amp := .rat 1, off := .rat 165 }

theorem small_n (sh : Shape) (n freq : Nat) : (small sh n freq).n = n := rfl
theorem small_freq (sh : Shape) (n freq : Nat) : (small sh n freq).freq = freq := rfl
theorem rearming_get (w : GenReg) (ch ch' : Channel) : (rearming w ch).wave.get ch' = w := by cases ch' <;> rfl

theorem trunc_in_range {x : ℝ} (h0 : 0 ≤ x) (h1 : x < 4096) : InRange (realTrunc x) := by
  rw [realTrunc, if_pos h0]
  have : ⌊x⌋ < 4096 := Int.floor_lt.mpr (by exact_mod_cast h1)
  exact ⟨Int.floor_nonneg.mpr h0, by omega⟩

/-- A level within 1 of 165 is in range, whatever the draw. -/
theorem near_middle {v : ℝ} (h1 : 164 ≤ v) (h2 : v ≤ 166) (up : Bool) : InRange (realCode up v) := by
  unfold realCode
  split
  · apply trunc_in_range <;> simp only [scaled] <;> linarith
  · split <;> apply trunc_in_range <;> simp only [scaled, eps] <;> linarith

/-- Every sample of a wave of amplitude 1 around 165 is in range. -/
theorem small_in_range (sh : Shape) (hsh : sh ≠ .none) (n freq : Nat) (ch : Channel) :
    ∀ j < n, InRange (drawnCode (rearming (small sh n freq) ch) ch sh j) := by
  intro j hj
  have hn : (0 : ℝ) < n := by exact_mod_cast (by omega : 0 < n)
  have hq : (j : ℝ) / n < 1 := (div_lt_one hn).mpr (by exact_mod_cast hj)
  have hq0 : 0 ≤ (j : ℝ) / n := by positivity
  have e2 : 2 * (j : ℝ) / n = 2 * (j / n) := by ring
  have e4 : 4 * (j : ℝ) / n = 4 * (j / n) := by ring
  have hs := Real.neg_one_le_sin (2 * Real.pi * j / n)
  have hs' := Real.sin_le_one (2 * Real.pi * j / n)
  have hc := Real.neg_one_le_cos (2 * Real.pi * j / n)
  have hc' := Real.cos_le_one (2 * Real.pi * j / n)
  rw [drawnCode, sampleLevel, ampOf, offOf, rearming_get]
  apply near_middle <;> cases sh <;>
      simp only [shapeLevel, small, Params.toReal, Number.toReal, Rat.cast_one, Rat.cast_ofNat, e2, e4] <;>
    first
    | exact absurd rfl hsh
    | linarith
    | (split
       · rename_i h
         have : (j : ℝ) / n < 1 / 2 := by rw [div_lt_iff₀ hn]; linarith
         linarith
       · rename_i h
         have : 1 / 2 ≤ (j : ℝ) / n := by rw [le_div_iff₀ hn]; linarith
         linarith)

/-- A sample's code, evaluated by the machine. -/
theorem drawnCode_eval {s : State} {ch : Channel} {sh : Shape} {i : Nat} {c : ℤ} (hi : i < (s.wave.get ch).n)
    (h : sampleCode Config.params ch sh s i = c) : drawnCode s ch sh i = c := by rw [← sampleCode_eq hi, h]

/-- The four timed syntheses, each with its shape. -/
def timedPairs (ch : Channel) : List (Instr × Shape) :=
  [(.synSine ch, .sine), (.synCosine ch, .cosine), (.synTriangle ch, .triangle), (.synSawtooth ch, .sawtooth)]

theorem timedPairs_timed {ch : Channel} {p : Instr × Shape} (h : p ∈ timedPairs ch) : IsTimedSyn p.1 p.2 ch := by
  simp only [timedPairs, List.mem_cons, List.not_mem_nil, or_false] at h
  rcases h with rfl | rfl | rfl | rfl <;> simp [IsTimedSyn]

theorem timedPairs_ne_none {ch : Channel} {p : Instr × Shape} (h : p ∈ timedPairs ch) : p.2 ≠ .none := by
  simp only [timedPairs, List.mem_cons, List.not_mem_nil, or_false] at h
  rcases h with rfl | rfl | rfl | rfl <;> simp

theorem two_le_synNMax : 2 ≤ Config.params.synNMax := by unfold Params.synNMax; omega
theorem three_le_synNMax : 3 ≤ Config.params.synNMax := by unfold Params.synNMax; omega
theorem four_le_synNMax : 4 ≤ Config.params.synNMax := by unfold Params.synNMax; omega
theorem sixtyFour_le_synNMax : 64 ≤ Config.params.synNMax := by unfold Params.synNMax; omega
theorem dacTmrMax_ge : 64000 ≤ Config.params.dacTmrMax := by unfold Params.dacTmrMax; omega
theorem adcTmrMax_ge : 1 ≤ Config.params.adcTmrMax := by unfold Params.adcTmrMax; omega

/-! #### Encoding -/

theorem witness_DecodeEncodeRoundTrip :
    (Instr.s1 { sh := .none, ns := 999, fq := 9999999, ar := 9999, or := 100500 }).wf = true ∧
      (Instr.s2 fieldsS).wf = true ∧ (Instr.m1 fieldsM1).wf = true ∧ Instr.m2.wf = true ∧
      (Instr.dz 9999).wf = true ∧ Instr.unrecognized.wf = true ∧ (Instr.synSine .one).wf = true ∧
      (Instr.synCosine .one).wf = true ∧ (Instr.synTriangle .one).wf = true ∧ (Instr.synSawtooth .one).wf = true ∧
      (Instr.synNone .one).wf = true ∧ (Instr.synDc .two).wf = true := by decide

theorem witness_DecodedOperandsFitTheirFields : decode (.line lineM1) = .ok (.m1 fieldsM1) := by decide

theorem witness_LineFeedEndsALine : lf ∉ lineS1 ∧ lf ∉ ([] : List Byte) ∧ lineS1.getLast? ≠ some cr := by decide

/-- Each of the six forms of a malformed line, a short line being one character short of its format. -/
theorem witness_MalformedLineIsNoOp :
    (∀ raw : List Byte, nextTurn (doing (.decode raw)) = .sequencer ∧ (doing (.decode raw)).seq = .busy (.decode raw)) ∧
      stripCr [cr] = [] ∧ (∃ b ∈ stripCr [0x6D, 0x80], 0x80 ≤ b.toNat) ∧
      ((stripCr (lineS1.take 18)).take 2 = [0x73, 0x31] ∧ (stripCr (lineS1.take 18)).length < 19) ∧
      ((stripCr (lineS2.take 18)).take 2 = [0x73, 0x32] ∧ (stripCr (lineS2.take 18)).length < 19) ∧
      ((stripCr (lineM1.take 21)).take 2 = [0x6D, 0x31] ∧ (stripCr (lineM1.take 21)).length < 22) ∧
      ((stripCr [0x64, 0x7A, 0x30, 0x35, 0x35]).take 2 = [0x64, 0x7A] ∧
        (stripCr [0x64, 0x7A, 0x30, 0x35, 0x35]).length < 6) :=
  ⟨fun _ => ⟨rfl, rfl⟩, by decide, by decide, by decide, by decide, by decide, by decide⟩

/-- A slash and a colon, the neighbours of the digits, in the last place of a decimal field of each format. -/
theorem witness_DecimalFieldsAreDigitsOnly :
    (¬(0x30 ≤ (0x2F : Byte).toNat ∧ (0x2F : Byte).toNat ≤ 0x39) ∧
      ¬(0x30 ≤ (0x3A : Byte).toNat ∧ (0x3A : Byte).toNat ≤ 0x39)) ∧
      ((stripCr (lineS1 ++ [0x2F])).take 2 = [0x73, 0x31] ∧ 0x2F ∈ (stripCr (lineS1 ++ [0x2F])).drop 4) ∧
      ((stripCr (lineS2 ++ [0x3A])).take 2 = [0x73, 0x32] ∧ 0x3A ∈ (stripCr (lineS2 ++ [0x3A])).drop 4) ∧
      ((stripCr (lineM1.take 21 ++ [0x3A])).take 2 = [0x6D, 0x31] ∧
        0x3A ∈ chars (stripCr (lineM1.take 21 ++ [0x3A])) 2 22) ∧
      ((stripCr [0x64, 0x7A, 0x30, 0x35, 0x35, 0x2F]).take 2 = [0x64, 0x7A] ∧
        0x2F ∈ chars (stripCr [0x64, 0x7A, 0x30, 0x35, 0x35, 0x2F]) 2 6) ∧
      ((stripCr (lineS1.take 18)).take 2 = [0x73, 0x31] ∧ (stripCr (lineS1.take 18)).drop 18 = []) ∧
      ((stripCr (lineS2.take 18)).take 2 = [0x73, 0x32] ∧ (stripCr (lineS2.take 18)).drop 18 = []) ∧
      decField [0x30, 0x39] = some 9 ∧ 0x30 ≤ (0x30 : Byte).toNat ∧ (0x39 : Byte).toNat ≤ 0x39 := by decide

theorem witness_TrailingCharactersAreIgnored :
    (∀ b ∈ lineM1 ++ [0x31], b.toNat < 0x80) ∧
      (lineM1.take 2 = [0x6D, 0x31] ∧ lineM1.length = 22) ∧
      (∀ b ∈ ([0x6D, 0x32, 0x7F] : List Byte), b.toNat < 0x80) ∧
      ([0x64, 0x7A, 0x30, 0x35, 0x35, 0x30] : List Byte).take 2 = [0x64, 0x7A] ∧
      (∀ b ∈ ([0x64, 0x7A, 0x30, 0x35, 0x35, 0x30, 0x31] : List Byte), b.toNat < 0x80) := by decide

theorem witness_TagIsExact :
    badLine (stripCr [0x78]) = false ∧ badLine (stripCr lineS1) = false ∧ badLine (stripCr [0x53, 0x31]) = false := by
  decide

theorem witness_ShapeFieldNeverFails :
    (lineS1.drop 2).take 2 = [0x30, 0x30] ∧ decodeS lineS1 = some fieldsS := by decide

/-! #### The sequencer -/

theorem witness_StepRunsDecodedLine :
    nextTurn (doing (.decode lineS1)) = .sequencer ∧ (doing (.decode lineS1)).seq = .busy (.decode lineS1) ∧
      decode (.line lineS1) = .ok (.s1 fieldsS) := ⟨rfl, rfl, by decide⟩

theorem witness_StepRunsSelectedSynthesis (ch : Channel) (w : GenReg) :
    nextTurn (rearming w ch) = .sequencer ∧ (rearming w ch).seq = .busy (.rearm ch) := ⟨rfl, rfl⟩

theorem witness_NoOpLineChangesNothingElse :
    (∀ raw, nextTurn (waiting raw) = .sequencer ∧ nextTurn (popTurn (waiting raw)) = .sequencer ∧
      (waiting raw).seq = .ready ∧ (waiting raw).rxq = [raw]) ∧
      decode (.line []) = .error .parse ∧ decode (.line [0x78]) = .ok .unrecognized :=
  ⟨fun _ => ⟨rfl, rfl, rfl, rfl⟩, by decide, by decide⟩

theorem witness_SequencerTakesALine :
    (nextTurn ready = .sequencer ∧ ready.seq = .ready ∧ ready.rxq = []) ∧
      (nextTurn (waiting lineM1) = .sequencer ∧ (waiting lineM1).seq = .ready ∧ (waiting lineM1).rxq = [lineM1]) ∧
      (nextTurn (doing .complete) = .sequencer ∧ (doing .complete).seq = .busy .complete) ∧
      nextTurn (turning [.line lineS1] halted) = .line lineS1 ∧ lf ∉ lineS1 :=
  ⟨⟨rfl, rfl, rfl⟩, ⟨rfl, rfl, rfl⟩, ⟨rfl, rfl⟩, rfl, by decide⟩

/-- The invariant holds at every rule step that holds legal values, in the window or out of it as R217 says. -/
theorem doing_inv {q : SeqStep} (h : StepOk Config.params q) : Inv Config.params (doing q) := by
  refine ⟨fun ch => ?_, fun ch => ?_, fun ch => ?_, trivial, fun q' e => ?_, fun h => absurd rfl h, ?_, ?_, ?_, ?_⟩
  · cases ch <;> exact ⟨(by decide : 64 ≤ 999), (by decide : 1000 ≤ 9999999)⟩
  · cases ch <;> exact ⟨Nat.zero_le _, Nat.zero_le _, Nat.zero_le _⟩
  · cases ch <;> trivial
  · cases e
    exact h
  · constructor <;> intro h <;> cases h
  · cases q <;> intro h <;> first | rfl | exact h.elim
  · cases q <;> intro h <;> first | exact .inl trivial | cases h
  · intro raw h
    cases h

/-- A ready sequencer with a line waiting, too. -/
theorem waiting_inv : Inv Config.params (waiting lineM1) := by
  refine ⟨fun ch => ?_, fun ch => ?_, fun ch => ?_, trivial, fun q' e => ?_, fun h => absurd rfl h, ?_, ?_, ?_, ?_⟩
  · cases ch <;> exact ⟨(by decide : 64 ≤ 999), (by decide : 1000 ≤ 9999999)⟩
  · cases ch <;> exact ⟨Nat.zero_le _, Nat.zero_le _, Nat.zero_le _⟩
  · cases ch <;> trivial
  · cases e
  · constructor <;> intro h <;> cases h
  · intro h
    exact h.elim
  · intro h
    cases h
  · intro raw h
    rw [List.mem_singleton.mp h]
    decide

theorem capture_starts :
    step (doing (.captureStart 1)) = .next { doing (.captureStart 1) with cap := .running 0 1, seq := .busy .capture } := by
  have h : captureStart Config.params 1 (doing (.captureStart 1)) =
      { doing (.captureStart 1) with cap := .running 0 1, seq := .busy .capture } := by
    rw [captureStart, if_pos (by simp [capRateOk, adcTmrMax_ge])]
    rfl
  exact congrArg Host.Outcome.next h

/-- A step into each rule step, from states that have the invariant (`doing_inv`, `waiting_inv`). -/
theorem witness_CommandsFollowTheirRules :
    (view State.seq (step (waiting lineM1)) = some (.busy (.decode lineM1)) ∧
      view State.seq (step (doing (.decode lineS1))) = some (.busy .rearmBegin) ∧
      view State.seq (step (doing .startup)) = some (.busy .rearmBegin) ∧
      view State.seq (step (doing .rearmBegin)) = some (.busy (.rearm .one)) ∧
      view State.seq (step (doing (.rearm .one))) = some (.busy (.install .one (.dc 2047))) ∧
      view State.seq (step (doing (.install .one .hold))) = some (.busy (.rearm .two)) ∧
      view State.seq (step (doing (.install .two .hold))) = some (.busy .rearmEnd) ∧
      view State.seq (step (doing .rearmEnd)) = some (.busy .complete) ∧
      view State.seq (step (doing (.decode lineM1))) = some (.busy (.afeEvent fieldsM1 .one)) ∧
      view State.seq (step (doing (.afeEvent fieldsM1 .one))) = some (.busy (.afeSecond fieldsM1)) ∧
      view State.seq (step (doing (.afeSecond fieldsM1))) = some (.busy (.afeEvent fieldsM1 .two)) ∧
      view State.seq (step (doing (.afeEvent fieldsM1 .two))) = some (.busy (.captureStart 1000))) ∧
      view State.seq (step (doing (.captureStart 1))) = some (.busy .capture) ∧
      view State.seq (step (doing .capture)) = some (.busy (.stream 1)) ∧
      view State.seq (step (doing (.stream 3998))) = some (.busy (.stream 3999)) ∧
      view State.seq (step (doing (.stream 3999))) = some (.busy .complete) ∧
      view State.seq (step (reading [7] (doing (.decode [0x6D, 0x32])))) = some (.busy (.reads 1 7 0)) ∧
      view State.seq (step (reading [5] (doing (.reads 18 0 0)))) = some (.busy (.reads 19 5 0)) ∧
      (∃ b, view State.seq (step (reading [5] (doing (.reads 19 0 0)))) = some (.busy (.respond b))) ∧
      view State.seq (step (doing (.respond [1, 2]))) = some (.busy (.respond [2])) ∧
      view State.seq (step (doing (.respond [2]))) = some (.busy .complete) ∧
      view State.seq (step (doing (.decode [0x64, 0x7A, 0x30, 0x35, 0x35, 0x30]))) = some (.busy .complete) := by
  refine ⟨by decide +kernel, by rw [capture_starts]; rfl, ?_⟩
  refine ⟨by decide +kernel, by decide +kernel, by decide +kernel, by decide +kernel, by decide +kernel, ⟨_, rfl⟩,
    by decide +kernel, by decide +kernel, by decide +kernel⟩

/-- Faulted, with a channel playing its last entry and a capture at its last pair. -/
def haltedBusy : State :=
  { halted with pb := { halted.pb with one := .timed [2047, 3288] 4000 1 }, cap := .running 999 1 }

theorem witness_FaultedSequencerStops :
    haltedBusy.seq = .faulted ∧ nextTurn haltedBusy = .sequencer ∧
      (nextTurn (turning [.tickDac .one] haltedBusy) = .tickDac .one ∧
        haltedBusy.pb.get .one = .timed [2047, 3288] 4000 1 ∧ ([2047, 3288] : List Code)[1]? = some 3288) ∧
      (nextTurn (turning [.tickCap] haltedBusy) = .tickCap ∧ haltedBusy.cap = .running 999 1 ∧ 999 < Config.bufSize) :=
  ⟨rfl, rfl, ⟨rfl, rfl, rfl⟩, rfl, rfl, by decide⟩

theorem witness_FaultLastsUntilReset :
    ∃ t, halted.seq = .faulted ∧ nextTurn (turning [.line lineS1] halted) ≠ .powerOn ∧
      step (turning [.line lineS1] halted) = .next t := ⟨_, rfl, by decide, rfl⟩

theorem witness_CaptureBlocksTheSequencer :
    (capturing 999).seq = .busy .capture ∧ (capturing 999).cap ≠ .off ∧ nextTurn (capturing 999) = .sequencer ∧
      ∃ t, step (turning [.tickCap] (capturing 999)) = .next t ∧ t.cap = .off :=
  ⟨rfl, by decide, rfl, _, rfl, rfl⟩

/-- The step of a re-arm with a nonzero amplitude and a timed shape. -/
theorem step_timed {w : GenReg} (ha : Config.params.toReal w.amp ≠ 0) (h : w.shape ≠ .none) (ch : Channel) :
    step (rearming w ch) = .next (runTimed Config.params ch w.shape (rearming w ch)) := by
  have ha' : ampOf (rearming w ch) ch ≠ 0 := by rwa [ampOf, rearming_get]
  rw [step_rearm (ch := ch) rfl rfl, runFetched, decode_synthSelection, selected, if_neg ha', rearming_get]
  cases hs : w.shape <;> first | rfl | exact absurd hs h

theorem step_fault {w : GenReg} (ha : Config.params.toReal w.amp ≠ 0) (h : w.shape ≠ .none) (ch : Channel) {f : SynFault}
    (hf : synthTimed Config.params w.shape w.n (drawnCode (rearming w ch) ch w.shape) = .error f) :
    view State.fault (step (rearming w ch)) = some (some { code := f.code, ch := some ch, idx := f.idx }) := by
  rw [step_timed ha h, runTimed_eq, rearming_get, hf]
  rfl

/-- An amplitude of 1 is not 0. -/
theorem one_amp : Config.params.toReal (.rat 1) ≠ 0 := by simp [Params.toReal, Number.toReal]

/-- A cause of each fault; the records are those of R293. -/
theorem witness_OnlyListedCausesFault :
    view State.fault (step (rearming (small .sine 1 1) .one)) =
        some (some { code := .synCount, ch := some .one, idx := none }) ∧
      view State.fault (step (rearming (small .triangle 3 1) .two)) =
        some (some { code := .synTriOdd, ch := some .two, idx := none }) ∧
      view State.fault (step (rearming ⟨.sawtooth, 2, 1, .rat 1, .rat 0⟩ .one)) =
        some (some { code := .dacRange, ch := some .one, idx := some 0 }) ∧
      view State.fault (step (rearming (level 331) .two)) =
        some (some { code := .dacRange, ch := some .two, idx := some 0 }) ∧
      view State.fault (step { rearming (level 1) .one with seq := .busy (.install .one (.timed [1, 2])) }) =
        some (some { code := .playRate, ch := some .one, idx := none }) ∧
      view State.fault (step (doing (.captureStart 0))) = some (some { code := .capRate, ch := none, idx := none }) ∧
      view State.fault (step (doing (.decode [0x64, 0x7A, 0x30, 0x30, 0x30, 0x30]))) =
        some (some { code := .supplyZero, ch := none, idx := none }) := by
  refine ⟨by decide +kernel, ?_, ?_, by decide +kernel, by decide +kernel, by decide +kernel, by decide +kernel⟩
  · exact step_fault one_amp (by decide) .two (synthTimed_parity ⟨by decide, three_le_synNMax⟩ (by decide))
  · refine step_fault one_amp (by decide) .one (synthTimed_range (k := 0) ⟨by decide, two_le_synNMax⟩ (by decide)
      (by decide) (fun j hj => absurd hj (Nat.not_lt_zero j)) ?_)
    rw [← sampleCode_eq (by decide), InRange]
    decide +kernel

/-! #### The generator -/

/-- Channel 1 plays a sine, channel 2 is in DC mode. -/
theorem witness_PairedRearmInstallsBothChannels :
    ∃ (s s0 s1 : State) (r1 r2 : SynResult) (e1 e2 : Env), s.seq = .busy .rearmBegin ∧ s.env.turns = [] ∧
      s0 = { s with rearm := true, seq := .busy (.rearm .one) } ∧
      exec (selected s0 .one) s0 = .next { s0 with seq := .busy (.install .one r1), env := e1 } ∧ RateOk s .one r1 ∧
      s1 = installed { s0 with env := e1 } .one r1 (.rearm .two) ∧
      exec (selected s1 .two) s1 = .next { s1 with seq := .busy (.install .two r2), env := e2 } ∧ RateOk s .two r2 := by
  let s : State := { doing .rearmBegin with wave := { one := small .sine 2 1, two := level 100 } }
  let s0 : State := { s with rearm := true, seq := .busy (.rearm .one) }
  obtain ⟨buf, hbuf, hlen, -⟩ := synthTimed_buffer (P := Config.params) (sh := .sine) (n := 2)
    (code := drawnCode s0 .one .sine) ⟨le_rfl, two_le_synNMax⟩ (by decide)
    (small_in_range .sine (by decide) 2 1 .one)
  refine ⟨s, s0, _, .timed buf, .dc 1240, s0.env.useBand 2, (s0.env.useBand 2).useBand 1, rfl, rfl, rfl, ?_, ?_, rfl, ?_,
    trivial⟩
  · have h1 : selected s0 .one = .synSine .one := by rw [selected, if_neg (show ampOf s0 .one ≠ 0 from one_amp)]; rfl
    rw [h1]
    refine (congrArg Host.Outcome.next (runTimed_eq .one .sine s0)).trans ?_
    rw [show (s0.wave.get .one).n = 2 from rfl, hbuf]
    rfl
  · have := dacTmrMax_ge
    rw [RateOk, LegalRate, hlen, show (s.wave.get .one).freq = 1 from rfl]
    omega
  · generalize hs1 : installed { s0 with env := s0.env.useBand 2 } .one (.timed buf) (.rearm .two) = s1
    have hw : s1.wave = s.wave := by rw [← hs1]; rfl
    have he : s1.env = s0.env.useBand 2 := by rw [← hs1]; rfl
    have h2 : selected s1 .two = .synDc .two := by
      rw [selected, if_pos]
      rw [ampOf, hw]
      exact Rat.cast_zero
    have h3 : synthDc (offsetCode Config.params .two s1) = .ok (.dc 1240) := by
      rw [offsetCode, hw, he]
      decide +kernel
    rw [h2]
    refine (congrArg (fun r => Host.Outcome.next (synthesized .two r (s1.setEnv (s1.env.useBand 1)))) h3).trans ?_
    rw [he]
    rfl

/-- Both channels in shape NONE with a nonzero amplitude; and a fault of the re-arm, a buffer at 0 hertz. -/
theorem witness_PairedRearmInstallsBothChannels_hold :
    (∃ s0 s1 : State, s0 = rearming (small .none 2 1) .one ∧
      exec (selected s0 .one) s0 = .next { s0 with seq := .busy (.install .one .hold), env := s0.env } ∧
      s1 = installed { s0 with env := s0.env } .one .hold (.rearm .two) ∧
      exec (selected s1 .two) s1 = .next { s1 with seq := .busy (.install .two .hold), env := s1.env }) ∧
      ∃ t, InRearm (State.seq { rearming (level 1) .one with seq := .busy (.install .one (.timed [1])) }) ∧
        step { rearming (level 1) .one with seq := .busy (.install .one (.timed [1])) } = .next t ∧
        t.seq = .faulted := by
  have h : ∀ s : State, s.wave = (rearming (small .none 2 1) .one).wave → ∀ ch, selected s ch = .synNone ch := by
    intro s hs ch
    have hw : s.wave.get ch = small .none 2 1 := by rw [hs, rearming_get]
    rw [selected, if_neg (by rw [ampOf, hw]; exact one_amp), hw]
    rfl
  refine ⟨⟨_, _, rfl, ?_, rfl, ?_⟩, _, trivial, rfl, rfl⟩
  · rw [h (rearming (small .none 2 1) .one) rfl]
    rfl
  · rw [h (installed { rearming (small .none 2 1) .one with env := _ } .one .hold (.rearm .two)) rfl]
    rfl

/-- The four timed shapes, with the smallest wave and with 64 samples at the rate that every timer accepts. -/
theorem witness_TimedSynthesisArmsTheBuffer (ch : Channel) :
    ∀ p ∈ timedPairs ch, ∀ w ∈ [small p.2 2 1, small p.2 64 1000],
      IsTimedSyn p.1 p.2 ch ∧ LegalCount (rearming w ch) ch p.2 ∧
        (∀ j < ((rearming w ch).wave.get ch).n, InRange (drawnCode (rearming w ch) ch p.2 j)) ∧
        LegalRate (((rearming w ch).wave.get ch).freq * ((rearming w ch).wave.get ch).n) ∧
        (rearming w ch).env.turns = [] := by
  intro p hp w hw
  have hne := timedPairs_ne_none hp
  have hd := dacTmrMax_ge
  have h2 := two_le_synNMax
  have h64 := sixtyFour_le_synNMax
  simp only [List.mem_cons, List.not_mem_nil, or_false] at hw
  simp only [LegalCount, LegalRate, rearming_get]
  rcases hw with rfl | rfl
  · exact ⟨timedPairs_timed hp, ⟨le_rfl, h2, fun _ => (by decide : 2 % 2 = 0)⟩, small_in_range _ hne 2 1 ch,
      ⟨(by decide : 1 ≤ 1 * 2), le_trans (by decide : 1 * 2 ≤ 64000) hd⟩, rfl⟩
  · exact ⟨timedPairs_timed hp, ⟨(by decide : 2 ≤ 64), h64, fun _ => (by decide : 64 % 2 = 0)⟩, small_in_range _ hne 64 1000 ch,
      ⟨(by decide : 1 ≤ 1000 * 64), le_trans (by decide : 1000 * 64 ≤ 64000) hd⟩, rfl⟩

/-- One sample, and one more than any `SYN_NMAX` allows. -/
theorem witness_IllegalCountFaults (ch : Channel) :
    ∀ p ∈ timedPairs ch, IsTimedSyn p.1 p.2 ch ∧
      ((rearming (small p.2 1 1) ch).wave.get ch).n < 2 ∧
      Config.params.synNMax < ((rearming (small p.2 1000 1) ch).wave.get ch).n := by
  intro p hp
  have := Config.params.synOver.isLt
  simp only [rearming_get, small_n, Params.synNMax]
  exact ⟨timedPairs_timed hp, by omega, by omega⟩

/-- Three samples, a legal count, and one sample, an illegal one. -/
theorem witness_OddTriangleFaults (ch : Channel) :
    (((rearming (small .triangle 3 1) ch).wave.get ch).n % 2 = 1 ∧
      2 ≤ ((rearming (small .triangle 3 1) ch).wave.get ch).n ∧
      ((rearming (small .triangle 3 1) ch).wave.get ch).n ≤ Config.params.synNMax) ∧
      ((rearming (small .triangle 1 1) ch).wave.get ch).n % 2 = 1 ∧
      ((rearming (small .triangle 1 1) ch).wave.get ch).n < 2 := by
  have := three_le_synNMax
  simp only [rearming_get, small_n]
  exact ⟨⟨trivial, by norm_num, this⟩, trivial, by norm_num⟩

/-- Two or four samples of which the last is out of range, the draws as they come; for the sine, V65; and a cosine whose
sample 1 is at -1 exactly, where the draw of the lower truncation is out of range (V78). -/
theorem witness_FirstSampleOutOfRangeFaults :
    ∀ p ∈ [(Instr.synSine .one, Shape.sine, (⟨.sine, 4, 1, .rat 100, .rat 50⟩ : GenReg), 3),
        (.synCosine .one, .cosine, ⟨.cosine, 2, 1, .rat 100, .rat 50⟩, 1),
        (.synCosine .one, .cosine, ⟨.cosine, 2, 1, .rat 1, .rat (1 - 22 / 273)⟩, 1),
        (.synTriangle .one, .triangle, ⟨.triangle, 2, 1, .rat 100, .rat 300⟩, 1),
        (.synSawtooth .one, .sawtooth, ⟨.sawtooth, 2, 1, .rat (-100), .rat (-50)⟩, 1)],
      IsTimedSyn p.1 p.2.1 .one ∧ LegalCount (drawing [true, false] (rearming p.2.2.1 .one)) .one p.2.1 ∧
        p.2.2.2 < ((drawing [true, false] (rearming p.2.2.1 .one)).wave.get .one).n ∧
        (∀ j < p.2.2.2, InRange (drawnCode (drawing [true, false] (rearming p.2.2.1 .one)) .one p.2.1 j)) ∧
        ¬InRange (drawnCode (drawing [true, false] (rearming p.2.2.1 .one)) .one p.2.1 p.2.2.2) := by
  have h2 := two_le_synNMax
  have h4 := four_le_synNMax
  have key : ∀ (w : GenReg) (sh : Shape) (k : ℕ), k < w.n →
      (∀ j < k, codeInRange (sampleCode Config.params .one sh (drawing [true, false] (rearming w .one)) j) = true) →
      codeInRange (sampleCode Config.params .one sh (drawing [true, false] (rearming w .one)) k) = false →
      k < ((drawing [true, false] (rearming w .one)).wave.get .one).n ∧
        (∀ j < k, InRange (drawnCode (drawing [true, false] (rearming w .one)) .one sh j)) ∧
        ¬InRange (drawnCode (drawing [true, false] (rearming w .one)) .one sh k) := by
    intro w sh k hk hlow hout
    refine ⟨hk, fun j hj => ?_, fun h => ?_⟩
    · rw [← sampleCode_eq (s := drawing [true, false] (rearming w .one)) (show j < w.n by omega)]
      exact (codeInRange_iff _).mp (hlow j hj)
    · rw [← sampleCode_eq (s := drawing [true, false] (rearming w .one)) (show k < w.n from hk)] at h
      rw [(codeInRange_iff _).mpr h] at hout
      cases hout
  intro p hp
  simp only [List.mem_cons, List.not_mem_nil, or_false] at hp
  rcases hp with rfl | rfl | rfl | rfl | rfl
  · exact ⟨by simp [IsTimedSyn], ⟨by decide, h4, by decide⟩, key _ _ _ (by decide) (by decide +kernel) (by decide +kernel)⟩
  · exact ⟨by simp [IsTimedSyn], ⟨by decide, h2, by decide⟩, key _ _ _ (by decide) (by decide +kernel) (by decide +kernel)⟩
  · exact ⟨by simp [IsTimedSyn], ⟨by decide, h2, by decide⟩, key _ _ _ (by decide) (by decide +kernel) (by decide +kernel)⟩
  · exact ⟨by simp [IsTimedSyn], ⟨by decide, h2, by decide⟩, key _ _ _ (by decide) (by decide +kernel) (by decide +kernel)⟩
  · exact ⟨by simp [IsTimedSyn], ⟨by decide, h2, by decide⟩, key _ _ _ (by decide) (by decide +kernel) (by decide +kernel)⟩

/-- Frequency 0; and the largest frequency a command can write with 64 samples needs a timer above 639999936 Hz, so the
upper clause is met in the state whose frequency is one beyond the timer's limit. -/
theorem witness_IllegalPlayRateFaults (ch : Channel) :
    ∀ p ∈ timedPairs ch, ∀ f ∈ [0, Config.params.dacTmrMax],
      IsTimedSyn p.1 p.2 ch ∧ LegalCount (rearming (small p.2 2 f) ch) ch p.2 ∧
        (∀ j < ((rearming (small p.2 2 f) ch).wave.get ch).n,
          InRange (drawnCode (rearming (small p.2 2 f) ch) ch p.2 j)) ∧
        (((rearming (small p.2 2 f) ch).wave.get ch).freq * ((rearming (small p.2 2 f) ch).wave.get ch).n = 0 ∨
          Config.params.dacTmrMax <
            ((rearming (small p.2 2 f) ch).wave.get ch).freq * ((rearming (small p.2 2 f) ch).wave.get ch).n) ∧
        (rearming (small p.2 2 f) ch).env.turns = [] := by
  intro p hp f hf
  have hd := dacTmrMax_ge
  simp only [List.mem_cons, List.not_mem_nil, or_false] at hf
  simp only [LegalCount, rearming_get]
  refine ⟨timedPairs_timed hp, ⟨le_rfl, two_le_synNMax, fun _ => (by decide : 2 % 2 = 0)⟩,
    small_in_range _ (timedPairs_ne_none hp) 2 f ch, ?_, rfl⟩
  simp only [small_n, small_freq]
  omega

theorem witness_SynNoneHoldsTheChannel (ch : Channel) : (rearming (level 1) ch).env.turns = [] := rfl

/-- The offset's code, evaluated by the machine. -/
theorem drawnOffset_in (w : GenReg) (bs : List Bool) (ch : Channel) :
    InRange (drawnOffset (drawing bs (rearming w ch)) ch) ↔
      codeInRange (offsetCode Config.params ch (drawing bs (rearming w ch))) = true := by
  rw [codeInRange_iff, offsetCode_eq]
  rfl

/-- The lowest and the highest DC levels of the range in whole units, and V78 and V79 with the draw that is in range. -/
theorem witness_SynDcDrivesTheOffset :
    ∀ ch ∈ [Channel.one, .two], ∀ p ∈ [(0, false), (330, true), (-22 / 273, true), (4096 * 22 / 273, false)],
      InRange (drawnOffset (drawing [p.2] (rearming (level p.1) ch)) ch) ∧
        (drawing [p.2] (rearming (level p.1) ch)).env.turns = [] := by
  simp only [drawnOffset_in]
  decide +kernel

/-- V76 and V77, and V78 and V79 with the draw that is out of range. -/
theorem witness_SynDcOutOfRangeFaults :
    ∀ ch ∈ [Channel.one, .two], ∀ p ∈ [(331, false), (-1, true), (-22 / 273, false), (4096 * 22 / 273, true)],
      ¬InRange (drawnOffset (drawing [p.2] (rearming (level p.1) ch)) ch) := by
  simp only [drawnOffset_in]
  decide +kernel

/-- Each of the four installs; a buffer's rate is legal at 1 hertz and illegal at 0. -/
theorem witness_InstallPutsTheResultOnTheChannel (ch : Channel) :
    (∀ r, nextTurn (doing (.install ch r)) = .sequencer ∧ (doing (.install ch r)).seq = .busy (.install ch r)) ∧
      LegalRate ((State.wave { doing (.install ch (.timed [1, 2])) with
        wave := { one := small .sine 2 1, two := small .sine 2 1 } } |>.get ch).freq * ([1, 2] : List Code).length) ∧
      ¬LegalRate ((State.wave { doing (.install ch (.timed [1, 2])) with
        wave := { one := level 1, two := level 1 } } |>.get ch).freq * ([1, 2] : List Code).length) := by
  have := dacTmrMax_ge
  refine ⟨fun _ => ⟨rfl, rfl⟩, ?_, ?_⟩
  · rw [show (State.wave _ |>.get ch).freq = 1 by cases ch <;> rfl]
    exact ⟨by decide, by simp; omega⟩
  · rw [show (State.wave _ |>.get ch).freq = 0 by cases ch <;> rfl]
    exact fun h => absurd h.1 (by decide)

theorem witness_DcModeReadsOnlyTheOffset :
    (rearming (level 165) .one).seq = .busy (.rearm .one) ∧
      Config.params.toReal (⟨.sine, 64, 1000, .rat 7, .rat 165⟩ : GenReg).off = offOf (rearming (level 165) .one) .one :=
  ⟨rfl, rfl⟩

/-- V74's level, in the band at 273; and a choice for each of two samples. -/
theorem witness_DacCodeIsTheExactCode :
    (Wanted.dc (.named 3)).Ok ∧ (Wanted.wave .sine (.named 0) (.rat 165) 8 7).Ok ∧ |scaled 22 - (273 : ℤ)| < eps ∧
      1 < [true, false].length := by
  refine ⟨trivial, by simp [Wanted.Ok], ?_, by decide⟩
  simp [scaled, eps]
  norm_num

/-- The ends of each range, and V78's and V79's levels between them. -/
theorem witness_TheDrawDecidesOnlyAtTheEdges :
    SureInRange ((-1 + 1 / 64) * 22 / 273) ∧ SureInRange ((4096 - 1 / 64) * 22 / 273) ∧
      SureOutOfRange ((-1 - 1 / 64) * 22 / 273) ∧ SureOutOfRange ((4096 + 1 / 64) * 22 / 273) ∧
      (∀ o ∈ [(-22 / 273 : ℚ), 4096 * 22 / 273],
        ¬SureInRange (offOf (rearming (level o) .two) .two) ∧ ¬SureOutOfRange (offOf (rearming (level o) .two) .two)) := by
  refine ⟨?_, ?_, ?_, ?_, ?_⟩
  · simp only [SureInRange, scaled, eps]; norm_num
  · simp only [SureInRange, scaled, eps]; norm_num
  · simp only [SureOutOfRange, scaled, eps]; norm_num
  · simp only [SureOutOfRange, scaled, eps]; norm_num
  · intro o ho
    have h : offOf (rearming (level o) .two) .two = o := by rw [offOf, rearming_get]; rfl
    rw [h]
    simp only [List.mem_cons, List.not_mem_nil, or_false] at ho
    rcases ho with rfl | rfl <;> simp only [SureInRange, SureOutOfRange, scaled, eps] <;> norm_num

/-- V42's triangle on both ramps, one period of V40's sine, and two waves of the level 165, outside the band. -/
theorem witness_ShapeLawsHold :
    (8 % 2 = 0 ∧ 3 + 1 < 8 ∧ 3 + 1 ≤ 8 / 2 ∧ 4 + 1 < 8 ∧ ¬4 + 1 ≤ 8 / 2) ∧ 2 ≤ 8 ∧ 1 ≤ 4 ∧
      (Wanted.dc (.rat 165)).Ok ∧ (Wanted.wave .sawtooth (.rat 0) (.rat 165) 2 1).Ok ∧
      (Wanted.dc (.rat 165)).toReal Config.params.named =
        (Wanted.wave .sawtooth (.rat 0) (.rat 165) 2 1).toReal Config.params.named ∧
      ∀ k : ℤ, eps ≤ |scaled ((Wanted.dc (.rat 165)).toReal Config.params.named) - k| := by
  refine ⟨by decide, by decide, by decide, trivial, by simp [Wanted.Ok],
    by simp [Wanted.toReal, Number.toReal, shapeLevel], ?_⟩
  intro k
  simp only [Wanted.toReal, Number.toReal, scaled, eps, le_abs]
  push_cast
  rcases le_or_gt k 2047 with h | h
  · left
    have : (k : ℝ) ≤ 2047 := by exact_mod_cast h
    linarith
  · right
    have : (2048 : ℝ) ≤ k := by exact_mod_cast h
    linarith

/-! #### Playback -/

theorem witness_PlaybackTickAdvances :
    nextTurn (turning [.tickDac .one] (playing 3)) = .tickDac .one ∧
      (playing 3).pb.get .one = .timed [2047, 3288, 2047, 806] 4000 3 ∧
      ([2047, 3288, 2047, 806] : List Code)[3]? = some 806 ∧
      nextTurn (turning [.tickDac .two] (playing 3)) = .tickDac .two ∧ (playing 3).pb.get .two = .stopped :=
  ⟨rfl, rfl, rfl, rfl, rfl⟩

/-- A tick of the channel, a line, the sequencer that takes it, a tick of the channel. -/
def played : State := turning [.tickDac .one, .line lineM1, .sequencer, .tickDac .one] (playing 0)

/-- No reset, no install and no window at hand. -/
def quiet (u : State) : Bool :=
  nextTurn u != .powerOn && !u.rearm && !(match u.seq with | .busy (.install _ _) => true | _ => false)

theorem witness_PlaybackFollowsTheBuffer :
    0 < ([2047, 3288, 2047, 806] : List Code).length ∧
      played.pb.get .one = .timed [2047, 3288, 2047, 806] 4000 0 ∧ (∃ t, Runs 4 played t) ∧
      ∀ j < 4, ∀ u, Runs j played u →
        nextTurn u ≠ .powerOn ∧ (∀ r, ¬(nextTurn u = .sequencer ∧ u.seq = .busy (.install .one r))) ∧
          ∀ v, ¬(nextTurn u = .glitch .one v ∧ u.rearm = true) := by
  refine ⟨by decide, rfl, ⟨_, rfl⟩, ?_⟩
  intro j hj u hu
  have hq : ∀ j < 4, view quiet (Sys2Proof.core.run j played) = some true := by decide
  have hv := hq j hj
  rw [show Sys2Proof.core.run j played = .next u from hu] at hv
  have hu : quiet u = true := Option.some.inj hv
  simp only [quiet, Bool.and_eq_true, bne_iff_ne, Bool.not_eq_true'] at hu
  obtain ⟨⟨hp, hr⟩, hs⟩ := hu
  refine ⟨hp, fun r h => ?_, fun v h => ?_⟩
  · rw [h.2] at hs
    cases hs
  · rw [hr] at h
    cases h.2

theorem witness_GlitchOnlyInTheRearmWindow :
    (nextTurn (turning [.glitch .two 4095] (doing .rearmEnd)) = .glitch .two 4095 ∧ (doing .rearmEnd).rearm = true) ∧
      nextTurn (turning [.glitch .two 4095] ready) = .glitch .two 4095 ∧ ready.rearm = false :=
  ⟨⟨rfl, rfl⟩, rfl, rfl⟩

/-- Channel 1, while channel 2 is installed in the window, and while a line is taken with the window closed. -/
theorem witness_OnlyTickOrRearmChangesAGenerator :
    (∃ t, step (doing (.install .two .hold)) = .next t ∧ nextTurn (doing (.install .two .hold)) = .sequencer ∧
      (∀ r, (doing (.install .two .hold)).seq ≠ .busy (.install .one r)) ∧
      ∀ v, nextTurn (doing (.install .two .hold)) ≠ .glitch .one v) ∧
      ∃ t, step (waiting lineS1) = .next t ∧ nextTurn (waiting lineS1) = .sequencer ∧
        (∀ r, (waiting lineS1).seq ≠ .busy (.install .one r)) ∧ (waiting lineS1).rearm = false := by
  refine ⟨⟨_, rfl, rfl, ?_, ?_⟩, _, rfl, rfl, ?_, rfl⟩ <;> intro _ h <;> cases h

theorem witness_OnlyS1S2WriteTheRegisters :
    ∃ t, step (doing (.decode lineS1)) = .next t ∧ nextTurn (doing (.decode lineS1)) ≠ .powerOn := ⟨_, rfl, by decide⟩

/-! #### Capture and averaged read -/

/-- The lowest rate, and the highest. -/
theorem witness_M1StartsTheCapture :
    (∀ f ∈ [1, Config.params.adcTmrMax], 1 ≤ ({ fieldsM1 with fq := f } : M1Fields).fq ∧
      ({ fieldsM1 with fq := f } : M1Fields).fq ≤ Config.params.adcTmrMax) ∧ ready.env.turns = [] := by
  refine ⟨fun f hf => ?_, rfl⟩
  have := adcTmrMax_ge
  simp only [List.mem_cons, List.not_mem_nil, or_false] at hf
  rcases hf with rfl | rfl
  · exact ⟨le_rfl, this⟩
  · exact ⟨this, le_rfl⟩

theorem witness_IllegalCaptureRateFaults :
    ({ fieldsM1 with fq := 0 } : M1Fields).fq = 0 ∧
      Config.params.adcTmrMax < ({ fieldsM1 with fq := Config.params.adcTmrMax + 1 } : M1Fields).fq ∧
      ready.env.turns = [] := ⟨rfl, Nat.lt_succ_self _, rfl⟩

theorem witness_CaptureTickWritesAPair :
    nextTurn (turning [.tickCap] (capturing 999)) = .tickCap ∧ (999 < Config.bufSize) ∧
      (capturing 999).cap = .running 999 1000 ∧ nextTurn (turning [.tickCap] ready) = .tickCap ∧ ready.cap = .off :=
  ⟨rfl, by decide, rfl, rfl, rfl⟩

theorem witness_ThousandTicksFillTheBuffers :
    (turning (List.replicate Config.bufSize .tickCap) (capturing 0)).cap = .running 0 1000 ∧
      (turning (List.replicate Config.bufSize .tickCap) (capturing 0)).env.turns =
        List.replicate Config.bufSize .tickCap := ⟨rfl, rfl⟩

/-- While the capture runs; the first byte, after it; the last byte. -/
theorem witness_StreamSendsBothBuffers :
    (nextTurn (capturing 999) = .sequencer ∧ (capturing 999).seq = .busy .capture ∧ (capturing 999).cap ≠ .off) ∧
      (nextTurn (doing .capture) = .sequencer ∧ (doing .capture).seq = .busy .capture ∧ (doing .capture).cap = .off ∧
        (∃ b, (streamBytes (doing .capture))[0]? = some b) ∧ (doing .capture).env.turns = []) ∧
      nextTurn (doing (.stream 3999)) = .sequencer ∧ (doing (.stream 3999)).seq = .busy (.stream 3999) ∧
        ∃ b, (streamBytes (doing (.stream 3999)))[3999]? = some b := by
  have h : ∀ (s : State) (k : ℕ), k < streamLen → ∃ b, (streamBytes s)[k]? = some b := fun s k hk =>
    ⟨_, List.getElem?_eq_getElem (by rwa [streamBytes_length])⟩
  exact ⟨⟨rfl, rfl, by decide⟩, ⟨rfl, rfl, rfl, h _ 0 (by decide), rfl⟩, rfl, rfl, h _ 3999 (by decide)⟩

theorem witness_OnlyCaptureTicksWriteTheBuffers :
    ∃ t, step (waiting lineM1) = .next t ∧ nextTurn (waiting lineM1) ≠ .tickCap ∧
      nextTurn (waiting lineM1) ≠ .powerOn := ⟨_, rfl, by decide, by decide⟩

theorem witness_TimeoutEndsTheCaptureOnlyIfEnabled :
    (capturing 0).cap = .running 0 1000 ∧ ready.cap = .off ∧
      nextTurn (turning [.capTimeout] (capturing 0)) = .capTimeout := ⟨rfl, rfl, rfl⟩

/-- A read of B, the last read of A, the last read of B, and a byte of the response, the last. -/
theorem witness_M2SendsTheAverages :
    ready.env.turns = [] ∧
      (∀ j ∈ [1, 18, 19], nextTurn (doing (.reads j 5 0)) = .sequencer ∧
        (doing (.reads j 5 0)).seq = .busy (.reads j 5 0)) ∧
      (1 % 2 = 1 ∧ 1 < 19) ∧ (18 % 2 = 0 ∧ 18 < 19) ∧
      nextTurn (doing (.respond [7])) = .sequencer ∧ (doing (.respond [7])).seq = .busy (.respond (7 :: [])) :=
  ⟨rfl, fun _ _ => ⟨rfl, rfl⟩, by decide, by decide, rfl, rfl⟩

/-- A step that sends the stream's first byte, one that sends its last, one that sends a byte of an average response. -/
theorem witness_OnlyResponsesAreSent :
    ∀ q ∈ [SeqStep.capture, .stream 3999, .respond [7]],
      nextTurn (doing q) ≠ .powerOn ∧ ∃ t, step (doing q) = .next t ∧ t.tx ≠ (doing q).tx := by
  have h : ∀ q ∈ [SeqStep.capture, .stream 3999, .respond [7]],
      nextTurn (doing q) ≠ .powerOn ∧ (seqInternal Config.params (popTurn (doing q))).tx ≠ (doing q).tx := by
    intro q hq
    simp only [List.mem_cons, List.not_mem_nil, or_false] at hq
    rcases hq with rfl | rfl | rfl <;> exact ⟨nofun, nofun⟩
  intro q hq
  refine ⟨(h q hq).1, _, ?_, (h q hq).2⟩
  simp only [List.mem_cons, List.not_mem_nil, or_false] at hq
  rcases hq with rfl | rfl | rfl <;> rfl

/-- An event of an `m1`, a `dz`, and the startup each add to a log. -/
theorem witness_OutputLogsOnlyGrow :
    (∃ t, step (doing (.afeEvent fieldsM1 .two)) = .next t ∧ t.afeLog = [⟨.two, 0, 160, 0⟩]) ∧
      (∃ t, step (doing .startup) = .next t ∧ t.supplyLog = [550]) ∧
      ∃ t, step (doing (.decode [0x64, 0x7A, 0x30, 0x30, 0x30, 0x31])) = .next t ∧ t.supplyLog = [1] :=
  ⟨⟨_, rfl, rfl⟩, ⟨_, rfl, rfl⟩, _, rfl, rfl⟩

/-! #### Supply, reset, invariants -/

theorem witness_DzForwardsOrFaults : (1 : Nat) ≠ 0 ∧ (9999 : Nat) ≠ 0 ∧ ready.env.turns = [] := by decide

theorem witness_PowerOnResetsEverything : nextTurn (turning [.powerOn] haltedBusy) = .powerOn := rfl

/-- The startup under the test instance, with other biases. -/
def starting (b1 b2 : ℚ) : State :=
  State.resetWith { testParams with bias := fun ch => match ch with | .one => .rat b1 | .two => .rat b2 } Env.reset

theorem starting_offset (b1 b2 : ℚ) : offOf (starting b1 b2) .one = b1 ∧ offOf (starting b1 b2) .two = b2 := ⟨rfl, rfl⟩

theorem starting_hyps (b1 b2 : ℚ) :
    (starting b1 b2).seq = .busy .startup ∧ (starting b1 b2).env.turns = [] ∧ ∀ ch, ampOf (starting b1 b2) ch = 0 := by
  refine ⟨rfl, rfl, fun ch => ?_⟩
  cases ch <;> exact Rat.cast_zero

/-- The code of a rational level, evaluated by the machine. -/
theorem realCode_in (up : Bool) (q : ℚ) : InRange (realCode up q) ↔ codeInRange (levelCode up (.rat q)) = true := by
  rw [codeInRange_iff, levelCode_eq up (v := .rat q) trivial]
  rfl

/-- V151's biases, for any draws. -/
theorem witness_StartupDrivesBothChannels :
    ((starting 0 330).seq = .busy .startup ∧ (starting 0 330).env.turns = [] ∧ ∀ ch, ampOf (starting 0 330) ch = 0) ∧
      InRange (realCode ((starting 0 330).env.bandChoice 0) (offOf (starting 0 330) .one)) ∧
      InRange (realCode ((starting 0 330).env.bandChoice 1) (offOf (starting 0 330) .two)) := by
  refine ⟨starting_hyps 0 330, ?_, ?_⟩
  · rw [(starting_offset 0 330).1, realCode_in]
    generalize Env.bandChoice _ _ = up
    revert up
    decide +kernel
  · rw [(starting_offset 0 330).2, realCode_in]
    generalize Env.bandChoice _ _ = up
    revert up
    decide +kernel

/-- V152: `BIAS(1) = 340`; and the same of channel 2. -/
theorem witness_StartupWithBadBiasFaults :
    ((starting 340 165).seq = .busy .startup ∧ (starting 340 165).env.turns = [] ∧
      ∀ ch, ampOf (starting 340 165) ch = 0) ∧
      ¬InRange (realCode ((starting 340 165).env.bandChoice 0) (offOf (starting 340 165) .one)) ∧
      ((starting 165 340).seq = .busy .startup ∧ (starting 165 340).env.turns = [] ∧
        ∀ ch, ampOf (starting 165 340) ch = 0) ∧
      InRange (realCode ((starting 165 340).env.bandChoice 0) (offOf (starting 165 340) .one)) ∧
      ¬InRange (realCode ((starting 165 340).env.bandChoice 1) (offOf (starting 165 340) .two)) := by
  refine ⟨starting_hyps 340 165, ?_, starting_hyps 165 340, ?_, ?_⟩
  · rw [(starting_offset 340 165).1, realCode_in]
    generalize Env.bandChoice _ _ = up
    revert up
    decide +kernel
  · rw [(starting_offset 165 340).1, realCode_in]
    generalize Env.bandChoice _ _ = up
    revert up
    decide +kernel
  · rw [(starting_offset 165 340).2, realCode_in]
    generalize Env.bandChoice _ _ = up
    revert up
    decide +kernel

/-- A line is waiting. -/
theorem witness_StepKeepsTheInvariant :
    Inv Config.params (waiting lineM1) ∧ ∃ t, step (waiting lineM1) = .next t := ⟨waiting_inv, _, rfl⟩

/-- A command is inside its re-arm. -/
theorem witness_NoRunStopsUnderTheInvariant : Inv Config.params (doing (.install .one (.timed [2047, 3288]))) :=
  doing_inv ⟨by decide, two_le_synNMax⟩

/-- A reset machine, whose two DACs are UNSET, about to take its first step. -/
theorem witness_StepKeepsTheUnsetDacInvariant :
    DacInv State.reset ∧ State.reset.dac.get .one = none ∧ ∃ t, step State.reset = .next t :=
  ⟨fun ch _ => ⟨by cases ch <;> exact Rat.cast_zero, trivial⟩, rfl, _, rfl⟩

end Sys2Proof.Tests
end

section
/-! SUPPORT. What the capture timeout does, how a step moves a playback, and the indices of the running playbacks. -/

namespace Sys2Proof.Machine

/-! ### The capture timeout (R256) -/

theorem capTimeout_running {s : State} {k rate : Nat} (h : s.cap = .running k rate) :
    capTimeout true s = { s with cap := .off, lastErr := some .timeout, seq := .ready } := by
  simp only [capTimeout, h, if_true]
  rfl

theorem capTimeout_off {s : State} (h : s.cap = .off) : capTimeout true s = s := by simp [capTimeout, h]

theorem capTimeout_disabled (s : State) : capTimeout false s = s := rfl

/-- With the decided value of `CAP_TIMEOUT_ENABLED` the event's turn passes (D17). -/
theorem step_capTimeout {s : State} (h : nextTurn s = .capTimeout) : step s = .next (popTurn s) := by
  rw [step, h, takeTurn, Config.capTimeoutEnabled, capTimeout_disabled]

/-! ### Playbacks -/

/-- A step of the sequencer touches a playback only where it installs a result whose rate is legal (R210, R218). -/
theorem SeqMove.pb_cases {s t : State} (h : SeqMove s t) :
    t.pb = s.pb ∨ ∃ ch r, s.seq = .busy (.install ch r) ∧ Safety.RateOk s ch r ∧
      t.pb = s.pb.set ch (Safety.installedPb s ch r) := by
  cases h with
  | install ch r hs hr => exact .inr ⟨ch, r, hs, hr, rfl⟩
  | _ => exact .inl rfl

/-- A running playback's index is inside its buffer (R71). -/
def IndexInBuffer : Playback → Prop
  | .stopped => True
  | .timed buf _ idx => idx < buf.length

/-- Every running playback's index is inside its buffer: the part of the invariant that keeps `noEntry` from being raised,
and which the steps keep by themselves. -/
def IndicesInBuffers (s : State) : Prop := ∀ ch, IndexInBuffer (s.pb.get ch)

theorem indexInBuffer_of_playbackOk {P : Params} {p : Playback} (h : Safety.PlaybackOk P p) : IndexInBuffer p := by
  cases p with
  | stopped => trivial
  | timed buf rate idx =>
    obtain ⟨-, -, hidx, -, -⟩ := h
    exact hidx

/-- The empty buffer has rate 0, which no timer takes, so an installed buffer has an entry 0. -/
theorem indexInBuffer_installedPb {s : State} {ch : Channel} {r : SynResult} (h : Safety.RateOk s ch r) :
    IndexInBuffer (Safety.installedPb s ch r) := by
  cases r with
  | timed buf =>
    obtain ⟨hpos, -⟩ := h
    exact Nat.pos_of_mul_pos_left hpos
  | dc c => trivial
  | hold => trivial

theorem indicesInBuffers_of_pb_set {s t : State} {ch : Channel} {p : Playback} (h : IndicesInBuffers s)
    (hp : IndexInBuffer p) (ht : t.pb = s.pb.set ch p) : IndicesInBuffers t := by
  intro ch'
  rw [ht]
  by_cases hch : ch' = ch
  · subst hch
    rwa [PerChannel.get_set_self]
  · rw [PerChannel.get_set_ne _ _ hch]
    exact h ch'

theorem indicesInBuffers_of_pb_eq {s t : State} (h : IndicesInBuffers s) (ht : t.pb = s.pb) : IndicesInBuffers t := by
  rwa [IndicesInBuffers, ht]

/-- A playback tick whose channel's index is inside the buffer raises no `noEntry`. -/
theorem tickDac_next {ch : Channel} {s : State} (h : IndexInBuffer (s.pb.get ch)) : ∃ t, tickDac ch s = .next t := by
  cases hp : s.pb.get ch with
  | stopped => exact ⟨_, tickDac_stopped hp⟩
  | timed buf rate idx =>
    rw [hp] at h
    exact ⟨_, tickDac_timed hp h⟩

/-- The only stop of the machine is a playback tick outside the buffer. -/
theorem step_next {s : State} (h : IndicesInBuffers s) : ∃ t, step s = .next t := by
  rw [step]
  cases nextTurn s with
  | sequencer =>
    obtain ⟨t, ht, -⟩ := seqStep_move (popTurn s)
    exact ⟨t, ht⟩
  | tickDac ch => exact tickDac_next (h ch)
  | line raw => exact ⟨_, rfl⟩
  | tickCap => exact ⟨_, rfl⟩
  | glitch ch v => exact ⟨_, rfl⟩
  | capTimeout => exact ⟨_, rfl⟩
  | powerOn => exact ⟨_, rfl⟩

theorem turnMove_keeps_indicesInBuffers {s t : State} {turn : Turn} (h : IndicesInBuffers s) (hm : TurnMove s turn t) :
    IndicesInBuffers t := by
  cases hm with
  | sequencer _ hm =>
    rcases hm.pb_cases with hpb | ⟨ch, r, -, hr, hpb⟩
    · exact indicesInBuffers_of_pb_eq h hpb
    · exact indicesInBuffers_of_pb_set h (indexInBuffer_installedPb hr) hpb
  | tickDac ch _ ht =>
    rcases tickDac_cases ht with ⟨-, rfl⟩ | ⟨buf, rate, idx, hi, -, rfl⟩
    · exact h
    · exact indicesInBuffers_of_pb_set h (Nat.mod_lt _ (Nat.zero_lt_of_lt hi)) rfl
  | tickCap =>
    rcases tickCap_cases s with he | ⟨k, rate, hk, -, he⟩ <;> exact indicesInBuffers_of_pb_eq h (congrArg (·.pb) he)
  | line raw => exact indicesInBuffers_of_pb_eq h (by unfold lineArrives; split <;> rfl)
  | glitch ch v => exact indicesInBuffers_of_pb_eq h (by unfold glitch; split <;> rfl)
  | capTimeout => exact h
  | powerOn => intro ch; cases ch <;> trivial

theorem step_keeps_indicesInBuffers {s t : State} (h : IndicesInBuffers s) (hs : step s = .next t) :
    IndicesInBuffers t :=
  turnMove_keeps_indicesInBuffers (s := popTurn s) h (step_move hs)

/-- A run of any length, one step after another. -/
theorem runs_of_indicesInBuffers {s : State} (h : IndicesInBuffers s) (k : Nat) : ∃ t, Safety.Runs k s t := by
  induction k generalizing s with
  | zero => exact ⟨s, runs_zero s⟩
  | succ k ih =>
    obtain ⟨u, hu⟩ := step_next h
    obtain ⟨t, ht⟩ := ih (step_keeps_indicesInBuffers h hu)
    exact ⟨t, (runs_succ hu).mpr ht⟩

/-! ### The obligations -/

/-- Settles O59, by the part of the invariant that speaks of the playback indices. -/
theorem noRunStopsUnderTheInvariant : Obligations.NoRunStopsUnderTheInvariant := fun _ h =>
  runs_of_indicesInBuffers fun ch => indexInBuffer_of_playbackOk (h.playback ch)

/-- Settles O45. -/
theorem timeoutEndsTheCaptureOnlyIfEnabled : Obligations.TimeoutEndsTheCaptureOnlyIfEnabled := fun s =>
  ⟨fun _ _ => capTimeout_running, capTimeout_off, capTimeout_disabled s, step_capTimeout⟩

/-- Settles O52, with the state each arm of `exec` answers. -/
theorem everyInstructionRuns : Obligations.EveryInstructionRuns := by
  intro i s
  cases i with
  | s1 f => exact ⟨setGenerator Config.params .one f s, rfl⟩
  | s2 f => exact ⟨setGenerator Config.params .two f s, rfl⟩
  | m1 f => exact ⟨writeFrontEnd f .one s, rfl⟩
  | m2 => exact ⟨readStep Config.params 0 0 0 s, rfl⟩
  | dz cv => exact ⟨forwardSupply cv s, rfl⟩
  | unrecognized => exact ⟨raiseNoOp .tag s, rfl⟩
  | synSine ch => exact ⟨runTimed Config.params ch .sine s, rfl⟩
  | synCosine ch => exact ⟨runTimed Config.params ch .cosine s, rfl⟩
  | synTriangle ch => exact ⟨runTimed Config.params ch .triangle s, rfl⟩
  | synSawtooth ch => exact ⟨runTimed Config.params ch .sawtooth s, rfl⟩
  | synNone ch => exact ⟨synthesized ch (.ok .hold) s, rfl⟩
  | synDc ch => exact ⟨runDc Config.params ch s, rfl⟩

end Sys2Proof.Machine
end

section
/-! SUPPORT. The operand bounds of R109: what a line decodes to fits the fields of its format. -/

namespace Sys2Proof

/-! ### Decimal fields (R103) -/

theorem isDigit_iff (b : Byte) : isDigit b = true ↔ 0x30 ≤ b.toNat ∧ b.toNat ≤ 0x39 := by
  rw [isDigit, Bool.and_eq_true, decide_eq_true_iff, decide_eq_true_iff]

theorem decField_eq_some {cs : List Byte} {v : Nat} (h : decField cs = some v) :
    cs ≠ [] ∧ (∀ b ∈ cs, isDigit b = true) ∧ dec cs = v := by
  unfold decField at h
  split at h
  · next hc =>
    rw [Bool.and_eq_true, Bool.not_eq_true', List.isEmpty_eq_false_iff, List.all_eq_true] at hc
    exact ⟨hc.1, hc.2, Option.some.inj h⟩
  · cases h

@[simp] theorem dec_append_singleton (cs : List Byte) (b : Byte) :
    dec (cs ++ [b]) = 10 * dec cs + (b.toNat - 0x30) := by
  simp [dec]

/-- `k` digits are worth less than `10 ^ k`. -/
theorem dec_lt {cs : List Byte} (h : ∀ b ∈ cs, isDigit b = true) : dec cs < 10 ^ cs.length := by
  induction cs using List.reverseRecOn with
  | nil => exact Nat.one_pos
  | append_singleton cs b ih =>
    have hcs := ih fun d hd => h d (List.mem_append_left _ hd)
    have hb := (isDigit_iff b).mp (h b (by simp))
    rw [dec_append_singleton, List.length_append, List.length_singleton, pow_succ]
    omega

theorem chars_length_le (line : List Byte) (i j : Nat) : (chars line i j).length ≤ j - i := List.length_take_le _ _

/-- A decimal field of the characters `[i, j)` of a line is less than `10 ^ (j - i)` (R109). -/
theorem decField_chars_lt {line : List Byte} {i j v : Nat} (h : decField (chars line i j) = some v) :
    v < 10 ^ (j - i) := by
  obtain ⟨-, hd, rfl⟩ := decField_eq_some h
  exact (dec_lt hd).trans_le (Nat.pow_le_pow_right (by decide) (chars_length_le line i j))

/-! ### The formats (R104) -/

theorem decodeS_wf {line : List Byte} {f : SFields} (h : decodeS line = some f) : f.wf = true := by
  unfold decodeS at h
  split at h
  · cases h
  split at h
  · next hns hfq har _ =>
    cases h
    have hns := decField_chars_lt hns
    have hfq := decField_chars_lt hfq
    have har := decField_chars_lt har
    simp only [SFields.wf, Bool.and_eq_true, decide_eq_true_iff]
    omega
  · cases h

theorem decodeM1_wf {line : List Byte} {f : M1Fields} (h : decodeM1 line = some f) : f.wf = true := by
  unfold decodeM1 at h
  split at h
  · cases h
  split at h
  · next hfq hc1 hg1 ho1 hc2 hg2 ho2 =>
    cases h
    have hfq := decField_chars_lt hfq
    have hc1 := decField_chars_lt hc1
    have hg1 := decField_chars_lt hg1
    have ho1 := decField_chars_lt ho1
    have hc2 := decField_chars_lt hc2
    have hg2 := decField_chars_lt hg2
    have ho2 := decField_chars_lt ho2
    simp only [M1Fields.wf, Bool.and_eq_true, decide_eq_true_iff]
    omega
  · cases h

theorem decodeDz_le {line : List Byte} {cv : Nat} (h : decodeDz line = some cv) : cv ≤ 9999 := by
  unfold decodeDz at h
  split at h
  · cases h
  · exact Nat.le_of_lt_succ (decField_chars_lt h)

theorem orParse_map_ok {α : Type} {o : Option α} {c : α → Instr} {i : Instr} (h : orParse (o.map c) = .ok i) :
    ∃ a, o = some a ∧ i = c a := by
  cases o with
  | none => cases h
  | some a => exact ⟨a, rfl, (Except.ok.inj h).symm⟩

/-- The tag chooses the format that the operands are read by (R102, R141). -/
theorem decodeTag_wf {c0 c1 : Byte} {line : List Byte} {i : Instr} (h : decodeTag c0 c1 line = .ok i) : i.wf = true := by
  unfold decodeTag at h
  split at h
  · obtain ⟨f, hf, rfl⟩ := orParse_map_ok h
    exact decodeS_wf hf
  split at h
  · obtain ⟨f, hf, rfl⟩ := orParse_map_ok h
    exact decodeS_wf hf
  split at h
  · obtain ⟨f, hf, rfl⟩ := orParse_map_ok h
    exact decodeM1_wf hf
  split at h
  · cases h
    rfl
  split at h
  · obtain ⟨cv, hcv, rfl⟩ := orParse_map_ok h
    exact decide_eq_true (decodeDz_le hcv)
  · cases h
    rfl

/-- What a line decodes to fits the fields of its format (R109). -/
theorem decodeLine_wf {raw : List Byte} {i : Instr} (h : decodeLine raw = .ok i) : i.wf = true := by
  unfold decodeLine at h
  simp only at h
  split at h
  · cases h
  split at h
  · exact decodeTag_wf h
  · cases h
    rfl

end Sys2Proof
end

section
/-! SUPPORT. What a step writes, element by element, and the statements of which step may write an element. -/

namespace Sys2Proof.Machine

open Safety

/-! ### A step of the sequencer -/

section SeqMove

variable {s t : State} (h : SeqMove s t)
include h

/-- A generator register is written by its own command alone (R214, R215). -/
theorem SeqMove.wave_cases :
    t.wave = s.wave ∨ ∃ raw ch f, s.seq = .busy (.decode raw) ∧
      ((ch = .one ∧ decodeLine raw = .ok (.s1 f)) ∨ (ch = .two ∧ decodeLine raw = .ok (.s2 f))) ∧
      t.wave = s.wave.set ch (genRegOf Config.params ch f) := by
  cases h with
  | generator raw ch f hs hd => exact .inr ⟨raw, ch, f, hs, hd, rfl⟩
  | _ => exact .inl rfl

/-- A front-end record is written by an `m1` alone: channel 1's at its decoding, channel 2's between the events (R251). -/
theorem SeqMove.afe_cases :
    t.afe = s.afe ∨ ∃ ch f, ((∃ raw, s.seq = .busy (.decode raw) ∧ decodeLine raw = .ok (.m1 f)) ∨
      s.seq = .busy (.afeSecond f)) ∧ t.afe = s.afe.set ch (afeCfgOf f ch) := by
  cases h with
  | m1 raw f hs hd => exact .inr ⟨.one, f, .inl ⟨raw, hs, hd⟩, rfl⟩
  | afeSecond f hs => exact .inr ⟨.two, f, .inr hs, rfl⟩
  | _ => exact .inl rfl

/-- The sequencer sets a DAC by an install alone (R211). -/
theorem SeqMove.dac_cases :
    t.dac = s.dac ∨ ∃ ch r, s.seq = .busy (.install ch r) ∧ t.dac = s.dac.set ch (installedDac s ch r) := by
  cases h with
  | install ch r hs hr => exact .inr ⟨ch, r, hs, rfl⟩
  | _ => exact .inl rfl

/-- The sequencer arms the capture timer, with a legal rate, and holds (R253). -/
theorem SeqMove.cap_cases :
    t.cap = s.cap ∨ ∃ rate, (1 ≤ rate ∧ rate ≤ Config.params.adcTmrMax) ∧ t.cap = .running 0 rate ∧
      t.seq = .busy .capture := by
  cases h with
  | captureStart rate hs hr => exact .inr ⟨rate, hr, rfl, rfl⟩
  | _ => exact .inl rfl

theorem SeqMove.captureBuffers : t.capA = s.capA ∧ t.capB = s.capB := by cases h <;> exact ⟨rfl, rfl⟩

theorem SeqMove.rxq_cases : t.rxq = s.rxq ∨ ∃ raw, s.rxq = raw :: t.rxq := by
  cases h with
  | take raw rest hs hq => exact .inr ⟨raw, hq⟩
  | _ => exact .inl rfl

theorem SeqMove.afeLog_cases :
    t.afeLog = s.afeLog ∨ ∃ f ch, s.seq = .busy (.afeEvent f ch) ∧ t.afeLog = s.afeLog ++ [afeEventOf f ch] := by
  cases h with
  | afeEvent f ch hs => exact .inr ⟨f, ch, hs, rfl⟩
  | _ => exact .inl rfl

theorem SeqMove.supplyLog_cases :
    t.supplyLog = s.supplyLog ∨ (s.seq = .busy .startup ∧ t.supplyLog = s.supplyLog ++ [550]) ∨
      ∃ raw cv, s.seq = .busy (.decode raw) ∧ decodeLine raw = .ok (.dz cv) ∧ cv ≠ 0 ∧
        t.supplyLog = s.supplyLog ++ [cv] := by
  cases h with
  | startup hs => exact .inr (.inl ⟨hs, rfl⟩)
  | dz raw cv hs hd hcv => exact .inr (.inr ⟨raw, cv, hs, hd, hcv, rfl⟩)
  | _ => exact .inl rfl

end SeqMove

/-! ### A turn of another agent -/

/-- The elements that no agent but the sequencer writes (R50). -/
structure KeepsSequencerElements (s t : State) : Prop where
  wave : t.wave = s.wave
  afe : t.afe = s.afe
  rearm : t.rearm = s.rearm
  seq : t.seq = s.seq
  fault : t.fault = s.fault
  lastErr : t.lastErr = s.lastErr
  tx : t.tx = s.tx
  afeLog : t.afeLog = s.afeLog
  supplyLog : t.supplyLog = s.supplyLog

theorem KeepsSequencerElements.refl (s : State) : KeepsSequencerElements s s :=
  ⟨rfl, rfl, rfl, rfl, rfl, rfl, rfl, rfl, rfl⟩

/-- Everything the arrival of a line can do (R49). -/
theorem lineArrives_cases (raw : List Byte) (s : State) :
    lineArrives raw s = s ∨ (lf ∉ raw ∧ lineArrives raw s = { s with rxq := s.rxq ++ [raw] }) := by
  unfold lineArrives
  split
  · exact .inl rfl
  · next hl => exact .inr ⟨by simpa using hl, rfl⟩

/-- Everything a glitch can do (R217). -/
theorem glitch_cases (ch : Channel) (v : Code) (s : State) :
    (s.rearm = false ∧ glitch ch v s = s) ∨
      (s.rearm = true ∧ glitch ch v s = { s with dac := s.dac.set ch (some v) }) := by
  cases hr : s.rearm with
  | false => exact .inl ⟨rfl, by simp [glitch, hr]⟩
  | true => exact .inr ⟨rfl, by simp [glitch, hr, State.setDac]⟩

theorem lineArrives_keeps (raw : List Byte) (s : State) : KeepsSequencerElements s (lineArrives raw s) := by
  rcases lineArrives_cases raw s with he | ⟨-, he⟩ <;> rw [he]
  · exact .refl s
  · exact ⟨rfl, rfl, rfl, rfl, rfl, rfl, rfl, rfl, rfl⟩

theorem tickDac_keeps {ch : Channel} {s t : State} (h : tickDac ch s = .next t) : KeepsSequencerElements s t := by
  rcases tickDac_cases h with ⟨-, rfl⟩ | ⟨buf, rate, idx, hi, -, rfl⟩
  · exact .refl _
  · exact ⟨rfl, rfl, rfl, rfl, rfl, rfl, rfl, rfl, rfl⟩

theorem tickCap_keeps (s : State) : KeepsSequencerElements s (tickCap s) := by
  rcases tickCap_cases s with he | ⟨k, rate, hk, -, he⟩ <;> rw [he]
  · exact .refl s
  · exact ⟨rfl, rfl, rfl, rfl, rfl, rfl, rfl, rfl, rfl⟩

theorem glitch_keeps (ch : Channel) (v : Code) (s : State) : KeepsSequencerElements s (glitch ch v s) := by
  rcases glitch_cases ch v s with ⟨-, he⟩ | ⟨-, he⟩ <;> rw [he]
  · exact .refl s
  · exact ⟨rfl, rfl, rfl, rfl, rfl, rfl, rfl, rfl, rfl⟩

/-- Any turn but a reset is a move of the sequencer, or keeps the elements that are the sequencer's. -/
theorem TurnMove.sequencer_or_keeps {s t : State} {turn : Turn} (h : TurnMove s turn t) (hp : turn ≠ .powerOn) :
    (turn = .sequencer ∧ SeqMove s t) ∨ KeepsSequencerElements s t := by
  cases h with
  | sequencer _ hm => exact .inl ⟨rfl, hm⟩
  | line raw => exact .inr (lineArrives_keeps raw s)
  | tickDac ch _ ht => exact .inr (tickDac_keeps ht)
  | tickCap => exact .inr (tickCap_keeps s)
  | glitch ch v => exact .inr (glitch_keeps ch v s)
  | capTimeout => exact .inr (.refl s)
  | powerOn => exact absurd rfl hp

/-! ### The generator's engines (R44, R217, R220) -/

theorem tickDac_other {ch ch' : Channel} {s t : State} (h : tickDac ch' s = .next t) (hne : ch ≠ ch') :
    t.pb.get ch = s.pb.get ch ∧ t.dac.get ch = s.dac.get ch := by
  rcases tickDac_cases h with ⟨-, rfl⟩ | ⟨buf, rate, idx, hi, -, rfl⟩
  · exact ⟨rfl, rfl⟩
  · exact ⟨PerChannel.get_set_ne _ _ hne, PerChannel.get_set_ne _ _ hne⟩

theorem SeqMove.generator_eq {s t : State} {ch : Channel} (h : SeqMove s t)
    (hi : ∀ r, s.seq ≠ .busy (.install ch r)) : t.pb.get ch = s.pb.get ch ∧ t.dac.get ch = s.dac.get ch := by
  have hne : ∀ {ch' r}, s.seq = .busy (.install ch' r) → ch ≠ ch' := by
    rintro ch' r hs rfl
    exact hi r hs
  constructor
  · rcases h.pb_cases with he | ⟨ch', r, hs, -, he⟩ <;> rw [he]
    exact PerChannel.get_set_ne _ _ (hne hs)
  · rcases h.dac_cases with he | ⟨ch', r, hs, he⟩ <;> rw [he]
    exact PerChannel.get_set_ne _ _ (hne hs)

theorem glitch_pb (ch : Channel) (v : Code) (s : State) : (glitch ch v s).pb = s.pb := by
  rcases glitch_cases ch v s with ⟨-, he⟩ | ⟨-, he⟩ <;> rw [he]

theorem glitch_dac {ch ch' : Channel} {v : Code} {s : State} (h : ch ≠ ch' ∨ s.rearm = false) :
    (glitch ch' v s).dac.get ch = s.dac.get ch := by
  rcases glitch_cases ch' v s with ⟨-, he⟩ | ⟨hr, he⟩ <;> rw [he]
  rw [hr, Bool.true_eq_false, or_false] at h
  exact PerChannel.get_set_ne _ _ h

/-! ### The obligations -/

/-- Settles O37, turn by turn: of the turns allowed, a glitch alone touches the channel. -/
theorem onlyTickOrRearmChangesAGenerator : Obligations.OnlyTickOrRearmChangesAGenerator := by
  intro s t ch h htick hpow hinst
  have hm := step_move h
  generalize nextTurn s = turn at *
  cases hm with
  | sequencer _ hm =>
    obtain ⟨hpb, hdac⟩ := hm.generator_eq (ch := ch) fun r hs => hinst r ⟨rfl, hs⟩
    exact ⟨hpb, fun _ => hdac⟩
  | line raw =>
    rcases lineArrives_cases raw (popTurn s) with he | ⟨-, he⟩ <;> rw [he] <;> exact ⟨rfl, fun _ => rfl⟩
  | tickDac ch' _ ht =>
    obtain ⟨hpb, hdac⟩ := tickDac_other ht fun e => htick (congrArg Turn.tickDac e.symm)
    exact ⟨hpb, fun _ => hdac⟩
  | tickCap =>
    rcases tickCap_cases (popTurn s) with he | ⟨k, rate, hk, -, he⟩ <;> rw [he] <;> exact ⟨rfl, fun _ => rfl⟩
  | glitch ch' v =>
    exact ⟨congrArg (·.get ch) (glitch_pb ch' v (popTurn s)),
      fun hg => glitch_dac (hg.imp_left fun hv e => hv v (e ▸ rfl))⟩
  | capTimeout => exact ⟨rfl, fun _ => rfl⟩
  | powerOn => exact absurd rfl hpow

/-- Settles O38: no agent but the sequencer writes a register, and the sequencer by its own command alone. -/
theorem onlyS1S2WriteTheRegisters : Obligations.OnlyS1S2WriteTheRegisters := by
  intro s t ch h hp
  rcases (step_move h).sequencer_or_keeps hp with ⟨hn, hm⟩ | hk
  · rcases hm.wave_cases with he | ⟨raw, ch', f, hs, hd, he⟩
    · exact .inl (congrArg (·.get ch) he)
    · by_cases hch : ch = ch'
      · subst hch
        exact .inr ⟨raw, f, hn, hs, hd⟩
      · left
        rw [he, PerChannel.get_set_ne _ _ hch]
        rfl
  · exact .inl (congrArg (·.get ch) hk.wave)

/-- Settles O44, turn by turn. -/
theorem onlyCaptureTicksWriteTheBuffers : Obligations.OnlyCaptureTicksWriteTheBuffers := by
  intro s t h htick hpow
  have hm := step_move h
  generalize nextTurn s = turn at *
  cases hm with
  | sequencer _ hm => exact hm.captureBuffers
  | line raw => rcases lineArrives_cases raw (popTurn s) with he | ⟨-, he⟩ <;> rw [he] <;> exact ⟨rfl, rfl⟩
  | tickDac ch _ ht =>
    rcases tickDac_cases ht with ⟨-, rfl⟩ | ⟨buf, rate, idx, hi, -, rfl⟩
    · exact ⟨rfl, rfl⟩
    · exact ⟨rfl, rfl⟩
  | tickCap => exact absurd rfl htick
  | glitch ch v => rcases glitch_cases ch v (popTurn s) with ⟨-, he⟩ | ⟨-, he⟩ <;> rw [he] <;> exact ⟨rfl, rfl⟩
  | capTimeout => exact ⟨rfl, rfl⟩
  | powerOn => exact absurd rfl hpow

/-- Settles O49: no agent but the sequencer writes a log. -/
theorem outputLogsOnlyGrow : Obligations.OutputLogsOnlyGrow := by
  intro s t h hp
  rcases (step_move h).sequencer_or_keeps hp with ⟨hn, hm⟩ | hk
  · constructor
    · rcases hm.afeLog_cases with he | ⟨f, ch, hs, he⟩
      · exact .inl he
      · exact .inr ⟨f, ch, hn, hs, he⟩
    · rcases hm.supplyLog_cases with he | ⟨hs, he⟩ | ⟨raw, cv, hs, hd, hcv, he⟩
      · exact .inl he
      · exact .inr (.inl ⟨hn, hs, he⟩)
      · exact .inr (.inr ⟨raw, cv, hn, hs, hd, hcv, he⟩)
  · exact ⟨.inl hk.afeLog, .inl hk.supplyLog⟩

/-- Settles O13: each turn by the equation of its rule step. -/
theorem sequencerTakesALine : Obligations.SequencerTakesALine := by
  refine ⟨fun s hn hs hq => ?_, fun s raw rest hn hs hq => ?_, fun s hn hs => ?_, fun s raw hn hl => ?_⟩
  · rw [step_ready hn hs, awaitLine, show (popTurn s).rxq = s.rxq from rfl, hq]
  · rw [step_ready hn hs, awaitLine, show (popTurn s).rxq = s.rxq from rfl, hq]
    rfl
  · rw [step_busy hn hs ⟨by simp, by simp⟩]
    rfl
  · rw [step, hn, takeTurn, lineArrives, if_neg (by simpa using hl)]
    rfl

/-- Settles O19: the arm of each command, written out. -/
theorem s1S2SetTheirRegister : Obligations.S1S2SetTheirRegister := fun _ _ => ⟨rfl, rfl⟩

end Sys2Proof.Machine
end

section
/-! SUPPORT. The two invariants: at reset, and kept by every turn. -/

namespace Sys2Proof.Machine

open Safety

/-! ### At reset (R331, R332) -/

theorem inv_resetWith (env : Env) : Inv Config.params (State.resetWith Config.params env) where
  wave ch := by cases ch <;> exact ⟨(by decide : 64 ≤ 999), (by decide : 1000 ≤ 9999999)⟩
  afe ch := by cases ch <;> exact ⟨Nat.zero_le _, Nat.zero_le _, Nat.zero_le _⟩
  playback ch := by cases ch <;> trivial
  capture := trivial
  position q hq := by cases hq; trivial
  waits hc := absurd rfl hc
  halted := ⟨nofun, nofun⟩
  window hw := hw.elim
  windowOnly := nofun
  lines := nofun

theorem dacInv_resetWith (env : Env) : DacInv (State.resetWith Config.params env) := fun ch _ =>
  ⟨by cases ch <;> exact Rat.cast_zero, trivial⟩

/-! ### What synthesis leaves for the install -/

/-- A buffer a synthesis returns has a legal count (R174). -/
theorem Synthesis.timed_length {s : State} {ch : Channel} {buf : List Code} (h : Synthesis s ch (.ok (.timed buf))) :
    Config.nMin ≤ buf.length ∧ buf.length ≤ Config.params.synNMax := by
  generalize hr : Except.ok (SynResult.timed buf) = r at h
  cases h with
  | dc => unfold synthDc at hr; split at hr <;> cases hr
  | hold => cases hr
  | timed =>
    have hs := synthTimed_spec Config.params (s.wave.get ch).shape (s.wave.get ch).n
      (drawnCode s ch (s.wave.get ch).shape)
    rw [← hr] at hs
    cases hs with
    | buffer hn _ _ hlen _ _ => rwa [hlen]

/-- With amplitude 0 the synthesis is DC mode (R171, R176). -/
theorem Synthesis.dc_of_amp_zero {s : State} {ch : Channel} {r : SynResult} (h : Synthesis s ch (.ok r))
    (ha : ampOf s ch = 0) : ∃ c, r = .dc c := by
  generalize hr : Except.ok r = x at h
  cases h with
  | dc =>
    unfold synthDc at hr
    split at hr
    · next c _ => cases hr; exact ⟨c, rfl⟩
    · cases hr
  | hold hne => exact absurd ha hne
  | timed hne => exact absurd ha hne

/-! ### The rule steps keep legal values -/

theorem genRegOk_genRegOf {P : Params} {ch : Channel} {f : SFields} (h : f.wf = true) : GenRegOk (genRegOf P ch f) := by
  simp only [SFields.wf, Bool.and_eq_true, decide_eq_true_iff] at h
  exact h.1

theorem m1Fields_wf_iff (f : M1Fields) :
    f.wf = true ↔ f.fq ≤ 999999 ∧ AfeCfgOk (afeCfgOf f .one) ∧ AfeCfgOk (afeCfgOf f .two) := by
  simp only [M1Fields.wf, AfeCfgOk, afeCfgOf, Bool.and_eq_true, decide_eq_true_iff]
  tauto

theorem afeCfgOk_afeCfgOf {f : M1Fields} (h : f.wf = true) (ch : Channel) : AfeCfgOk (afeCfgOf f ch) := by
  obtain ⟨-, h1, h2⟩ := (m1Fields_wf_iff f).mp h
  cases ch
  · exact h1
  · exact h2

theorem stepOk_afterEvent {P : Params} {f : M1Fields} (h : f.wf = true) (ch : Channel) : StepOk P (afterEvent f ch) := by
  cases ch
  · exact h
  · exact ((m1Fields_wf_iff f).mp h).1

theorem stepOk_afterInstall (P : Params) (ch : Channel) : StepOk P (afterInstall ch) := by cases ch <;> trivial

theorem stepOk_afterStream {P : Params} {k : Nat} (h : k < streamLen) :
    StepOk P (if k + 1 = streamLen then .complete else .stream (k + 1)) := by
  split
  · trivial
  · next hne => exact ⟨Nat.le_add_left 1 k, Nat.lt_of_le_of_ne h hne⟩

theorem stepOk_afterRespond {P : Params} {b : Byte} {rest : List Byte} (h : (b :: rest).length ≤ 4) :
    StepOk P (if rest = [] then .complete else .respond rest) := by
  split
  · trivial
  · next hne => exact ⟨List.length_pos_iff.mpr hne, Nat.le_of_succ_le h⟩

theorem stepOk_afterReads {P : Params} {j sA sB : Nat} (hj : 1 ≤ j) (hA : sA ≤ (j + 1) / 2 * 65535)
    (hB : sB ≤ j / 2 * 65535) : StepOk P (afterReads P j sA sB) := by
  unfold afterReads
  split
  · next hlt => exact ⟨hj, hlt, hA, hB⟩
  · simp [StepOk]

/-- One read more keeps each sum within what its reads can add up to (R261). -/
theorem stepOk_readStep {P : Params} {j sA sB : Nat} {s : State} {q : SeqStep} (hA : sA ≤ (j + 1) / 2 * 65535)
    (hB : sB ≤ j / 2 * 65535) (hq : (readStep P j sA sB s).seq = .busy q) : StepOk P q := by
  have hv : (s.env.adcValue 0).toNat ≤ 65535 := Nat.le_of_lt_succ (s.env.adcValue 0).isLt
  rw [readStep_eq] at hq
  cases hq
  generalize (s.env.adcValue 0).toNat = v at hv ⊢
  split
  · have hnext : (j + 1 + 1) / 2 = (j + 1) / 2 + 1 := by omega
    refine stepOk_afterReads (Nat.le_add_left 1 j) ?_ (hB.trans (Nat.mul_le_mul_right _ (by omega)))
    rw [hnext, Nat.succ_mul]
    exact Nat.add_le_add hA hv
  · have hnext : (j + 1) / 2 = j / 2 + 1 := by omega
    refine stepOk_afterReads (Nat.le_add_left 1 j) (hA.trans (Nat.mul_le_mul_right _ (by omega))) ?_
    rw [hnext, Nat.succ_mul]
    exact Nat.add_le_add hB hv

/-- What the sequencer's move leaves for the next rule step is legal. -/
theorem SeqMove.position {s t : State} (h : SeqMove s t) (hi : Inv Config.params s) :
    ∀ q, t.seq = .busy q → StepOk Config.params q := by
  intro q hq
  cases h with
  | idle => exact hi.position q hq
  | take raw rest hs hr => cases hq; exact hi.lines raw (hr ▸ List.mem_cons_self)
  | m1 raw f hs hd => cases hq; exact decodeLine_wf hd
  | synth ch r k hs hr =>
    cases hq
    cases r with
    | timed buf => exact hr.timed_length
    | dc c => trivial
    | hold => trivial
  | install ch r hs hr => cases hq; exact stepOk_afterInstall _ ch
  | afeEvent f ch hs => cases hq; exact stepOk_afterEvent (hi.position _ hs) ch
  | afeSecond f hs => cases hq; exact hi.position (.afeSecond f) hs
  | stream k hs b hb =>
    cases hq
    exact stepOk_afterStream (streamBytes_length s ▸ (List.getElem?_eq_some_iff.mp hb).1)
  | read j sA sB hs =>
    rcases hs with ⟨raw, rfl, rfl, rfl, -, -⟩ | hs
    · exact stepOk_readStep (Nat.zero_le _) (Nat.zero_le _) hq
    · obtain ⟨-, -, hA, hB⟩ := hi.position _ hs
      exact stepOk_readStep hA hB hq
  | respond b rest hs => cases hq; exact stepOk_afterRespond (hi.position _ hs).2
  | _ => cases hq <;> trivial

/-! ### The hold for the capture, the fault and the window -/

/-- The sequencer moves on only where it has not faulted and waits for no running capture (R145, R256). -/
theorem SeqMove.eq_or_active {s t : State} (h : SeqMove s t) :
    t = s ∨ (s.seq ≠ .faulted ∧ (s.seq = .busy .capture → s.cap = .off)) := by
  cases h with
  | idle => exact .inl rfl
  | stream k hs =>
    rcases hs with ⟨-, hs, hc⟩ | hs
    · exact .inr ⟨by simp [hs], fun _ => hc⟩
    · exact .inr (by simp [hs])
  | read j sA sB hs => rcases hs with ⟨raw, -, -, -, hs, -⟩ | hs <;> exact .inr (by simp [hs])
  | _ => exact .inr (by simp [*])

/-- A capture starts with the sequencer's hold, and the hold lasts while it runs (R253, R256). -/
theorem SeqMove.waits {s t : State} (h : SeqMove s t) (hi : Inv Config.params s) (hc : t.cap ≠ .off) :
    t.seq = .busy .capture := by
  rcases h.cap_cases with he | ⟨rate, -, -, hseq⟩
  · rw [he] at hc
    have hs := hi.waits hc
    rcases h.eq_or_active with rfl | ⟨-, hoff⟩
    · exact hs
    · exact absurd (hoff hs) hc
  · exact hseq

/-- A move sets `FAULT` and `SEQ = Faulted` together, or neither (R292). -/
theorem SeqMove.fault_cases {s t : State} (h : SeqMove s t) :
    (t.fault = s.fault ∧ (t.seq = .faulted → s.seq = .faulted)) ∨ (t.seq = .faulted ∧ t.fault.isSome) := by
  cases h with
  | idle => exact .inl ⟨rfl, id⟩
  | dzZero | synthFault | installFault | captureFault => exact .inr ⟨rfl, rfl⟩
  | _ => exact .inl ⟨rfl, nofun⟩

theorem SeqMove.halted {s t : State} (h : SeqMove s t) (hi : Inv Config.params s) :
    t.seq = .faulted ↔ t.fault.isSome := by
  rcases h.fault_cases with ⟨hf, hseq⟩ | ⟨hseq, hf⟩
  · rw [hf, ← hi.halted]
    refine ⟨hseq, fun hs => ?_⟩
    rcases h.eq_or_active with rfl | ⟨hne, -⟩
    · exact hs
    · exact absurd hs hne
  · exact iff_of_true hseq hf

theorem inRearm_afterInstall (ch : Channel) : InRearm (.busy (afterInstall ch)) := by cases ch <;> trivial

theorem not_inRearm_afterEvent (f : M1Fields) (ch : Channel) : ¬InRearm (.busy (afterEvent f ch)) := by
  cases ch <;> exact id

theorem not_inRearm_readStep (P : Params) (j sA sB : Nat) (s : State) : ¬InRearm (readStep P j sA sB s).seq := by
  rw [readStep_eq]
  unfold afterReads
  split <;> split <;> exact id

/-- A move that ends inside a re-arm opens the window or finds it open (R217). -/
theorem SeqMove.window {s t : State} (h : SeqMove s t) (hi : Inv Config.params s) (hw : InRearm t.seq) :
    t.rearm = true := by
  cases h with
  | idle => exact hi.window hw
  | rearmBegin => rfl
  | synth ch r k hs => exact hi.window (hs ▸ trivial)
  | install ch r hs => exact hi.window (hs ▸ trivial)
  | afeEvent f ch => exact absurd hw (not_inRearm_afterEvent f ch)
  | read j sA sB => exact absurd hw (not_inRearm_readStep _ j sA sB s)
  | stream | respond =>
    split at hw <;> exact hw.elim
  | _ => exact hw.elim

/-- From inside a re-arm, or halted, a move stays there or closes the window (R217, R292). -/
theorem SeqMove.stays_inside {s t : State} (h : SeqMove s t) (hs : InRearm s.seq ∨ s.seq = .faulted) :
    t.rearm = false ∨ InRearm t.seq ∨ t.seq = .faulted := by
  cases h with
  | idle => exact .inr hs
  | rearmEnd => exact .inl rfl
  | synth => exact .inr (.inl trivial)
  | install ch => exact .inr (.inl (inRearm_afterInstall ch))
  | dzZero | synthFault | installFault | captureFault => exact .inr (.inr rfl)
  | stream k h => rcases h with ⟨-, h, -⟩ | h <;> simp [h, InRearm] at hs
  | read j sA sB h => rcases h with ⟨raw, -, -, -, h, -⟩ | h <;> simp [h, InRearm] at hs
  | _ => simp [*, InRearm] at hs

theorem SeqMove.rearm_cases {s t : State} (h : SeqMove s t) :
    t.rearm = s.rearm ∨ (t.rearm = true ∧ InRearm t.seq) ∨ t.rearm = false := by
  cases h with
  | rearmBegin => exact .inr (.inl ⟨rfl, trivial⟩)
  | rearmEnd => exact .inr (.inr rfl)
  | _ => exact .inl rfl

theorem SeqMove.windowOnly {s t : State} (h : SeqMove s t) (hi : Inv Config.params s) (hr : t.rearm = true) :
    InRearm t.seq ∨ t.seq = .faulted := by
  rcases h.rearm_cases with he | ⟨-, hin⟩ | he
  · exact (h.stays_inside (hi.windowOnly (he ▸ hr))).resolve_left (by simp [hr])
  · exact .inl hin
  · cases hr.symm.trans he

/-! ### The elements that a move writes keep their bounds -/

theorem forall_get_set {α : Type} {p : PerChannel α} {Q : α → Prop} {v : α} (h : ∀ ch, Q (p.get ch)) (hv : Q v)
    (ch' ch : Channel) : Q ((p.set ch' v).get ch) := by
  by_cases hch : ch = ch'
  · subst hch
    rwa [PerChannel.get_set_self]
  · rw [PerChannel.get_set_ne _ _ hch]
    exact h ch

theorem SeqMove.wave_ok {s t : State} (h : SeqMove s t) (hi : Inv Config.params s) (ch : Channel) :
    GenRegOk (t.wave.get ch) := by
  rcases h.wave_cases with he | ⟨raw, ch', f, -, hd, he⟩ <;> rw [he]
  · exact hi.wave ch
  · have hf : f.wf = true := by
      rcases hd with ⟨-, hd⟩ | ⟨-, hd⟩
      · exact decodeLine_wf hd
      · exact decodeLine_wf hd
    exact forall_get_set hi.wave (genRegOk_genRegOf hf) ch' ch

theorem SeqMove.afe_ok {s t : State} (h : SeqMove s t) (hi : Inv Config.params s) (ch : Channel) :
    AfeCfgOk (t.afe.get ch) := by
  rcases h.afe_cases with he | ⟨ch', f, hs, he⟩ <;> rw [he]
  · exact hi.afe ch
  · have hf : f.wf = true := by
      rcases hs with ⟨raw, -, hd⟩ | hs
      · exact decodeLine_wf hd
      · exact hi.position (.afeSecond f) hs
    exact forall_get_set hi.afe (afeCfgOk_afeCfgOf hf ch') ch' ch

/-- The playback an install leaves is legal, the buffer being one and the rate too (R210, R212). -/
theorem playbackOk_installedPb {s : State} {ch : Channel} {r : SynResult}
    (hs : StepOk Config.params (.install ch r)) (hr : RateOk s ch r) :
    PlaybackOk Config.params (installedPb s ch r) := by
  cases r with
  | timed buf =>
    obtain ⟨hmin, hmax⟩ := hs
    exact ⟨hmin, hmax, Nat.lt_of_lt_of_le (by decide) hmin, hr⟩
  | dc c => trivial
  | hold => trivial

theorem SeqMove.playback_ok {s t : State} (h : SeqMove s t) (hi : Inv Config.params s) (ch : Channel) :
    PlaybackOk Config.params (t.pb.get ch) := by
  rcases h.pb_cases with he | ⟨ch', r, hs, hr, he⟩ <;> rw [he]
  · exact hi.playback ch
  · exact forall_get_set hi.playback (playbackOk_installedPb (hi.position _ hs) hr) ch' ch

theorem SeqMove.capture_ok {s t : State} (h : SeqMove s t) (hi : Inv Config.params s) :
    CaptureOk Config.params t.cap := by
  rcases h.cap_cases with he | ⟨rate, hr, he, -⟩ <;> rw [he]
  · exact hi.capture
  · exact ⟨by decide, hr⟩

theorem SeqMove.lines_ok {s t : State} (h : SeqMove s t) (hi : Inv Config.params s) : ∀ raw ∈ t.rxq, lf ∉ raw := by
  rcases h.rxq_cases with he | ⟨raw, he⟩
  · exact he ▸ hi.lines
  · exact fun raw' h' => hi.lines raw' (he ▸ List.mem_cons_of_mem raw h')

theorem SeqMove.keeps_inv {s t : State} (h : SeqMove s t) (hi : Inv Config.params s) : Inv Config.params t where
  wave := h.wave_ok hi
  afe := h.afe_ok hi
  playback := h.playback_ok hi
  capture := h.capture_ok hi
  position := h.position hi
  waits := h.waits hi
  halted := h.halted hi
  window := h.window hi
  windowOnly := h.windowOnly hi
  lines := h.lines_ok hi

/-! ### The turns of the other agents -/

/-- Another agent's turn can break only the clauses on the elements that it may write. -/
theorem KeepsSequencerElements.keeps_inv {s t : State} (h : KeepsSequencerElements s t) (hi : Inv Config.params s)
    (hpb : ∀ ch, PlaybackOk Config.params (t.pb.get ch)) (hcap : CaptureOk Config.params t.cap)
    (hrun : t.cap ≠ .off → s.cap ≠ .off) (hrxq : ∀ raw ∈ t.rxq, lf ∉ raw) : Inv Config.params t where
  wave := h.wave ▸ hi.wave
  afe := h.afe ▸ hi.afe
  playback := hpb
  capture := hcap
  position := h.seq ▸ hi.position
  waits hc := h.seq ▸ hi.waits (hrun hc)
  halted := by rw [h.seq, h.fault]; exact hi.halted
  window := by rw [h.seq, h.rearm]; exact hi.window
  windowOnly := by rw [h.seq, h.rearm]; exact hi.windowOnly
  lines := hrxq

theorem lineArrives_keeps_inv {s : State} (raw : List Byte) (hi : Inv Config.params s) :
    Inv Config.params (lineArrives raw s) := by
  have hk := lineArrives_keeps raw s
  rcases lineArrives_cases raw s with he | ⟨hl, he⟩ <;> rw [he] at hk ⊢
  · exact hi
  · refine hk.keeps_inv hi hi.playback hi.capture id fun raw' h' => ?_
    rcases List.mem_append.mp h' with h' | h'
    · exact hi.lines raw' h'
    · exact List.mem_singleton.mp h' ▸ hl

/-- A playback tick steps its index around the buffer (R216). -/
theorem tickDac_keeps_inv {s t : State} {ch : Channel} (h : tickDac ch s = .next t) (hi : Inv Config.params s) :
    Inv Config.params t := by
  have hk := tickDac_keeps h
  rcases tickDac_cases h with ⟨-, rfl⟩ | ⟨buf, rate, idx, hidx, hp, rfl⟩
  · exact hi
  · obtain ⟨hmin, hmax, -, hrate⟩ := hp ▸ hi.playback ch
    have hnew : PlaybackOk Config.params (.timed buf rate ((idx + 1) % buf.length)) :=
      ⟨hmin, hmax, Nat.mod_lt _ (Nat.zero_lt_of_lt hidx), hrate⟩
    exact hk.keeps_inv hi (forall_get_set hi.playback hnew ch) hi.capture id hi.lines

/-- A capture tick fills the next entry, and the 1000th stops the capture (R254). -/
theorem tickCap_keeps_inv {s : State} (hi : Inv Config.params s) : Inv Config.params (tickCap s) := by
  have hk := tickCap_keeps s
  rcases tickCap_cases s with he | ⟨k, rate, hlt, hc, he⟩ <;> rw [he] at hk ⊢
  · exact hi
  · obtain ⟨-, hrate⟩ := hc ▸ hi.capture
    refine hk.keeps_inv hi hi.playback ?_ (fun _ => by rw [hc]; nofun) hi.lines
    change CaptureOk _ (if k + 1 = Config.bufSize then .off else .running (k + 1) rate)
    split
    · trivial
    · next hne => exact ⟨Nat.lt_of_le_of_ne hlt hne, hrate⟩

theorem glitch_keeps_inv {s : State} (ch : Channel) (v : Code) (hi : Inv Config.params s) :
    Inv Config.params (glitch ch v s) := by
  have hk := glitch_keeps ch v s
  rcases glitch_cases ch v s with ⟨-, he⟩ | ⟨-, he⟩ <;> rw [he] at hk ⊢
  · exact hi
  · exact hk.keeps_inv hi hi.playback hi.capture id hi.lines

theorem TurnMove.keeps_inv {s t : State} {turn : Turn} (h : TurnMove s turn t) (hi : Inv Config.params s) :
    Inv Config.params t := by
  cases h with
  | sequencer _ hm => exact hm.keeps_inv hi
  | line raw => exact lineArrives_keeps_inv raw hi
  | tickDac ch _ ht => exact tickDac_keeps_inv ht hi
  | tickCap => exact tickCap_keeps_inv hi
  | glitch ch v => exact glitch_keeps_inv ch v hi
  | capTimeout => exact hi
  | powerOn => exact inv_resetWith s.env

/-! ### The UNSET DACs -/

theorem ampOf_congr {s t : State} (h : t.wave = s.wave) (ch : Channel) : ampOf t ch = ampOf s ch := by
  rw [ampOf, ampOf, h]

/-- No line is decoded before a channel's install, so its register stays (R333). -/
theorem SeqMove.ampOf_eq {s t : State} (h : SeqMove s t) {ch : Channel} (hb : BeforeInstall ch s.seq) :
    ampOf t ch = ampOf s ch := by
  rcases h.wave_cases with he | ⟨raw, ch', f, hs, -, -⟩
  · exact ampOf_congr he ch
  · rw [hs] at hb
    exact hb.elim

/-- An install that has begun before the channel was installed is in DC mode, and drives the channel or goes on to the
other one (R211, R217). -/
theorem beforeInstall_installed {s : State} {ch ch' : Channel} {r : SynResult}
    (hb : BeforeInstall ch (.busy (.install ch' r))) (hd : (installed s ch' r (afterInstall ch')).dac.get ch = none) :
    BeforeInstall ch (.busy (afterInstall ch')) := by
  cases ch' with
  | one =>
    cases ch with
    | one =>
      obtain ⟨c, rfl⟩ := hb rfl
      cases hd
    | two => rfl
  | two =>
    obtain ⟨rfl, c, rfl⟩ := hb
    cases hd

/-- What the sequencer does before a channel is installed leaves it before its install, or halted (R333). -/
theorem SeqMove.beforeInstall {s t : State} (h : SeqMove s t) {ch : Channel} (hd : t.dac.get ch = none)
    (ha : ampOf s ch = 0) (hb : BeforeInstall ch s.seq) : BeforeInstall ch t.seq := by
  cases h with
  | idle => exact hb
  | startup | rearmBegin | dzZero | synthFault | installFault | captureFault => trivial
  | synth ch' r k hs hr =>
    rw [hs] at hb
    cases ch' with
    | one => rintro rfl; exact hr.dc_of_amp_zero ha
    | two => cases hb; exact ⟨rfl, hr.dc_of_amp_zero ha⟩
  | install ch' r hs hr => exact beforeInstall_installed (s := s) (hs ▸ hb) hd
  | stream k hs => rcases hs with ⟨-, hs, -⟩ | hs <;> simp [hs, BeforeInstall] at hb
  | read j sA sB hs => rcases hs with ⟨raw, -, -, -, hs, -⟩ | hs <;> simp [hs, BeforeInstall] at hb
  | _ => simp [*, BeforeInstall] at hb

theorem set_some_get_eq_none {α : Type} {p : PerChannel (Option α)} {ch ch' : Channel} {v : α}
    (h : (p.set ch' (some v)).get ch = none) : p.get ch = none := by
  by_cases hch : ch = ch'
  · subst hch
    rw [PerChannel.get_set_self] at h
    cases h
  · rwa [PerChannel.get_set_ne _ _ hch] at h
/-- A move of the sequencer unsets no DAC. -/
theorem SeqMove.dac_none {s t : State} (h : SeqMove s t) {ch : Channel} (hd : t.dac.get ch = none) :
    s.dac.get ch = none := by
  rcases h.dac_cases with he | ⟨ch', r, -, he⟩ <;> rw [he] at hd
  · exact hd
  · by_cases hch : ch = ch'
    · subst hch
      rw [PerChannel.get_set_self] at hd
      cases r with
      | dc c => cases hd
      | timed buf => exact hd
      | hold => exact hd
    · rwa [PerChannel.get_set_ne _ _ hch] at hd

theorem SeqMove.keeps_dacInv {s t : State} (h : SeqMove s t) (hi : DacInv s) : DacInv t := by
  intro ch hd
  obtain ⟨ha, hb⟩ := hi ch (h.dac_none hd)
  exact ⟨(h.ampOf_eq hb).trans ha, h.beforeInstall hd ha hb⟩

theorem KeepsSequencerElements.keeps_dacInv {s t : State} (h : KeepsSequencerElements s t) (hi : DacInv s)
    (hdac : ∀ ch, t.dac.get ch = none → s.dac.get ch = none) : DacInv t := by
  intro ch hd
  obtain ⟨ha, hb⟩ := hi ch (hdac ch hd)
  exact ⟨(ampOf_congr h.wave ch).trans ha, h.seq ▸ hb⟩

/-- The other agents' turns set DACs, and unset none. -/
theorem TurnMove.keeps_dacInv {s t : State} {turn : Turn} (h : TurnMove s turn t) (hi : DacInv s) : DacInv t := by
  cases h with
  | sequencer _ hm => exact hm.keeps_dacInv hi
  | line raw =>
    refine (lineArrives_keeps raw s).keeps_dacInv hi fun ch hd => ?_
    rcases lineArrives_cases raw s with he | ⟨-, he⟩ <;> rwa [he] at hd
  | tickDac ch' _ ht =>
    refine (tickDac_keeps ht).keeps_dacInv hi fun ch hd => ?_
    rcases tickDac_cases ht with ⟨-, rfl⟩ | ⟨buf, rate, idx, hidx, -, rfl⟩
    · exact hd
    · exact set_some_get_eq_none hd
  | tickCap =>
    refine (tickCap_keeps s).keeps_dacInv hi fun ch hd => ?_
    rcases tickCap_cases s with he | ⟨k, rate, hk, -, he⟩ <;> rwa [he] at hd
  | glitch ch' v =>
    refine (glitch_keeps ch' v s).keeps_dacInv hi fun ch hd => ?_
    rcases glitch_cases ch' v s with ⟨-, he⟩ | ⟨-, he⟩ <;> rw [he] at hd
    · exact hd
    · exact set_some_get_eq_none hd
  | capTimeout => exact hi
  | powerOn => exact dacInv_resetWith s.env

/-! ### The turn taken off the list -/

/-- Neither invariant speaks of the list of turns (log 3). -/
theorem inv_popTurn {s : State} (hi : Inv Config.params s) : Inv Config.params (popTurn s) :=
  ⟨hi.wave, hi.afe, hi.playback, hi.capture, hi.position, hi.waits, hi.halted, hi.window, hi.windowOnly, hi.lines⟩

theorem dacInv_popTurn {s : State} (hi : DacInv s) : DacInv (popTurn s) := hi

/-! ### The obligations -/

/-- Settles O58, turn by turn: a move of the sequencer keeps each clause of the invariant, and another agent's turn can
touch only the playbacks, the capture and the queue. -/
theorem stepKeepsTheInvariant : Obligations.StepKeepsTheInvariant := fun _ _ hi h =>
  (step_move h).keeps_inv (inv_popTurn hi)

/-- Settles O60, turn by turn: until a channel is installed its register stays in DC mode, so that the install drives its
DAC. -/
theorem stepKeepsTheUnsetDacInvariant : Obligations.StepKeepsTheUnsetDacInvariant := fun _ _ hi h =>
  (step_move h).keeps_dacInv (dacInv_popTurn hi)

/-- Settles O57, for the empty environment of `State.reset`. -/
theorem invariantsHoldAtReset : Obligations.InvariantsHoldAtReset :=
  ⟨inv_resetWith Env.reset, dacInv_resetWith Env.reset⟩

end Sys2Proof.Machine
end

section
/-! SUPPORT. The order of a command's rule steps, and the capture's stream. -/

namespace Sys2Proof.Machine

open Safety

/-! ### The rule step that comes before (R79, R140) -/

theorem comesFrom_afterInstall (ch : Channel) (r : SynResult) : ComesFrom (.busy (.install ch r)) (afterInstall ch) := by
  cases ch with
  | one => exact ⟨r, rfl⟩
  | two => exact ⟨r, rfl⟩

theorem comesFrom_afterEvent (f : M1Fields) (ch : Channel) : ComesFrom (.busy (.afeEvent f ch)) (afterEvent f ch) := by
  cases ch with
  | one => rfl
  | two => exact ⟨f, rfl, rfl⟩

/-- Only the byte at place 3999, which the end of the hold does not send, is the last one (R255). -/
theorem comesFrom_afterStream {p : Seq} {k : Nat} (h : (k = 0 ∧ p = .busy .capture) ∨ p = .busy (.stream k)) :
    ComesFrom p (if k + 1 = streamLen then .complete else .stream (k + 1)) := by
  split
  · next hlast =>
    obtain rfl : k = 3999 := Nat.succ_injective hlast
    rcases h with ⟨h0, -⟩ | rfl
    · exact absurd h0 (by decide)
    · exact .inr (.inl rfl)
  · rcases h with ⟨rfl, rfl⟩ | rfl
    · exact .inl ⟨rfl, rfl⟩
    · exact .inr ⟨k, rfl, rfl⟩

theorem comesFrom_afterRespond (b : Byte) (rest : List Byte) :
    ComesFrom (.busy (.respond (b :: rest))) (if rest = [] then .complete else .respond rest) := by
  split
  · next hnil => exact hnil ▸ .inr (.inr (.inl ⟨b, rfl⟩))
  · exact .inr ⟨b, rfl⟩

/-- After read `j` comes another read, or with twenty of them made the response (R259). -/
theorem readStep_seq_cases {P : Params} {j sA sB : Nat} {s : State} {q : SeqStep}
    (h : (readStep P j sA sB s).seq = .busy q) :
    (∃ a b, q = .reads (j + 1) a b) ∨ (readCount ≤ j + 1 ∧ ∃ bytes, q = .respond bytes) := by
  have hafter : ∃ a b, q = afterReads P (j + 1) a b := by
    rw [readStep_eq] at h
    cases h
    split
    · exact ⟨_, _, rfl⟩
    · exact ⟨_, _, rfl⟩
  obtain ⟨a, b, rfl⟩ := hafter
  unfold afterReads
  split
  · exact .inl ⟨a, b, rfl⟩
  · next hdone => exact .inr ⟨not_lt.mp hdone, _, rfl⟩

/-- From a legal position the sequencer's move holds its position, or goes on in the order of the rules. The invariant
rules out a position past the last read or past the last byte, where a command would end out of order. -/
theorem SeqMove.comesFrom {s t : State} {q : SeqStep} (h : SeqMove s t) (hi : Inv Config.params s)
    (hq : t.seq = .busy q) : t.seq = s.seq ∨ ComesFrom s.seq q := by
  cases h with
  | idle => exact .inl rfl
  | take raw rest hs => cases hq; exact .inr hs
  | generator raw ch f hs hd =>
    cases hq
    exact .inr (.inr ⟨raw, f, hs, hd.imp And.right And.right⟩)
  | m1 raw f hs hd => cases hq; exact .inr ⟨raw, hs, hd⟩
  | dz raw cv hs hd hcv => cases hq; exact .inr (.inr (.inr (.inr ⟨raw, cv, hs, hd, hcv⟩)))
  | startup hs => cases hq; exact .inr (.inl hs)
  | rearmBegin hs => cases hq; exact .inr hs
  | synth ch r k hs => cases hq; exact .inr hs
  | install ch r hs => cases hq; exact .inr (hs ▸ comesFrom_afterInstall ch r)
  | rearmEnd hs => cases hq; exact .inr (.inl hs)
  | afeEvent f ch hs => cases hq; exact .inr (hs ▸ comesFrom_afterEvent f ch)
  | afeSecond f hs => cases hq; exact .inr hs
  | captureStart rate hs => cases hq; exact .inr ⟨rate, hs⟩
  | stream k hs =>
    cases hq
    exact .inr (comesFrom_afterStream (hs.imp_left fun ⟨hk, hs, _⟩ => ⟨hk, hs⟩))
  | streamEnd k hs hk =>
    obtain ⟨-, hlt⟩ : 1 ≤ k ∧ k < streamLen := hi.position _ hs
    exact absurd hlt (not_lt.mpr hk)
  | read j sA sB hs =>
    right
    rcases hs with ⟨raw, rfl, -, -, hs, hd⟩ | hs
    · rcases readStep_seq_cases hq with ⟨a, b, rfl⟩ | ⟨hlast, -⟩
      · exact .inl ⟨raw, rfl, hs, hd⟩
      · exact absurd hlast (by decide)
    · rcases readStep_seq_cases hq with ⟨a, b, rfl⟩ | ⟨hlast, bytes, rfl⟩
      · exact .inr ⟨j, sA, sB, rfl, hs⟩
      · obtain ⟨-, hlt, -, -⟩ := hi.position _ hs
        obtain rfl : j = 19 := Nat.succ_injective (Nat.le_antisymm hlt hlast)
        exact .inl ⟨sA, sB, hs⟩
  | respond b rest hs => cases hq; exact .inr (hs ▸ comesFrom_afterRespond b rest)
  | respondEnd hs =>
    obtain ⟨hlen, -⟩ := hi.position _ hs
    exact absurd hlen (by decide)
  | noOp | dzZero | synthFault | installFault | captureFault | complete => cases hq

/-! ### The stream (R255) -/

/-- `SEQ` is where byte `k` is sent next: at the end of the capture's hold for byte 0, later at its place. -/
def AtByte (s : State) (k : Nat) : Prop :=
  (k = 0 ∧ s.seq = .busy .capture ∧ s.cap = .off) ∨ s.seq = .busy (.stream k)

theorem step_capture_holds {s : State} (hn : nextTurn s = .sequencer) (hs : s.seq = .busy .capture) (hc : s.cap ≠ .off) :
    step s = .next (popTurn s) := by
  rw [step_busy hn hs ⟨nofun, nofun⟩, busyStep, awaitCapture, if_neg (show (popTurn s).cap ≠ .off from hc)]

/-- At byte `k` the sequencer's turn is the step of the stream there. -/
theorem step_atByte {s : State} {k : Nat} (hn : nextTurn s = .sequencer) (h : AtByte s k) :
    step s = .next (streamStep Config.params k (popTurn s)) := by
  rcases h with ⟨rfl, hs, hc⟩ | hs
  · rw [step_busy hn hs ⟨nofun, nofun⟩, busyStep, awaitCapture, if_pos (show (popTurn s).cap = .off from hc)]
  · rw [step_busy hn hs ⟨nofun, nofun⟩, busyStep]

/-- One byte is sent, and the sequencer goes on to the next one, or ends the command after the last. -/
theorem step_sendsByte {s : State} {k : Nat} {b : Byte} (hn : nextTurn s = .sequencer) (h : AtByte s k)
    (hb : (streamBytes s)[k]? = some b) :
    step s = .next { popTurn s with
      tx := s.tx ++ [b], seq := .busy (if k + 1 = streamLen then .complete else .stream (k + 1)) } := by
  obtain ⟨hk, rfl⟩ := List.getElem?_eq_some_iff.mp hb
  rw [step_atByte hn h, streamStep_eq (by rwa [streamBytes_length] at hk)]
  rfl

/-- `s` with the first `k` bytes of its stream sent, and `SEQ` at the rule step after them. -/
def streamed (s : State) (k : Nat) : State :=
  { s with
    tx := s.tx ++ (streamBytes s).take k
    seq := .busy (if k = streamLen then .complete else .stream k) }

theorem atByte_streamed (s : State) {k : Nat} (h : k < streamLen) : AtByte (streamed s k) k := by
  right
  rw [streamed, if_neg (Nat.ne_of_lt h)]

theorem step_streamed {s : State} {k : Nat} (ht : s.env.turns = []) (h : k < streamLen) :
    step (streamed s k) = .next (streamed s (k + 1)) := by
  have hk : k < (streamBytes s).length := by rwa [streamBytes_length]
  have hturns : (streamed s k).env.turns = [] := ht
  rw [step_sendsByte (nextTurn_of_nil hturns) (atByte_streamed s h) (List.getElem?_eq_getElem hk),
    popTurn_of_nil hturns]
  simp only [streamed, List.take_succ_eq_append_getElem hk, List.append_assoc]

/-- From the end of the hold, with no other turn between, `k + 1` steps send the first `k + 1` bytes. -/
theorem runs_streamed {s : State} (hs : s.seq = .busy .capture) (hc : s.cap = .off) (ht : s.env.turns = []) {k : Nat}
    (h : k < streamLen) : Runs (k + 1) s (streamed s (k + 1)) := by
  induction k with
  | zero =>
    have hk : 0 < (streamBytes s).length := by rwa [streamBytes_length]
    rw [runs_one, step_sendsByte (nextTurn_of_nil ht) (.inl ⟨rfl, hs, hc⟩) (List.getElem?_eq_getElem hk),
      popTurn_of_nil ht, streamed, List.take_succ_eq_append_getElem hk]
    rfl
  | succ k ih => exact runs_add (ih (Nat.lt_of_succ_lt h)) (runs_one.mpr (step_streamed ht h))

/-- With no other turn between, one step a byte and one more send the whole stream and end the command. -/
theorem runs_wholeStream {s : State} (hs : s.seq = .busy .capture) (hc : s.cap = .off) (ht : s.env.turns = []) :
    Runs (streamLen + 1) s { s with tx := s.tx ++ streamBytes s, seq := .ready } := by
  have hsent : Runs streamLen s (streamed s streamLen) := runs_streamed hs hc ht (by decide : 3999 < streamLen)
  have hturns : (streamed s streamLen).env.turns = [] := ht
  refine runs_add hsent (runs_one.mpr ?_)
  rw [step_busy (q := .complete) (nextTurn_of_nil hturns) rfl ⟨nofun, nofun⟩, popTurn_of_nil hturns, busyStep, streamed,
    List.take_of_length_le (streamBytes_length s).le]
  rfl

theorem streamWords_length (s : State) : (s.capA.toList ++ s.capB.toList).length = 2 * Config.bufSize := by
  simp [Nat.two_mul]

/-- Word `k` of the stream is `CAPA[k]` (R255). -/
theorem streamBytes_capA (s : State) {k : Nat} (h : k < Config.bufSize) :
    ((streamBytes s).drop (2 * k)).take 2 = wordBytes Config.params.streamEndian s.capA[k] := by
  have hk : k < s.capA.toList.length := by simpa using h
  rw [streamBytes, responseBytes_word _ _ k (by rw [streamWords_length]; omega),
    List.getElem_append_left hk, Vector.getElem_toList]

/-- Word `1000 + k` of the stream is `CAPB[k]` (R255). -/
theorem streamBytes_capB (s : State) {k : Nat} (h : k < Config.bufSize) :
    ((streamBytes s).drop (2 * (Config.bufSize + k))).take 2 = wordBytes Config.params.streamEndian s.capB[k] := by
  have hk : s.capA.toList.length ≤ Config.bufSize + k := by simp
  rw [streamBytes, responseBytes_word _ _ (Config.bufSize + k) (by rw [streamWords_length]; omega),
    List.getElem_append_right hk]
  simp

/-! ### Words (R72) -/

theorem wordBytes_le_toNat (w : Sample) : (wordBytes .le w).map BitVec.toNat = [w.toNat % 256, w.toNat / 256] := by
  have hhigh : w.toNat / 256 < 256 := Nat.div_lt_of_lt_mul w.isLt
  simp [wordBytes, wordByte, BitVec.extractLsb'_toNat, Nat.shiftRight_eq_div_pow, Nat.mod_eq_of_lt hhigh]

/-- Big-endian order is little-endian order reversed. -/
theorem wordBytes_be (w : Sample) : wordBytes .be w = (wordBytes .le w).reverse := rfl

/-! ### The obligations -/

/-- Settles O14: no agent but the sequencer writes `SEQ`, and its move goes on in the order of the rules. -/
theorem commandsFollowTheirRules : Obligations.CommandsFollowTheirRules := by
  intro s t q hi hp h hq
  rcases (step_move h).sequencer_or_keeps hp with ⟨hn, hm⟩ | hk
  · exact (hm.comesFrom (inv_popTurn hi) hq).imp_right fun hfrom => ⟨hn, hfrom⟩
  · exact .inl hk.seq

/-- Settles O43: the hold, a byte, the run by induction on the bytes sent, and the words of the stream. -/
theorem streamSendsBothBuffers : Obligations.StreamSendsBothBuffers := by
  refine ⟨fun s => step_capture_holds, fun s k b hn h hb => ?_, fun s => runs_wholeStream,
    fun s => ⟨streamBytes_length s, fun k h => ⟨streamBytes_capA s h, ?_⟩⟩⟩
  · have hlast : k + 1 = streamLen ↔ k = 3999 := Nat.succ_inj
    rw [step_sendsByte hn h hb]
    simp only [hlast]
  · rw [show 2000 + 2 * k = 2 * (Config.bufSize + k) from (Nat.mul_add 2 1000 k).symm, streamBytes_capB s h]

/-- Settles O47: the two halves of the word, and their reversal. -/
theorem wordBytesFollowTheByteOrder : Obligations.WordBytesFollowTheByteOrder := by
  intro w
  rw [wordBytes_be, List.map_reverse, wordBytes_le_toNat]
  exact ⟨rfl, rfl⟩

end Sys2Proof.Machine
end

section
/-! SUPPORT. The decoder, definition by definition (R100 to R107, R110): the framing, the fields, the three formats, the
tag, and the lines that are no instruction. -/

namespace Sys2Proof

/-! ### Framing (R100) -/

theorem frameFrom_append_lf {raw : List Byte} (h : lf ∉ raw) (cur rest : List Byte) :
    frameFrom cur (raw ++ lf :: rest) = (cur ++ raw) :: frame rest := by
  induction raw generalizing cur with
  | nil => simp [frameFrom, frame]
  | cons b raw ih =>
    rw [List.mem_cons, not_or] at h
    rw [List.cons_append, frameFrom, if_neg (Ne.symm h.1), ih h.2, List.append_assoc, List.singleton_append]

theorem frameFrom_eq_nil {raw : List Byte} (h : lf ∉ raw) (cur : List Byte) : frameFrom cur raw = [] := by
  induction raw generalizing cur with
  | nil => rfl
  | cons b raw ih =>
    rw [List.mem_cons, not_or] at h
    rw [frameFrom, if_neg (Ne.symm h.1), ih h.2]

theorem stripCr_eq_self {raw : List Byte} (h : raw.getLast? ≠ some cr) : stripCr raw = raw := if_neg h

@[simp] theorem stripCr_append_cr (raw : List Byte) : stripCr (raw ++ [cr]) = raw := by simp [stripCr]

/-- Every line is its stripped form, with or without one carriage return. -/
theorem eq_stripCr_or_append_cr (raw : List Byte) : raw = stripCr raw ∨ raw = stripCr raw ++ [cr] := by
  by_cases h : raw.getLast? = some cr
  · obtain ⟨ys, rfl⟩ := List.getLast?_eq_some_iff.mp h
    exact .inr (by rw [stripCr_append_cr])
  · exact .inl (stripCr_eq_self h).symm

theorem mem_of_mem_stripCr {raw : List Byte} {b : Byte} (h : b ∈ stripCr raw) : b ∈ raw := by
  rcases eq_stripCr_or_append_cr raw with he | he <;> rw [he]
  · exact h
  · exact List.mem_append_left _ h

theorem stripCr_append {junk : List Byte} (h : junk ≠ []) (line : List Byte) :
    stripCr (line ++ junk) = line ++ stripCr junk := by
  rcases eq_stripCr_or_append_cr junk with he | he
  · rw [← he]
    refine stripCr_eq_self fun hcr => ?_
    rw [List.getLast?_append_of_ne_nil _ h] at hcr
    obtain ⟨ys, rfl⟩ := List.getLast?_eq_some_iff.mp hcr
    rw [stripCr_append_cr] at he
    exact absurd (congrArg List.length he) (by simp)
  · rw [he, ← List.append_assoc, stripCr_append_cr, stripCr_append_cr]

/-- A line decodes as its bytes without the carriage return. -/
theorem decodeLine_congr {raw raw' : List Byte} (h : stripCr raw = stripCr raw') :
    decodeLine raw = decodeLine raw' := by
  rw [decodeLine, decodeLine, h]

/-! ### Fields (R103) -/

theorem decField_of_digits {cs : List Byte} (hne : cs ≠ []) (hd : ∀ b ∈ cs, isDigit b = true) :
    decField cs = some (dec cs) := by
  refine if_pos ?_
  rw [Bool.and_eq_true, Bool.not_eq_true', List.isEmpty_eq_false_iff, List.all_eq_true]
  exact ⟨hne, hd⟩

theorem decField_ne_none_iff (cs : List Byte) : decField cs ≠ none ↔ cs ≠ [] ∧ ∀ b ∈ cs, isDigit b = true := by
  constructor
  · intro h
    obtain ⟨v, hv⟩ := Option.ne_none_iff_exists'.mp h
    obtain ⟨hne, hd, -⟩ := decField_eq_some hv
    exact ⟨hne, hd⟩
  · rintro ⟨hne, hd⟩
    rw [decField_of_digits hne hd]
    exact Option.some_ne_none _

theorem digits_of_decField {cs : List Byte} {v : Nat} (h : decField cs = some v) : ∀ b ∈ cs, isDigit b = true :=
  (decField_eq_some h).2.1

theorem decField_singleton {d : Byte} (hd : isDigit d = true) : decField [d] = some (d.toNat - 0x30) := by
  rw [decField_of_digits (List.cons_ne_nil d []) (List.forall_mem_singleton.mpr hd)]
  simp [dec]

theorem decField_append_digit {cs : List Byte} {v : Nat} {d : Byte} (h : decField cs = some v) (hd : isDigit d = true) :
    decField (cs ++ [d]) = some (10 * v + (d.toNat - 0x30)) := by
  obtain ⟨-, hcs, rfl⟩ := decField_eq_some h
  have hall := List.forall_mem_append.mpr ⟨hcs, List.forall_mem_singleton.mpr hd⟩
  rw [decField_of_digits (by simp) hall, dec_append_singleton]

/-! ### The characters of a line (R9) -/

theorem chars_append_chars (line : List Byte) {i j k : Nat} (hij : i ≤ j) (hjk : j ≤ k) :
    chars line i j ++ chars line j k = chars line i k := by
  have hk : k - i = (j - i) + (k - j) := by omega
  rw [chars, chars, chars, hk, List.take_add, List.drop_drop, Nat.add_sub_cancel' hij]

theorem chars_append_drop (line : List Byte) {i j : Nat} (hij : i ≤ j) :
    chars line i j ++ line.drop j = line.drop i := by
  have hj : line.drop j = (line.drop i).drop (j - i) := by rw [List.drop_drop, Nat.add_sub_cancel' hij]
  rw [hj, chars, List.take_append_drop]

/-- Characters before the end of a line do not depend on what follows it. -/
theorem chars_append_of_le {line : List Byte} (junk : List Byte) (i : Nat) {j : Nat} (h : j ≤ line.length) :
    chars (line ++ junk) i j = chars line i j := by
  rcases Nat.le_total i j with hij | hji
  · rw [chars, chars, List.drop_append_of_le_length (hij.trans h), List.take_append_of_le_length]
    rw [List.length_drop]
    exact Nat.sub_le_sub_right h i
  · rw [chars, chars, Nat.sub_eq_zero_of_le hji, List.take_zero, List.take_zero]

/-- Characters from `k` on do not depend on those before. -/
theorem chars_congr_drop {line line' : List Byte} {k : Nat} (h : line'.drop k = line.drop k) {i : Nat} (hi : k ≤ i)
    (j : Nat) : chars line' i j = chars line i j := by
  have hd : line'.drop i = line.drop i := by
    rw [← Nat.add_sub_cancel' hi, ← List.drop_drop, h, List.drop_drop]
  rw [chars, chars, hd]

/-! ### The formats (R104, R105) -/

theorem decodeS_eq_some_iff {line : List Byte} {f : SFields} :
    decodeS line = some f ↔ 19 ≤ line.length ∧ shapeField line = f.sh ∧ decField (chars line 4 7) = some f.ns ∧
      decField (chars line 7 14) = some f.fq ∧ decField (chars line 14 18) = some f.ar ∧
      decField (line.drop 18) = some f.or := by
  unfold decodeS
  split
  · next hlen => exact iff_of_false nofun fun h => absurd h.1 (Nat.not_le_of_lt hlen)
  next hlen =>
  split
  · next hns hfq har hor =>
    rw [hns, hfq, har, hor]
    cases f
    simp [Nat.not_lt.mp hlen]
  · next hno =>
    refine iff_of_false nofun ?_
    rintro ⟨-, -, hns, hfq, har, hor⟩
    exact hno _ _ _ _ hns hfq har hor

theorem decodeM1_eq_some_iff {line : List Byte} {f : M1Fields} :
    decodeM1 line = some f ↔ 22 ≤ line.length ∧ decField (chars line 2 8) = some f.fq ∧
      decField (chars line 8 9) = some f.c1 ∧ decField (chars line 9 12) = some f.g1 ∧
      decField (chars line 12 15) = some f.o1 ∧ decField (chars line 15 16) = some f.c2 ∧
      decField (chars line 16 19) = some f.g2 ∧ decField (chars line 19 22) = some f.o2 := by
  unfold decodeM1
  split
  · next hlen => exact iff_of_false nofun fun h => absurd h.1 (Nat.not_le_of_lt hlen)
  next hlen =>
  split
  · next hfq hc1 hg1 ho1 hc2 hg2 ho2 =>
    rw [hfq, hc1, hg1, ho1, hc2, hg2, ho2]
    cases f
    simp [Nat.not_lt.mp hlen]
  · next hno =>
    refine iff_of_false nofun ?_
    rintro ⟨-, hfq, hc1, hg1, ho1, hc2, hg2, ho2⟩
    exact hno _ _ _ _ _ _ _ hfq hc1 hg1 ho1 hc2 hg2 ho2

theorem decodeDz_eq_some_iff {line : List Byte} {cv : Nat} :
    decodeDz line = some cv ↔ 6 ≤ line.length ∧ decField (chars line 2 6) = some cv := by
  unfold decodeDz
  split
  · next hlen => exact iff_of_false nofun fun h => absurd h.1 (Nat.not_le_of_lt hlen)
  · next hlen => exact (and_iff_right (Nat.not_lt.mp hlen)).symm

/-- The decimal fields of an S line are its characters from 4 on. -/
theorem decodeS_digits {line : List Byte} {f : SFields} (h : decodeS line = some f) :
    ∀ b ∈ line.drop 4, isDigit b = true := by
  obtain ⟨-, -, hns, hfq, har, hor⟩ := decodeS_eq_some_iff.mp h
  rw [← chars_append_drop line (show 4 ≤ 7 by decide), ← chars_append_drop line (show 7 ≤ 14 by decide),
    ← chars_append_drop line (show 14 ≤ 18 by decide)]
  simp only [List.forall_mem_append]
  exact ⟨digits_of_decField hns, digits_of_decField hfq, digits_of_decField har, digits_of_decField hor⟩

/-- The decimal fields of an M1 line are its characters 2 to 21. -/
theorem decodeM1_digits {line : List Byte} {f : M1Fields} (h : decodeM1 line = some f) :
    ∀ b ∈ chars line 2 22, isDigit b = true := by
  obtain ⟨-, hfq, hc1, hg1, ho1, hc2, hg2, ho2⟩ := decodeM1_eq_some_iff.mp h
  rw [← chars_append_chars line (show 2 ≤ 8 by decide) (show 8 ≤ 22 by decide),
    ← chars_append_chars line (show 8 ≤ 9 by decide) (show 9 ≤ 22 by decide),
    ← chars_append_chars line (show 9 ≤ 12 by decide) (show 12 ≤ 22 by decide),
    ← chars_append_chars line (show 12 ≤ 15 by decide) (show 15 ≤ 22 by decide),
    ← chars_append_chars line (show 15 ≤ 16 by decide) (show 16 ≤ 22 by decide),
    ← chars_append_chars line (show 16 ≤ 19 by decide) (show 19 ≤ 22 by decide)]
  simp only [List.forall_mem_append]
  exact ⟨digits_of_decField hfq, digits_of_decField hc1, digits_of_decField hg1, digits_of_decField ho1,
    digits_of_decField hc2, digits_of_decField hg2, digits_of_decField ho2⟩

theorem decodeDz_digits {line : List Byte} {cv : Nat} (h : decodeDz line = some cv) :
    ∀ b ∈ chars line 2 6, isDigit b = true :=
  digits_of_decField (decodeDz_eq_some_iff.mp h).2

/-- A format that would have to decode a character that is no digit decodes nothing. -/
theorem eq_none_of_not_digit {α : Type} {o : Option α} {cs : List Byte} {b : Byte}
    (ho : ∀ a, o = some a → ∀ d ∈ cs, isDigit d = true) (hb : b ∈ cs) (hd : isDigit b ≠ true) : o = none :=
  Option.eq_none_iff_forall_ne_some.mpr fun a ha => hd (ho a ha b hb)

theorem decodeM1_append {line : List Byte} (h : 22 ≤ line.length) (junk : List Byte) :
    decodeM1 (line ++ junk) = decodeM1 line := by
  have hlen : 22 ≤ (line ++ junk).length := by rw [List.length_append]; exact Nat.le_add_right_of_le h
  ext f
  simp only [decodeM1_eq_some_iff, h, hlen, true_and]
  rw [chars_append_of_le, chars_append_of_le, chars_append_of_le, chars_append_of_le, chars_append_of_le,
    chars_append_of_le, chars_append_of_le] <;> omega

theorem decodeDz_append {line : List Byte} (h : 6 ≤ line.length) (junk : List Byte) :
    decodeDz (line ++ junk) = decodeDz line := by
  have hlen : 6 ≤ (line ++ junk).length := by rw [List.length_append]; exact Nat.le_add_right_of_le h
  ext cv
  simp only [decodeDz_eq_some_iff, h, hlen, true_and, chars_append_of_le junk 2 h]

/-! ### Lines that break the line contract, and the tag (R101, R102) -/

theorem badLine_eq_false_iff {line : List Byte} : badLine line = false ↔ line ≠ [] ∧ ∀ b ∈ line, b.toNat < 0x80 := by
  simp [badLine]

theorem decodeLine_of_badLine {raw : List Byte} (h : badLine (stripCr raw) = true) : decodeLine raw = .error .parse :=
  if_pos h

theorem decodeLine_of_not_ascii {raw : List Byte} {b : Byte} (hb : b ∈ stripCr raw) (h : 0x80 ≤ b.toNat) :
    decodeLine raw = .error .parse := by
  refine decodeLine_of_badLine ?_
  rw [badLine, Bool.or_eq_true, List.any_eq_true]
  exact .inr ⟨b, hb, decide_eq_true h⟩

/-- One character is no tag (R141). -/
theorem decodeLine_of_single {raw : List Byte} {c : Byte} (hb : badLine (stripCr raw) = false)
    (h : stripCr raw = [c]) : decodeLine raw = .ok .unrecognized := by
  rw [h] at hb
  unfold decodeLine
  simp only [h, hb]
  rfl

theorem decodeLine_of_tag {raw : List Byte} {c0 c1 : Byte} (hb : badLine (stripCr raw) = false)
    (ht : (stripCr raw).take 2 = [c0, c1]) : decodeLine raw = decodeTag c0 c1 (stripCr raw) := by
  unfold decodeLine
  simp only [hb]
  cases hl : stripCr raw with
  | nil => rw [hl] at ht; cases ht
  | cons a line =>
    cases line with
    | nil => rw [hl] at ht; cases ht
    | cons a' line => rw [hl] at ht; cases ht; rfl

/-- A line that breaks the line contract is `E_PARSE` as well, so that a tag that answers it settles the line. -/
theorem decodeLine_eq_parse {raw : List Byte} {c0 c1 : Byte} (ht : (stripCr raw).take 2 = [c0, c1])
    (hp : decodeTag c0 c1 (stripCr raw) = .error .parse) : decodeLine raw = .error .parse := by
  cases hb : badLine (stripCr raw) with
  | true => exact decodeLine_of_badLine hb
  | false => rw [decodeLine_of_tag hb ht, hp]

theorem decodeTag_s1 (line : List Byte) : decodeTag 0x73 0x31 line = orParse ((decodeS line).map .s1) := rfl

theorem decodeTag_s2 (line : List Byte) : decodeTag 0x73 0x32 line = orParse ((decodeS line).map .s2) := rfl

theorem decodeTag_m1 (line : List Byte) : decodeTag 0x6D 0x31 line = orParse ((decodeM1 line).map .m1) := rfl

theorem decodeTag_m2 (line : List Byte) : decodeTag 0x6D 0x32 line = .ok .m2 := rfl

theorem decodeTag_dz (line : List Byte) : decodeTag 0x64 0x7A line = orParse ((decodeDz line).map .dz) := rfl

theorem decodeLine_s1_parse {raw : List Byte} (ht : (stripCr raw).take 2 = [0x73, 0x31])
    (h : decodeS (stripCr raw) = none) : decodeLine raw = .error .parse :=
  decodeLine_eq_parse ht (by rw [decodeTag_s1, h]; rfl)

theorem decodeLine_s2_parse {raw : List Byte} (ht : (stripCr raw).take 2 = [0x73, 0x32])
    (h : decodeS (stripCr raw) = none) : decodeLine raw = .error .parse :=
  decodeLine_eq_parse ht (by rw [decodeTag_s2, h]; rfl)

theorem decodeLine_m1_parse {raw : List Byte} (ht : (stripCr raw).take 2 = [0x6D, 0x31])
    (h : decodeM1 (stripCr raw) = none) : decodeLine raw = .error .parse :=
  decodeLine_eq_parse ht (by rw [decodeTag_m1, h]; rfl)

theorem decodeLine_dz_parse {raw : List Byte} (ht : (stripCr raw).take 2 = [0x64, 0x7A])
    (h : decodeDz (stripCr raw) = none) : decodeLine raw = .error .parse :=
  decodeLine_eq_parse ht (by rw [decodeTag_dz, h]; rfl)

end Sys2Proof
end

section
/-! SUPPORT. The encoder (R114): its digits, and each format decoded from its own encoding. -/

namespace Sys2Proof

/-! ### Digits -/

theorem digitChar_toNat {d : Nat} (h : d < 10) : (digitChar d).toNat = 0x30 + d := by
  rw [digitChar, BitVec.toNat_ofNat]
  omega

theorem isDigit_digitChar {d : Nat} (h : d < 10) : isDigit (digitChar d) = true := by
  rw [isDigit_iff, digitChar_toNat h]
  omega

@[simp] theorem pad_length (w v : Nat) : (pad w v).length = w := by
  induction w generalizing v with
  | zero => rfl
  | succ w ih => simp [pad, ih]

theorem isDigit_of_mem_pad {w v : Nat} {b : Byte} (h : b ∈ pad w v) : isDigit b = true := by
  induction w generalizing v with
  | zero => cases h
  | succ w ih =>
    rw [pad, List.mem_append, List.mem_singleton] at h
    rcases h with h | rfl
    · exact ih h
    · exact isDigit_digitChar (Nat.mod_lt _ (by decide))

/-- `pad w v` is the last `w` digits of `v`. -/
theorem dec_pad (w v : Nat) : dec (pad w v) = v % 10 ^ w := by
  induction w generalizing v with
  | zero => exact (Nat.mod_one v).symm
  | succ w ih =>
    rw [pad, dec_append_singleton, ih, digitChar_toNat (Nat.mod_lt _ (by decide)), Nat.add_sub_cancel_left,
      Nat.pow_succ', Nat.mod_mul, Nat.add_comm]

theorem decField_pad {w v : Nat} (hw : 0 < w) (hv : v < 10 ^ w) : decField (pad w v) = some v := by
  have hne : pad w v ≠ [] := List.ne_nil_of_length_pos (by rwa [pad_length])
  rw [decField_of_digits hne fun b => isDigit_of_mem_pad, dec_pad, Nat.mod_eq_of_lt hv]

theorem digitCountFrom_pos (fuel v : Nat) : 0 < digitCountFrom fuel v := by
  cases fuel with
  | zero => exact Nat.one_pos
  | succ fuel =>
    rw [digitCountFrom]
    split
    · exact Nat.one_pos
    · exact Nat.succ_pos _

theorem lt_pow_digitCountFrom {fuel v : Nat} (h : v ≤ fuel) : v < 10 ^ digitCountFrom fuel v := by
  induction fuel generalizing v with
  | zero => rw [Nat.le_zero.mp h]; decide
  | succ fuel ih =>
    rw [digitCountFrom]
    split
    · next hlt => exact hlt
    · have htenth := ih (v := v / 10) (by omega)
      rw [Nat.pow_succ]
      omega

/-- A number written out with no padding reads back, however long it is. -/
theorem decField_decStr (v : Nat) : decField (decStr v) = some v :=
  decField_pad (digitCountFrom_pos v v) (lt_pow_digitCountFrom le_rfl)

theorem decStr_length_pos (v : Nat) : 0 < (decStr v).length := by
  rw [decStr, pad_length]
  exact digitCountFrom_pos v v

/-! ### The formats (R104) -/

theorem drop_append_right {p : List Byte} {i : Nat} (h : p.length ≤ i) (q : List Byte) :
    (p ++ q).drop i = q.drop (i - p.length) := by
  rw [List.drop_append, List.drop_eq_nil_of_le h, List.nil_append]

/-- What stands before a field shifts it. -/
theorem chars_append_right {p : List Byte} {i : Nat} (h : p.length ≤ i) (q : List Byte) (j : Nat) :
    chars (p ++ q) i j = chars q (i - p.length) (j - p.length) := by
  have hj : j - i = j - p.length - (i - p.length) := by omega
  rw [chars, chars, drop_append_right h, hj]

theorem chars_append_left {p : List Byte} {j : Nat} (h : p.length = j) (q : List Byte) : chars (p ++ q) 0 j = p :=
  List.take_left' h

theorem chars_eq_self {p : List Byte} {j : Nat} (h : p.length = j) : chars p 0 j = p := List.take_of_length_le h.le

@[simp] theorem shapeChars_length (sh : Shape) : (shapeChars sh).length = 2 := by cases sh <;> rfl

theorem shapeField_shapeChars (c0 c1 : Byte) (sh : Shape) (rest : List Byte) :
    shapeField ([c0, c1] ++ (shapeChars sh ++ rest)) = sh := by
  cases sh <;> rfl

theorem decodeS_encodeS (c0 c1 : Byte) {f : SFields} (h : f.wf = true) : decodeS ([c0, c1] ++ encodeS f) = some f := by
  simp only [SFields.wf, Bool.and_eq_true, decide_eq_true_iff] at h
  obtain ⟨⟨hns, hfq⟩, har⟩ := h
  have hor := decStr_length_pos f.or
  rw [decodeS_eq_some_iff]
  refine ⟨by simp [encodeS]; omega, shapeField_shapeChars c0 c1 f.sh _, ?_⟩
  simp only [encodeS, chars_append_right, chars_append_left, drop_append_right, pad_length, shapeChars_length,
    List.length_cons, List.length_nil, Nat.reduceAdd, Nat.reduceLeDiff, Nat.reduceSub, List.drop_zero]
  exact ⟨decField_pad (by decide) (by omega), decField_pad (by decide) (by omega), decField_pad (by decide) (by omega),
    decField_decStr f.or⟩

theorem decodeM1_encodeM1 (c0 c1 : Byte) {f : M1Fields} (h : f.wf = true) :
    decodeM1 ([c0, c1] ++ encodeM1 f) = some f := by
  simp only [M1Fields.wf, Bool.and_eq_true, decide_eq_true_iff] at h
  obtain ⟨⟨⟨⟨⟨⟨hfq, hc1⟩, hg1⟩, ho1⟩, hc2⟩, hg2⟩, ho2⟩ := h
  rw [decodeM1_eq_some_iff]
  refine ⟨by simp [encodeM1], ?_⟩
  simp only [encodeM1, chars_append_right, chars_append_left, chars_eq_self, pad_length, List.length_cons,
    List.length_nil, Nat.reduceAdd, Nat.reduceLeDiff, Nat.reduceSub]
  refine ⟨?_, ?_, ?_, ?_, ?_, ?_, ?_⟩ <;> exact decField_pad (by decide) (by omega)

theorem decodeDz_encode (c0 c1 : Byte) {cv : Nat} (h : cv ≤ 9999) : decodeDz ([c0, c1] ++ pad 4 cv) = some cv := by
  rw [decodeDz_eq_some_iff]
  refine ⟨by simp, ?_⟩
  rw [chars_append_right (by simp)]
  exact (congrArg decField (chars_eq_self (pad_length 4 cv))).trans (decField_pad (by decide) (by omega))

/-! ### The canonical encoding -/

/-- Every character of an encoding is ASCII and above the carriage return. -/
def Plain (line : List Byte) : Prop := ∀ b ∈ line, 0x30 ≤ b.toNat ∧ b.toNat < 0x80

theorem plain_append {p q : List Byte} : Plain (p ++ q) ↔ Plain p ∧ Plain q := List.forall_mem_append

theorem plain_pad (w v : Nat) : Plain (pad w v) := fun _ hb =>
  ((isDigit_iff _).mp (isDigit_of_mem_pad hb)).imp_right fun h => Nat.lt_of_le_of_lt h (by decide)

theorem plain_shapeChars (sh : Shape) : Plain (shapeChars sh) := by cases sh <;> simp [Plain, shapeChars]

theorem plain_encodeS (f : SFields) : Plain (encodeS f) := by
  simp only [encodeS, decStr, plain_append, plain_pad, plain_shapeChars, and_self]

theorem plain_encodeM1 (f : M1Fields) : Plain (encodeM1 f) := by
  simp only [encodeM1, plain_append, plain_pad, and_self]

/-- A plain line has no carriage return to remove and is no bad line, so that its tag decides. -/
theorem decodeLine_of_plain {c0 c1 : Byte} {rest : List Byte} (htag : Plain [c0, c1]) (hrest : Plain rest) :
    decodeLine ([c0, c1] ++ rest) = decodeTag c0 c1 ([c0, c1] ++ rest) := by
  have hp : Plain ([c0, c1] ++ rest) := plain_append.mpr ⟨htag, hrest⟩
  have hstrip : stripCr ([c0, c1] ++ rest) = [c0, c1] ++ rest :=
    stripCr_eq_self fun hcr => absurd (hp cr (List.mem_of_getLast? hcr)).1 (by decide)
  have hb : badLine (stripCr ([c0, c1] ++ rest)) = false := by
    rw [hstrip, badLine_eq_false_iff]
    exact ⟨List.cons_ne_nil _ _, fun b h => (hp b h).2⟩
  rw [decodeLine_of_tag hb (by rw [hstrip]; rfl), hstrip]

theorem decodeLine_encode_s1 {f : SFields} (h : f.wf = true) :
    decodeLine ([0x73, 0x31] ++ encodeS f) = .ok (.s1 f) := by
  rw [decodeLine_of_plain (by simp [Plain]) (plain_encodeS f), decodeTag_s1, decodeS_encodeS _ _ h]
  rfl

theorem decodeLine_encode_s2 {f : SFields} (h : f.wf = true) :
    decodeLine ([0x73, 0x32] ++ encodeS f) = .ok (.s2 f) := by
  rw [decodeLine_of_plain (by simp [Plain]) (plain_encodeS f), decodeTag_s2, decodeS_encodeS _ _ h]
  rfl

theorem decodeLine_encode_m1 {f : M1Fields} (h : f.wf = true) :
    decodeLine ([0x6D, 0x31] ++ encodeM1 f) = .ok (.m1 f) := by
  rw [decodeLine_of_plain (by simp [Plain]) (plain_encodeM1 f), decodeTag_m1, decodeM1_encodeM1 _ _ h]
  rfl

theorem decodeLine_encode_dz {cv : Nat} (h : cv ≤ 9999) : decodeLine ([0x64, 0x7A] ++ pad 4 cv) = .ok (.dz cv) := by
  rw [decodeLine_of_plain (by simp [Plain]) (plain_pad 4 cv), decodeTag_dz, decodeDz_encode _ _ h]
  rfl

/-! ### The obligation -/

/-- Settles O1, instruction by instruction: a command by its format's fields, a synthesis by its selection. -/
theorem decodeEncodeRoundTrip : Obligations.DecodeEncodeRoundTrip := by
  intro i h
  cases i with
  | s1 f => exact decodeLine_encode_s1 h
  | s2 f => exact decodeLine_encode_s2 h
  | m1 f => exact decodeLine_encode_m1 h
  | dz cv => exact decodeLine_encode_dz (of_decide_eq_true h)
  | m2 | unrecognized => decide
  | synSine | synCosine | synTriangle | synSawtooth | synNone | synDc => rfl

end Sys2Proof
end

section
/-! SUPPORT. What a line decodes to: characters that are ignored, the exact tag, the shape field; the statements about
the decoder. -/

namespace Sys2Proof

/-! ### Formats that decode nothing (R105, R106) -/

theorem decodeS_eq_none_of_short {line : List Byte} (h : line.length < 19) : decodeS line = none := if_pos h

theorem decodeM1_eq_none_of_short {line : List Byte} (h : line.length < 22) : decodeM1 line = none := if_pos h

theorem decodeDz_eq_none_of_short {line : List Byte} (h : line.length < 6) : decodeDz line = none := if_pos h

theorem decodeS_eq_none_of_no_offset {line : List Byte} (h : line.drop 18 = []) : decodeS line = none :=
  decodeS_eq_none_of_short (Nat.lt_succ_of_le (List.drop_eq_nil_iff.mp h))

/-! ### Characters beyond the last field (R107) -/

theorem cr_mem_chars {p : List Byte} {i j : Nat} (hi : i ≤ p.length) (hj : p.length + 1 ≤ j) :
    cr ∈ chars (p ++ [cr]) i j := by
  rw [chars, List.drop_append_of_le_length hi, List.take_of_length_le]
  · exact List.mem_append_right _ (List.mem_singleton_self cr)
  · rw [List.length_append, List.length_drop, List.length_singleton]
    omega

/-- A format of `n` characters, the tag and decimal fields: M1 and DZ. -/
structure IsFixedFormat {α : Type} (decode : List Byte → Option α) (n : Nat) : Prop where
  tag : 2 < n
  short : ∀ {line}, line.length < n → decode line = none
  digits : ∀ {line a}, decode line = some a → ∀ b ∈ chars line 2 n, isDigit b = true
  append : ∀ {line}, n ≤ line.length → ∀ junk, decode (line ++ junk) = decode line

theorem isFixedFormat_m1 : IsFixedFormat decodeM1 22 :=
  ⟨by decide, decodeM1_eq_none_of_short, decodeM1_digits, decodeM1_append⟩

theorem isFixedFormat_dz : IsFixedFormat decodeDz 6 :=
  ⟨by decide, decodeDz_eq_none_of_short, decodeDz_digits, decodeDz_append⟩

section IsFixedFormat

variable {α : Type} {decode : List Byte → Option α} {n : Nat} (hf : IsFixedFormat decode n) {line : List Byte}
  (hlen : line.length = n)
include hf hlen

/-- A carriage return as the last character is no digit of the last field, and removed it leaves the line short. -/
theorem IsFixedFormat.decode_stripCr : decode (stripCr line) = decode line := by
  rcases eq_stripCr_or_append_cr line with he | he
  · rw [← he]
  · have htag := hf.tag
    have hcut := congrArg List.length he
    rw [hlen, List.length_append, List.length_singleton] at hcut
    have hcr : cr ∈ chars line 2 n := by
      rw [he]
      exact cr_mem_chars (by omega) hcut.ge
    have hshort : (stripCr line).length < n := by omega
    rw [hf.short hshort, eq_none_of_not_digit (fun _ => hf.digits) hcr (by decide)]

theorem IsFixedFormat.decode_stripCr_append (junk : List Byte) : decode (stripCr (line ++ junk)) = decode line := by
  cases junk with
  | nil => rw [List.append_nil, hf.decode_stripCr hlen]
  | cons b junk => rw [stripCr_append (List.cons_ne_nil b junk), hf.append hlen.ge]

end IsFixedFormat

theorem take_two_stripCr {raw : List Byte} {c0 c1 : Byte} (h : raw.take 2 = [c0, c1]) (hc : c1 ≠ cr) :
    (stripCr raw).take 2 = [c0, c1] := by
  rcases eq_stripCr_or_append_cr raw with he | he
  · rwa [← he]
  · rw [he] at h
    match stripCr raw, h with
    | [], h => cases h
    | [a], h => cases h; exact absurd rfl hc
    | a :: b :: line, h => exact h

/-- An ASCII line is decoded by its tag. -/
theorem decodeLine_of_ascii {raw : List Byte} {c0 c1 : Byte} (hraw : ∀ b ∈ raw, b.toNat < 0x80)
    (ht : raw.take 2 = [c0, c1]) (hc : c1 ≠ cr) : decodeLine raw = decodeTag c0 c1 (stripCr raw) := by
  have ht' := take_two_stripCr ht hc
  refine decodeLine_of_tag (badLine_eq_false_iff.mpr ⟨?_, fun b hb => hraw b (mem_of_mem_stripCr hb)⟩) ht'
  intro hnil
  rw [hnil] at ht'
  cases ht'

theorem decodeLine_append_junk {line junk : List Byte} {c0 c1 : Byte} (hascii : ∀ b ∈ line ++ junk, b.toNat < 0x80)
    (ht : line.take 2 = [c0, c1]) (hc : c1 ≠ cr)
    (h : decodeTag c0 c1 (stripCr (line ++ junk)) = decodeTag c0 c1 (stripCr line)) :
    decodeLine (line ++ junk) = decodeLine line := by
  have hlen : 2 ≤ line.length := by
    have htwo := congrArg List.length ht
    rw [List.length_take] at htwo
    exact min_eq_left_iff.mp htwo
  have ht' : (line ++ junk).take 2 = [c0, c1] := by rw [List.take_append_of_le_length hlen, ht]
  rw [decodeLine_of_ascii hascii ht' hc, decodeLine_of_ascii (List.forall_mem_append.mp hascii).1 ht hc, h]

/-! ### The tag (R102, R151) -/

theorem orParse_map_ne_unrecognized {α : Type} {c : α → Instr} (hc : ∀ a, c a ≠ .unrecognized) (o : Option α) :
    orParse (o.map c) ≠ .ok .unrecognized := fun h => by
  obtain ⟨a, -, ha⟩ := orParse_map_ok h
  exact hc a ha.symm

theorem decodeTag_eq_unrecognized_iff (c0 c1 : Byte) (line : List Byte) :
    decodeTag c0 c1 line = .ok .unrecognized ↔
      ¬([c0, c1] = [0x73, 0x31] ∨ [c0, c1] = [0x73, 0x32] ∨ [c0, c1] = [0x6D, 0x31] ∨ [c0, c1] = [0x6D, 0x32] ∨
        [c0, c1] = [0x64, 0x7A]) := by
  simp only [List.cons.injEq, and_true]
  unfold decodeTag
  split
  · next h => exact iff_of_false (orParse_map_ne_unrecognized nofun _) (by simp [h])
  split
  · next h => exact iff_of_false (orParse_map_ne_unrecognized nofun _) (by simp [h])
  split
  · next h => exact iff_of_false (orParse_map_ne_unrecognized nofun _) (by simp [h])
  split
  · next h => exact iff_of_false nofun (by simp [h])
  split
  · next h => exact iff_of_false (orParse_map_ne_unrecognized nofun _) (by simp [h])
  · next h1 h2 h3 h4 h5 => exact iff_of_true rfl (by simp only [h1, h2, h3, h4, h5, or_self, not_false_eq_true])

/-! ### The shape field (R110) -/

/-- The characters of a shape other than NONE are the encoder's, and no others. -/
theorem decodeShape_eq_iff {sh : Shape} (hsh : sh ≠ .none) (c2 c3 : Byte) :
    decodeShape c2 c3 = sh ↔ [c2, c3] = shapeChars sh := by
  constructor
  · intro h
    unfold decodeShape at h
    split at h
    · next hc => rw [← h, hc.1, hc.2]; rfl
    split at h
    · next hc => rw [← h, hc.1, hc.2]; rfl
    split at h
    · next hc => rw [← h, hc.1, hc.2]; rfl
    split at h
    · next hc => rw [← h, hc.1, hc.2]; rfl
    · exact absurd h.symm hsh
  · intro h
    cases sh with
    | none => exact absurd rfl hsh
    | _ => cases h; rfl

theorem shapeField_eq {line : List Byte} {c2 c3 : Byte} (h : (line.drop 2).take 2 = [c2, c3]) :
    shapeField line = decodeShape c2 c3 := by
  unfold shapeField
  match line.drop 2, h with
  | [], h => cases h
  | [a], h => cases h
  | a :: b :: rest, h => cases h; rfl

/-- Everything but the shape is read from character 4 on. -/
theorem decodeS_of_drop_eq {line line' : List Byte} {f : SFields} (hd : line'.drop 4 = line.drop 4)
    (h : decodeS line = some f) : decodeS line' = some { f with sh := shapeField line' } := by
  obtain ⟨hlen, -, hns, hfq, har, hor⟩ := decodeS_eq_some_iff.mp h
  have hlen' := congrArg List.length hd
  rw [List.length_drop, List.length_drop] at hlen'
  have hor' : line'.drop 18 = line.drop 18 := by
    rw [show (18 : Nat) = 4 + 14 from rfl, ← List.drop_drop, hd, List.drop_drop]
  refine decodeS_eq_some_iff.mpr ⟨by omega, rfl, ?_⟩
  rw [chars_congr_drop hd (by decide), chars_congr_drop hd (by decide), chars_congr_drop hd (by decide), hor']
  exact ⟨hns, hfq, har, hor⟩

theorem drop_replace_shape {line : List Byte} (h : 2 ≤ line.length) (d2 d3 : Byte) :
    (line.take 2 ++ [d2, d3] ++ line.drop 4).drop 4 = line.drop 4 :=
  List.drop_left' (by simp [h])

/-! ### The synthesis selection -/

theorem decodeSynth_wf (ch : Channel) (ampZero : Bool) (sh : Shape) : (decodeSynth ch ampZero sh).wf = true := by
  cases ampZero with
  | true => rfl
  | false => cases sh <;> rfl

/-! ### The obligations -/

/-- Settles O2: a line by its format, a selection by the synthesis it names. -/
theorem decodedOperandsFitTheirFields : Obligations.DecodedOperandsFitTheirFields := by
  intro w i h
  cases w with
  | line raw => exact decodeLine_wf h
  | shape ch ampZero sh =>
    cases h
    exact decodeSynth_wf ch ampZero sh

/-- Settles O3, line by line. -/
theorem specLinesDecode : Obligations.SpecLinesDecode :=
  ⟨by decide, by decide, by decide, by decide, by decide, by decide⟩

/-- Settles O4: the cut by induction on the bytes of the line, and the decoding through the stripped line. -/
theorem lineFeedEndsALine : Obligations.LineFeedEndsALine := by
  refine ⟨fun raw rest h => frameFrom_append_lf h [] rest, fun raw h => frameFrom_eq_nil h [], stripCr_append_cr,
    fun raw h => ?_⟩
  have hs := stripCr_eq_self h
  exact ⟨hs, decodeLine_congr (by rw [stripCr_append_cr, hs])⟩

/-- Settles O6: a format that decodes has digits alone in its decimal fields. -/
theorem decimalFieldsAreDigitsOnly : Obligations.DecimalFieldsAreDigitsOnly := by
  simp only [Obligations.DecimalFieldsAreDigitsOnly, ← isDigit_iff]
  refine ⟨decField_ne_none_iff, fun d h1 h2 => ?_, fun cs v d h h1 h2 => ?_, fun raw b hb h => ?_, fun raw ht h => ?_⟩
  · exact decField_singleton ((isDigit_iff d).mpr ⟨h1, h2⟩)
  · exact decField_append_digit h ((isDigit_iff d).mpr ⟨h1, h2⟩)
  · rcases h with ⟨ht, hm⟩ | ⟨ht, hm⟩ | ⟨ht, hm⟩ | ⟨ht, hm⟩
    · exact decodeLine_s1_parse ht (eq_none_of_not_digit (fun _ => decodeS_digits) hm hb)
    · exact decodeLine_s2_parse ht (eq_none_of_not_digit (fun _ => decodeS_digits) hm hb)
    · exact decodeLine_m1_parse ht (eq_none_of_not_digit (fun _ => decodeM1_digits) hm hb)
    · exact decodeLine_dz_parse ht (eq_none_of_not_digit (fun _ => decodeDz_digits) hm hb)
  · rcases ht with ht | ht
    · exact decodeLine_s1_parse ht (decodeS_eq_none_of_no_offset h)
    · exact decodeLine_s2_parse ht (decodeS_eq_none_of_no_offset h)

/-- Settles O7, format by format. -/
theorem trailingCharactersAreIgnored : Obligations.TrailingCharactersAreIgnored := by
  rintro line junk hascii (⟨ht, hlen⟩ | rfl | ⟨ht, hlen⟩)
  · refine decodeLine_append_junk hascii ht (by decide) ?_
    rw [decodeTag_m1, decodeTag_m1, isFixedFormat_m1.decode_stripCr_append hlen, isFixedFormat_m1.decode_stripCr hlen]
  · exact decodeLine_append_junk hascii rfl (by decide) (by rw [decodeTag_m2, decodeTag_m2])
  · refine decodeLine_append_junk hascii ht (by decide) ?_
    rw [decodeTag_dz, decodeTag_dz, isFixedFormat_dz.decode_stripCr_append hlen, isFixedFormat_dz.decode_stripCr hlen]

/-- Settles O8, by the number of characters: none, one, or a tag. -/
theorem tagIsExact : Obligations.TagIsExact := by
  intro raw hb
  match hl : stripCr raw with
  | [] => rw [hl] at hb; cases hb
  | [c] => exact iff_of_true (decodeLine_of_single hb hl) (.inl rfl)
  | c0 :: c1 :: line =>
    rw [decodeLine_of_tag hb (by rw [hl]; rfl), decodeTag_eq_unrecognized_iff]
    exact (or_iff_right (by simp)).symm

/-- Settles O9: the four pairs, and a replaced pair leaves the characters from 4 on. -/
theorem shapeFieldNeverFails : Obligations.ShapeFieldNeverFails := by
  refine ⟨rfl, fun line c2 c3 f hc h => ?_⟩
  obtain ⟨hlen, hsh, -⟩ := decodeS_eq_some_iff.mp h
  rw [← hsh, shapeField_eq hc]
  refine ⟨?_, ?_, ?_, ?_, fun d2 d3 =>
    ⟨_, decodeS_of_drop_eq (drop_replace_shape (le_trans (by decide) hlen) d2 d3) h, rfl, rfl, rfl, rfl⟩⟩
  · simpa [shapeChars] using decodeShape_eq_iff (sh := .sine) nofun c2 c3
  · simpa [shapeChars] using decodeShape_eq_iff (sh := .cosine) nofun c2 c3
  · simpa [shapeChars] using decodeShape_eq_iff (sh := .triangle) nofun c2 c3
  · simpa [shapeChars] using decodeShape_eq_iff (sh := .sawtooth) nofun c2 c3

end Sys2Proof
end

section
/-! SUPPORT. What the sequencer does with a malformed line, and the first steps of an `m1`. -/

namespace Sys2Proof.Machine

open Safety

/-- With no turn listed the sequencer takes the rule step it is at. -/
theorem step_busy_of_nil {s : State} {q : SeqStep} (ht : s.env.turns = []) (hs : s.seq = .busy q)
    (hq : (∀ raw, q ≠ .decode raw) ∧ ∀ ch, q ≠ .rearm ch) : step s = .next (busyStep Config.params q s) := by
  rw [step_busy (nextTurn_of_nil ht) hs hq, popTurn_of_nil ht]

/-- `s` with both front ends configured and logged, the capture about to start (R251, R252). -/
def frontEndsConfigured (f : M1Fields) (s : State) : State :=
  { s with
    afe := { one := afeCfgOf f .one, two := afeCfgOf f .two }
    afeLog := s.afeLog ++ [afeEventOf f .one, afeEventOf f .two]
    seq := .busy (.captureStart f.fq) }

/-- After the first step of an `m1` three more configure both front ends, with no other turn between (R251). -/
theorem runs_frontEndsConfigured (f : M1Fields) {s : State} (ht : s.env.turns = []) :
    Runs 3 (writeFrontEnd f .one s) (frontEndsConfigured f s) := by
  have hevent1 : step (writeFrontEnd f .one s) = .next (emitFrontEnd f .one (writeFrontEnd f .one s)) :=
    step_busy_of_nil (q := .afeEvent f .one) ht rfl ⟨nofun, nofun⟩
  have hsecond : step (emitFrontEnd f .one (writeFrontEnd f .one s)) =
      .next (writeFrontEnd f .two (emitFrontEnd f .one (writeFrontEnd f .one s))) :=
    step_busy_of_nil (q := .afeSecond f) ht rfl ⟨nofun, nofun⟩
  have hevent2 : step (writeFrontEnd f .two (emitFrontEnd f .one (writeFrontEnd f .one s))) =
      .next (emitFrontEnd f .two (writeFrontEnd f .two (emitFrontEnd f .one (writeFrontEnd f .one s)))) :=
    step_busy_of_nil (q := .afeEvent f .two) ht rfl ⟨nofun, nofun⟩
  rw [runs_succ hevent1, runs_succ hsecond, runs_one, hevent2]
  simp [emitFrontEnd, writeFrontEnd, frontEndsConfigured, goOn, State.setSeq, State.logAfe, State.setAfe, afterEvent,
    PerChannel.set]

/-- Then the capture start decides (R253). -/
theorem runs_captureStart (f : M1Fields) {s : State} (ht : s.env.turns = []) :
    Runs 4 (writeFrontEnd f .one s) (captureStart Config.params f.fq (frontEndsConfigured f s)) :=
  have hstart := step_busy_of_nil (s := frontEndsConfigured f s) (q := .captureStart f.fq) ht rfl ⟨nofun, nofun⟩
  runs_add (runs_frontEndsConfigured f ht) (runs_one.mpr hstart)

/-! ### The obligations -/

/-- Settles O5, form by form: each malformed line decodes to `E_PARSE`. -/
theorem malformedLineIsNoOp : Obligations.MalformedLineIsNoOp := by
  intro s raw hn hs h
  have hparse : decodeLine raw = .error .parse := by
    rcases h with hnil | ⟨b, hb, hhigh⟩ | ⟨ht, hlen⟩ | ⟨ht, hlen⟩ | ⟨ht, hlen⟩ | ⟨ht, hlen⟩
    · exact decodeLine_of_badLine (by rw [hnil]; rfl)
    · exact decodeLine_of_not_ascii hb hhigh
    · exact decodeLine_s1_parse ht (decodeS_eq_none_of_short hlen)
    · exact decodeLine_s2_parse ht (decodeS_eq_none_of_short hlen)
    · exact decodeLine_m1_parse ht (decodeM1_eq_none_of_short hlen)
    · exact decodeLine_dz_parse ht (decodeDz_eq_none_of_short hlen)
  rw [step_decode hn hs, runFetched, decode, hparse]
  rfl

/-- Settles O39: the first step, the front ends, the start of the capture. -/
theorem m1StartsTheCapture : Obligations.M1StartsTheCapture := by
  refine fun f s => ⟨writeFrontEnd f .one s, rfl, rfl, fun hmin hmax ht => ?_⟩
  rcases captureStart_cases Config.params f.fq (frontEndsConfigured f s) with ⟨-, he⟩ | ⟨hbad, -⟩
  · exact he ▸ runs_captureStart f ht
  · exact absurd ⟨hmin, hmax⟩ hbad

end Sys2Proof.Machine
end

section
/-! SUPPORT. The dispatch of a line, the outcomes that reach no operation of the block, what the engines do whatever `SEQ`
is, and the bytes that a step sends. -/

namespace Sys2Proof.Machine

open Safety

/-! ### The dispatch of a line (R140, R141) -/

theorem runFetched_ok {w : Fetched} {i : Instr} (h : decode w = .ok i) (s : State) : runFetched w s = exec i s := by
  rw [runFetched, h]

theorem exec_unrecognized (s : State) : exec .unrecognized s = .next (raiseNoOp .tag s) := rfl

/-- Both kinds of no-op line end in `raise NoOp` (R101, R151). -/
theorem runFetched_noOp {w : Fetched} {code : NoOpCode}
    (h : decode w = .error code ∨ (decode w = .ok .unrecognized ∧ code = .tag)) (s : State) :
    runFetched w s = .next (raiseNoOp code s) := by
  rcases h with herr | ⟨hok, rfl⟩
  · rw [runFetched, herr]
  · rw [runFetched_ok hok, exec_unrecognized]

theorem step_noOp {s : State} {raw : List Byte} {code : NoOpCode} (hn : nextTurn s = .sequencer)
    (hs : s.seq = .busy (.decode raw))
    (h : decode (.line raw) = .error code ∨ (decode (.line raw) = .ok .unrecognized ∧ code = .tag)) :
    step s = .next (raiseNoOp code (popTurn s)) := by
  rw [step_decode hn hs, runFetched_noOp h]

/-! ### The supply (R150) -/

theorem forwardSupply_zero (s : State) : forwardSupply 0 s = faulted s .supplyZero none none := rfl

theorem forwardSupply_pos {cv : Nat} (h : cv ≠ 0) (s : State) :
    forwardSupply cv s = { s with supplyLog := s.supplyLog ++ [cv], seq := .busy .complete } := by
  rw [forwardSupply, if_neg h]
  rfl

/-! ### The faulted block (R145) -/

theorem step_faulted_holds {s : State} (hn : nextTurn s = .sequencer) (hs : s.seq = .faulted) :
    step s = .next (popTurn s) := by
  have hseq : (popTurn s).seq = .faulted := hs
  simp only [step_sequencer hn, seqStep, fetch, seqInternal, hseq]

theorem step_tickDac_timed {s : State} {ch : Channel} {buf : List Code} {rate idx : Nat} {c : Code}
    (hn : nextTurn s = .tickDac ch) (hp : s.pb.get ch = .timed buf rate idx) (hc : buf[idx]? = some c) :
    step s = .next { popTurn s with
      dac := s.dac.set ch (some c), pb := s.pb.set ch (.timed buf rate ((idx + 1) % buf.length)) } := by
  obtain ⟨hi, rfl⟩ := List.getElem?_eq_some_iff.mp hc
  rw [step, hn]
  exact tickDac_timed (s := popTurn s) hp hi

theorem step_tickCap_running {s : State} {k rate : Nat} (hn : nextTurn s = .tickCap) (hc : s.cap = .running k rate)
    (hk : k < Config.bufSize) :
    step s = .next { popTurn s with
      capA := s.capA.set k (s.env.adcValue 0)
      capB := s.capB.set k (s.env.adcValue 1)
      cap := if k + 1 = Config.bufSize then .off else .running (k + 1) rate
      env := (popTurn s).env.useAdc 2 } := by
  rw [step, hn]
  exact congrArg Host.Outcome.next (tickCap_running (s := popTurn s) hc hk)

/-! ### The bytes sent (R257, R311) -/

/-- The sequencer sends a byte of the stream at its place, or the next byte of an average response, and no other. -/
theorem SeqMove.tx_cases {s t : State} (h : SeqMove s t) :
    t.tx = s.tx ∨ ∃ b, t.tx = s.tx ++ [b] ∧
      ((∃ k, AtByte s k ∧ (streamBytes s)[k]? = some b) ∨ ∃ rest, s.seq = .busy (.respond (b :: rest))) := by
  cases h with
  | stream k hs b hb => exact .inr ⟨b, rfl, .inl ⟨k, hs, hb⟩⟩
  | respond b rest hs => exact .inr ⟨b, rfl, .inr ⟨rest, hs⟩⟩
  | _ => exact .inl rfl

/-! ### The obligations -/

/-- Settles O15: the sequencer's turn passes, and the engines' ticks do not look at `SEQ`. -/
theorem faultedSequencerStops : Obligations.FaultedSequencerStops := fun _ hs =>
  ⟨fun hn => step_faulted_holds hn hs, fun _ _ _ _ _ => step_tickDac_timed,
    fun _ _ hk hn hc => step_tickCap_running hn hc hk⟩

/-- Settles O48: no agent but the sequencer sends, and its move sends at a named place. -/
theorem onlyResponsesAreSent : Obligations.OnlyResponsesAreSent := by
  intro s t h hp
  rcases (step_move h).sequencer_or_keeps hp with ⟨hn, hm⟩ | hk
  · refine hm.tx_cases.imp_right fun ⟨b, htx, hplace⟩ => ⟨b, hn, htx, ?_⟩
    rcases hplace with ⟨k, ⟨rfl, hs, hc⟩ | hs, hb⟩ | ⟨rest, hs⟩
    · exact .inl ⟨hs, hc, hb⟩
    · exact .inr (.inl ⟨k, hs, hb⟩)
    · exact .inr (.inr ⟨rest, hs⟩)
  · exact .inl hk.tx

/-- Settles O10. -/
theorem stepRunsDecodedLine : Obligations.StepRunsDecodedLine := by
  intro s raw i hn hs hd
  rw [step_decode hn hs, runFetched_ok hd]

/-- Settles O12: the step that takes the line, and the step that decodes it and raises the no-op. -/
theorem noOpLineChangesNothingElse : Obligations.NoOpLineChangesNothingElse := by
  intro s raw rest code hn hn' hs hq hd
  obtain ⟨-, htakes, -, -⟩ := sequencerTakesALine
  have htake : step s = .next (takeLine raw rest (popTurn s)) := htakes s raw rest hn hs hq
  have hraise : step (takeLine raw rest (popTurn s)) = .next (raiseNoOp code (popTurn (takeLine raw rest (popTurn s)))) :=
    step_noOp hn' rfl hd
  rw [runs_succ htake, runs_one, hraise, raiseNoOp_eq, ← hs]
  rfl

/-- Settles O50: the two branches of the forwarding, and the step that ends the command. -/
theorem dzForwardsOrFaults : Obligations.DzForwardsOrFaults := by
  refine fun s => ⟨fun cv hcv => ⟨congrArg Host.Outcome.next (forwardSupply_pos hcv s), fun ht => runs_one.mpr ?_⟩,
    congrArg Host.Outcome.next (forwardSupply_zero s)⟩
  exact step_busy_of_nil (q := .complete) ht rfl ⟨nofun, nofun⟩

/-- Settles O51: the line is the no-op `E_TAG`. -/
theorem unrecognizedRecordsTheTag : Obligations.UnrecognizedRecordsTheTag := fun s => by
  rw [exec_unrecognized, raiseNoOp_eq]

end Sys2Proof.Machine
end

section
/-! SUPPORT. Levels and codes over the reals: the code in and out of the band, where it is one the DAC takes, and the laws of
the shapes. -/

namespace Sys2Proof.Machine

open Safety

/-! ### The code band (R172) -/

theorem eps_pos : 0 < eps := by norm_num [eps]

theorem eps_lt_half : eps < 1 / 2 := by norm_num [eps]

/-- Outside the band the code is the truncation, whatever the draw. -/
theorem realCode_of_outside {v : ℝ} (h : eps ≤ |scaled v - round (scaled v)|) (up : Bool) :
    realCode up v = realTrunc (scaled v) := if_pos h

/-- In the band of an integer the draw chooses one of the two truncations. -/
theorem realCode_of_band {v : ℝ} {k : ℤ} (h : |scaled v - k| < eps) (up : Bool) :
    realCode up v = if up then realTrunc (scaled v + eps) else realTrunc (scaled v - eps) :=
  if_neg (not_le.mpr ((round_le (scaled v) k).trans_lt h))

/-- The first choice that the environment has lined up is the draw of an offset (log 6). -/
theorem drawnOffset_cons (s : State) (ch : Channel) (up : Bool) (rest : List Bool) :
    drawnOffset { s with env := { s.env with band := up :: rest } } ch = realCode up (offOf s ch) := rfl

/-! ### Codes the DAC takes (R173) -/

/-- A truncation is a code the DAC takes exactly strictly between -1 and 4096. -/
theorem inRange_realTrunc_iff (x : ℝ) : InRange (realTrunc x) ↔ -1 < x ∧ x < 4096 := by
  unfold realTrunc
  split
  · next h =>
    have hlow : 0 ≤ ⌊x⌋ := Int.floor_nonneg.mpr h
    have hhigh : ⌊x⌋ ≤ 4095 ↔ x < 4096 := by
      rw [← Int.lt_add_one_iff, Int.floor_lt]
      norm_num
    exact ⟨fun hr => ⟨by linarith, hhigh.mp hr.2⟩, fun hr => ⟨hlow, hhigh.mpr hr.2⟩⟩
  · next h =>
    have hlow : 0 ≤ ⌈x⌉ ↔ -1 < x := by
      rw [← Int.sub_one_lt_iff, Int.lt_ceil]
      norm_num
    have hhigh : ⌈x⌉ ≤ 0 := Int.ceil_le.mpr (by rw [Int.cast_zero]; linarith)
    exact ⟨fun hr => ⟨hlow.mp hr.1, by linarith⟩, fun hr => ⟨hlow.mpr hr.1, by omega⟩⟩

/-- In the band of an integer other than -1 and 4096, the draw does not decide whether the DAC takes the code. -/
theorem inRange_realCode_of_band {v : ℝ} {k : ℤ} (h : |scaled v - k| < eps) (hlow : k ≠ -1) (hhigh : k ≠ 4096)
    (up : Bool) : InRange (realCode up v) ↔ 0 ≤ k ∧ k ≤ 4095 := by
  obtain ⟨h1, h2⟩ := abs_lt.mp h
  have he := eps_pos
  have he' := eps_lt_half
  have hnear : ∀ d, |d| ≤ eps → (InRange (realTrunc (scaled v + d)) ↔ 0 ≤ k ∧ k ≤ 4095) := by
    intro d hd
    obtain ⟨hd1, hd2⟩ := abs_le.mp hd
    rw [inRange_realTrunc_iff]
    constructor
    · rintro ⟨hx0, hx1⟩
      have hk0 : (-2 : ℝ) < k := by linarith
      have hk1 : (k : ℝ) < 4097 := by linarith
      norm_cast at hk0 hk1
      omega
    · rintro ⟨hk0, hk1⟩
      have hk0 : (0 : ℝ) ≤ k := by exact_mod_cast hk0
      have hk1 : (k : ℝ) ≤ 4095 := by exact_mod_cast hk1
      exact ⟨by linarith, by linarith⟩
  rw [realCode_of_band h]
  cases up
  · exact hnear (-eps) (by rw [abs_neg, abs_of_pos he])
  · exact hnear eps (abs_of_pos he).le

/-- In the band of -1 only the upper draw gives a code the DAC takes. -/
theorem inRange_realCode_low_iff {v : ℝ} (h : |scaled v - (-1 : ℤ)| < eps) (up : Bool) :
    InRange (realCode up v) ↔ up = true := by
  obtain ⟨h1, h2⟩ := abs_lt.mp h
  push_cast at h1 h2
  have he := eps_lt_half
  rw [realCode_of_band h]
  cases up
  · exact iff_of_false (fun hr => by linarith [((inRange_realTrunc_iff _).mp hr).1]) nofun
  · exact iff_of_true ((inRange_realTrunc_iff _).mpr ⟨by linarith, by linarith⟩) rfl

/-- In the band of 4096 only the lower draw does. -/
theorem inRange_realCode_high_iff {v : ℝ} (h : |scaled v - (4096 : ℤ)| < eps) (up : Bool) :
    InRange (realCode up v) ↔ up = false := by
  obtain ⟨h1, h2⟩ := abs_lt.mp h
  push_cast at h1 h2
  have he := eps_lt_half
  rw [realCode_of_band h]
  cases up
  · exact iff_of_true ((inRange_realTrunc_iff _).mpr ⟨by linarith, by linarith⟩) rfl
  · exact iff_of_false (fun hr => by linarith [((inRange_realTrunc_iff _).mp hr).2]) nofun

theorem inRange_realCode {v : ℝ} (h : SureInRange v) (up : Bool) : InRange (realCode up v) := by
  obtain ⟨hlow, hhigh⟩ := h
  have he := eps_pos
  by_cases hb : eps ≤ |scaled v - round (scaled v)|
  · rw [realCode_of_outside hb, inRange_realTrunc_iff]
    exact ⟨by linarith, by linarith⟩
  · have hband := not_le.mp hb
    obtain ⟨h1, h2⟩ := abs_lt.mp hband
    have hk0 : (-1 : ℝ) < round (scaled v) := by linarith
    have hk1 : (round (scaled v) : ℝ) < 4096 := by linarith
    norm_cast at hk0 hk1
    exact (inRange_realCode_of_band hband (by omega) (by omega) up).mpr (by omega)

theorem not_inRange_realCode {v : ℝ} (h : SureOutOfRange v) (up : Bool) : ¬InRange (realCode up v) := by
  have he := eps_pos
  by_cases hb : eps ≤ |scaled v - round (scaled v)|
  · rw [realCode_of_outside hb, inRange_realTrunc_iff]
    rintro ⟨h0, h1⟩
    rcases h with h | h <;> linarith
  · have hband := not_le.mp hb
    obtain ⟨h1, h2⟩ := abs_lt.mp hband
    have hk : round (scaled v) < -1 ∨ 4096 < round (scaled v) := by
      refine h.imp (fun h => ?_) fun h => ?_
      · exact_mod_cast show (round (scaled v) : ℝ) < -1 by linarith
      · exact_mod_cast show (4096 : ℝ) < round (scaled v) by linarith
    rw [inRange_realCode_of_band hband (by omega) (by omega)]
    omega

/-- Between the two zones the scaled level is in the band of -1 or of 4096. -/
theorem edge_cases {v : ℝ} (hin : ¬SureInRange v) (hout : ¬SureOutOfRange v) :
    |scaled v - (-1 : ℤ)| < eps ∨ |scaled v - (4096 : ℤ)| < eps := by
  rw [SureOutOfRange, not_or, not_le, not_le] at hout
  obtain ⟨hlow, hhigh⟩ := hout
  rw [SureInRange, not_and_or, not_le, not_le] at hin
  refine hin.imp (fun h => abs_lt.mpr ⟨?_, ?_⟩) fun h => abs_lt.mpr ⟨?_, ?_⟩ <;> push_cast <;> linarith

theorem draw_decides {v : ℝ} (hin : ¬SureInRange v) (hout : ¬SureOutOfRange v) :
    ∃ up, InRange (realCode up v) ∧ ¬InRange (realCode (!up) v) := by
  rcases edge_cases hin hout with h | h
  · exact ⟨true, (inRange_realCode_low_iff h true).mpr rfl, fun hr => nomatch (inRange_realCode_low_iff h false).mp hr⟩
  · exact ⟨false, (inRange_realCode_high_iff h false).mpr rfl, fun hr => nomatch (inRange_realCode_high_iff h true).mp hr⟩

/-! ### The shapes (R177 to R180, R182) -/

/-- The rising half of a triangle, its middle included. -/
theorem triangle_rising (A O : ℝ) {n i : ℕ} (hn : 0 < n) (h : 2 * i ≤ n) :
    shapeLevel .triangle A O n i = O - A + 4 * A / n * i := by
  have hn' : (n : ℝ) ≠ 0 := by positivity
  rw [shapeLevel]
  split
  · ring
  · next hi =>
    have hmid : (n : ℝ) = 2 * i := le_antisymm (by linarith) (by exact_mod_cast h)
    field_simp
    rw [hmid]
    ring

/-- The falling half, its middle included. -/
theorem triangle_falling (A O : ℝ) {n i : ℕ} (h : n ≤ 2 * i) :
    shapeLevel .triangle A O n i = O + 3 * A - 4 * A / n * i := by
  have h' : (n : ℝ) ≤ 2 * i := by exact_mod_cast h
  rw [shapeLevel, if_neg (by linarith)]
  ring

theorem triangle_step (A O : ℝ) {n i : ℕ} (heven : n % 2 = 0) (hi : i + 1 < n) :
    shapeLevel .triangle A O n (i + 1) - shapeLevel .triangle A O n i =
      if i + 1 ≤ n / 2 then 4 * A / n else -(4 * A / n) := by
  split
  · next h =>
    rw [triangle_rising A O (by omega) (by omega), triangle_rising A O (by omega) (by omega)]
    push_cast
    ring
  · next h =>
    rw [triangle_falling A O (by omega), triangle_falling A O (by omega)]
    push_cast
    ring

theorem triangle_wrap (A O : ℝ) {n : ℕ} (hn : 2 ≤ n) :
    shapeLevel .triangle A O n 0 - shapeLevel .triangle A O n (n - 1) = -(4 * A / n) := by
  have hn' : (n : ℝ) ≠ 0 := by positivity
  rw [triangle_rising A O (by omega) (by omega), triangle_falling A O (by omega)]
  push_cast [show 1 ≤ n by omega]
  field_simp
  ring

/-- Whole periods taken off the index change the angle by whole turns. -/
theorem angle_mod_add_turns {n : ℕ} (hn : 1 ≤ n) (i : ℕ) :
    2 * Real.pi * i / n = 2 * Real.pi * (i % n : ℕ) / n + (i / n : ℕ) * (2 * Real.pi) := by
  have hn' : (n : ℝ) ≠ 0 := by positivity
  have hi : (i : ℝ) = (i % n : ℕ) + n * (i / n : ℕ) := by exact_mod_cast (Nat.mod_add_div i n).symm
  field_simp
  exact hi

theorem sine_periodic (A O : ℝ) {n : ℕ} (hn : 1 ≤ n) (i : ℕ) :
    shapeLevel .sine A O n (i % n) = shapeLevel .sine A O n i := by
  rw [shapeLevel, shapeLevel, angle_mod_add_turns hn i, Real.sin_add_nat_mul_two_pi]

theorem cosine_periodic (A O : ℝ) {n : ℕ} (hn : 1 ≤ n) (i : ℕ) :
    shapeLevel .cosine A O n (i % n) = shapeLevel .cosine A O n i := by
  rw [shapeLevel, shapeLevel, angle_mod_add_turns hn i, Real.cos_add_nat_mul_two_pi]

theorem shapeLevel_affine {sh : Shape} (hsh : sh ≠ .none) (A O : ℝ) (n i : ℕ) :
    shapeLevel sh A O n i = O + A * shapeLevel sh 1 0 n i := by
  cases sh with
  | sine => simp only [shapeLevel]; ring
  | cosine => simp only [shapeLevel]; ring
  | triangle => simp only [shapeLevel]; split <;> ring
  | sawtooth => simp only [shapeLevel]; ring
  | none => exact absurd rfl hsh

/-! ### The obligations -/

/-- Settles O31. -/
theorem dacCodeIsTheExactCode : Obligations.DacCodeIsTheExactCode :=
  ⟨fun up _ hw => dacCode_eq Config.params up hw, realCode_isCode,
    fun _ _ h => ⟨realCode_of_band h false, realCode_of_band h true⟩,
    fun e choices i h => by simp [Env.bandChoice, h]⟩

/-- Settles O33, law by law; equal levels outside the band have one truncation. -/
theorem shapeLawsHold : Obligations.ShapeLawsHold := by
  refine ⟨fun A O n i => triangle_step A O, fun A O n _ => triangle_wrap A O,
    fun A O n i hn => ⟨sine_periodic A O hn i, cosine_periodic A O hn i⟩,
    fun sh A O n i hsh => shapeLevel_affine hsh A O n i, fun w w' up up' hw hw' heq hout => ?_⟩
  rw [dacCode_eq _ _ hw, dacCode_eq _ _ hw', ← heq, realCode_of_outside (hout _), realCode_of_outside (hout _)]

end Sys2Proof.Machine
end

section
/-! SUPPORT. The synthesis operations: what each answers, and the step that installs it. -/

namespace Sys2Proof.Machine

open Safety

/-! ### What a synthesis operation answers -/

theorem synthesized_ok (ch : Channel) (r : SynResult) (s : State) :
    synthesized ch (.ok r) s = { s with seq := .busy (.install ch r) } := rfl

theorem synthesized_error (ch : Channel) (f : SynFault) (s : State) :
    synthesized ch (.error f) s = faulted s f.code (some ch) f.idx := rfl

section Timed

variable {i : Instr} {sh : Shape} {ch : Channel} (h : IsTimedSyn i sh ch) {s : State}
include h

theorem exec_timed_ok {r : SynResult}
    (hr : synthTimed Config.params sh (s.wave.get ch).n (drawnCode s ch sh) = .ok r) :
    exec i s = .next { s with seq := .busy (.install ch r), env := s.env.useBand (s.wave.get ch).n } := by
  rw [exec_timed h, runTimed_eq, hr, synthesized_ok]

theorem exec_timed_fault {f : SynFault}
    (hf : synthTimed Config.params sh (s.wave.get ch).n (drawnCode s ch sh) = .error f) :
    exec i s = .next { faulted s f.code (some ch) f.idx with env := s.env.useBand (s.wave.get ch).n } := by
  rw [exec_timed h, runTimed_eq, hf, synthesized_error]
  rfl

theorem exec_timed_synCount (hn : ¬(2 ≤ (s.wave.get ch).n ∧ (s.wave.get ch).n ≤ Config.params.synNMax)) :
    exec i s = .next { faulted s .synCount (some ch) none with env := s.env.useBand (s.wave.get ch).n } :=
  exec_timed_fault h (synthTimed_count hn)

end Timed

theorem exec_synNone (ch : Channel) (s : State) : exec (.synNone ch) s = .next { s with seq := .busy (.install ch .hold) } :=
  rfl

theorem exec_synDc (ch : Channel) (s : State) :
    exec (.synDc ch) s = .next (synthesized ch (synthDc (drawnOffset s ch)) { s with env := s.env.useBand 1 }) :=
  congrArg Host.Outcome.next (runDc_eq ch s)

theorem exec_synDc_ok {ch : Channel} {s : State} (h : InRange (drawnOffset s ch)) :
    ∃ c : Code, ((c.toNat : ℕ) : ℤ) = drawnOffset s ch ∧
      exec (.synDc ch) s = .next { s with seq := .busy (.install ch (.dc c)), env := s.env.useBand 1 } := by
  obtain ⟨c, hc, hv⟩ := synthDc_ok h
  exact ⟨c, hv, by rw [exec_synDc, hc, synthesized_ok]⟩

theorem exec_synDc_fault {ch : Channel} {s : State} (h : ¬InRange (drawnOffset s ch)) :
    exec (.synDc ch) s = .next { faulted s .dacRange (some ch) (some 0) with env := s.env.useBand 1 } := by
  rw [exec_synDc, synthDc_fault h, synthesized_error]
  rfl

/-! ### The step of the re-arm that runs it, and the step that installs its result (R217) -/

theorem step_selected {s : State} {ch : Channel} (hn : nextTurn s = .sequencer) (hs : s.seq = .busy (.rearm ch)) :
    step s = exec (selected s ch) (popTurn s) := by
  rw [step_rearm hn hs, runFetched_ok (decode_synthSelection s ch)]

theorem step_install {s : State} {ch : Channel} {r : SynResult} (hn : nextTurn s = .sequencer)
    (hs : s.seq = .busy (.install ch r)) (hr : RateOk s ch r) :
    step s = .next (installed (popTurn s) ch r (afterInstall ch)) := by
  rw [step_busy hn hs ⟨nofun, nofun⟩]
  exact congrArg Host.Outcome.next (install_ok (s := popTurn s) hr)

theorem runs_install {s : State} {ch : Channel} {r : SynResult} (ht : s.env.turns = []) (hr : RateOk s ch r) :
    Runs 1 { s with seq := .busy (.install ch r) } (installed s ch r (afterInstall ch)) := by
  have hstep := step_install (s := { s with seq := .busy (.install ch r) }) (nextTurn_of_nil ht) rfl hr
  rw [popTurn_of_nil (s := { s with seq := .busy (.install ch r) }) ht] at hstep
  exact runs_one.mpr hstep

/-- A channel that stops keeps its DAC code (R213). -/
theorem installed_hold (s : State) (ch : Channel) (q : SeqStep) :
    installed s ch .hold q = { s with pb := s.pb.set ch .stopped, seq := .busy q } := by
  rw [installed, installedDac, PerChannel.set_get]
  rfl

/-- So does a channel that begins to play a buffer, until the first tick (R210). -/
theorem installed_timed (s : State) (ch : Channel) (buf : List Code) (q : SeqStep) :
    installed s ch (.timed buf) q =
      { s with pb := s.pb.set ch (.timed buf ((s.wave.get ch).freq * buf.length) 0), seq := .busy q } := by
  rw [installed, installedDac, PerChannel.set_get]
  rfl

/-! ### DC mode (R171, R176) -/

theorem decode_shape_eq_synDc_iff (ch : Channel) (z : Bool) (sh : Shape) :
    decode (.shape ch z sh) = .ok (.synDc ch) ↔ z = true := by
  cases z with
  | true => exact iff_of_true rfl rfl
  | false => cases sh <;> exact iff_of_false nofun nofun

theorem fetch_rearm {s : State} {ch : Channel} (hs : s.seq = .busy (.rearm ch)) :
    fetch s = some (.shape ch (Config.params.isZero (s.wave.get ch).amp) (s.wave.get ch).shape) := by
  rw [fetch, hs]
  rfl

/-- The register enters DC mode by the real offset alone (R171). -/
theorem drawnOffset_set_wave {s : State} {ch : Channel} {w : GenReg} (h : Config.params.toReal w.off = offOf s ch) :
    drawnOffset { s with wave := s.wave.set ch w } ch = drawnOffset s ch := by
  rw [drawnOffset, offOf, PerChannel.get_set_self, h]
  rfl

theorem synthesized_set_wave (ch : Channel) (r : Except SynFault SynResult) (s : State) (w : PerChannel GenReg) :
    synthesized ch r { s with wave := w } = { synthesized ch r s with wave := w } := by
  cases r with
  | ok r => rfl
  | error f => rfl

/-! ### The obligations -/

/-- Settles O22: the count check comes first. -/
theorem illegalCountFaults : Obligations.IllegalCountFaults := fun _ _ _ _ h hn =>
  exec_timed_synCount h (by omega)

/-- Settles O23: the count check, then the parity check. -/
theorem oddTriangleFaults : Obligations.OddTriangleFaults := by
  intro ch s hodd
  have h : IsTimedSyn (.synTriangle ch) .triangle ch := .inr (.inr (.inl ⟨rfl, rfl⟩))
  split
  · next hn => exact exec_timed_fault h (synthTimed_parity hn fun heven => by rw [heven rfl] at hodd; cases hodd)
  · next hn => exact exec_timed_synCount h hn

/-- Settles O24: the count and the parity are legal, so the samples decide. -/
theorem firstSampleOutOfRangeFaults : Obligations.FirstSampleOutOfRangeFaults := by
  rintro i sh ch s k h ⟨hmin, hmax, heven⟩ hk hlow hout
  exact exec_timed_fault h (synthTimed_range ⟨hmin, hmax⟩ heven hk hlow hout)

/-- Settles O21: the buffer that the synthesis returns, and its install. -/
theorem timedSynthesisArmsTheBuffer : Obligations.TimedSynthesisArmsTheBuffer := by
  rintro i sh ch s h ⟨hmin, hmax, heven⟩ hall
  obtain ⟨buf, hbuf, hlen, hval⟩ := synthTimed_buffer ⟨hmin, hmax⟩ heven hall
  refine ⟨buf, _, ⟨hlen, hval⟩, exec_timed_ok h hbuf, rfl, fun hrate ht => ?_⟩
  rw [← hlen] at hrate ⊢
  rw [← installed_timed { s with env := s.env.useBand buf.length }]
  exact runs_install (s := { s with env := s.env.useBand buf.length }) (r := .timed buf) ht hrate

/-- Settles O26: the synthesis is the hold, and its install raises no fault. -/
theorem synNoneHoldsTheChannel : Obligations.SynNoneHoldsTheChannel := fun ch s =>
  ⟨exec_synNone ch s, fun ht => installed_hold s ch _ ▸ runs_install (r := .hold) ht trivial⟩

/-- Settles O27: the code of the offset, and its install. -/
theorem synDcDrivesTheOffset : Obligations.SynDcDrivesTheOffset := by
  intro ch s h
  obtain ⟨c, hc, he⟩ := exec_synDc_ok h
  exact ⟨c, _, hc, he, rfl, fun ht => runs_install (s := { s with env := s.env.useBand 1 }) (r := .dc c) ht trivial⟩

/-- Settles O28. -/
theorem synDcOutOfRangeFaults : Obligations.SynDcOutOfRangeFaults := fun _ _ => exec_synDc_fault

/-- Settles O11: the selection decodes to the operation that the register selects. -/
theorem stepRunsSelectedSynthesis : Obligations.StepRunsSelectedSynthesis := fun _ _ => step_selected

/-- Settles O30: the selection, its decision of R171, and the offset as the one thing that SYN.DC reads. -/
theorem dcModeReadsOnlyTheOffset : Obligations.DcModeReadsOnlyTheOffset := by
  refine ⟨decode_shape_eq_synDc_iff, fun s ch hs => ?_, fun s ch w hoff => ⟨_, exec_synDc ch s, ?_⟩⟩
  · rw [fetch_rearm hs, ampOf, ← isZero_iff]
    simp
  · rw [exec_synDc, drawnOffset_set_wave hoff]
    exact congrArg Host.Outcome.next (synthesized_set_wave ch _ { s with env := s.env.useBand 1 } _)

/-- Settles O32: the three zones, and the edges again with the offset as the level and the draw as SYN.DC's. -/
theorem theDrawDecidesOnlyAtTheEdges : Obligations.TheDrawDecidesOnlyAtTheEdges := by
  refine ⟨fun _ => inRange_realCode, fun _ => not_inRange_realCode, fun _ => draw_decides, fun ch s hin hout => ?_⟩
  obtain ⟨up, htakes, hfaults⟩ := draw_decides hin hout
  rw [← drawnOffset_cons s ch _ []] at htakes hfaults
  obtain ⟨c, -, he⟩ := exec_synDc_ok htakes
  exact ⟨up, ⟨c, _, he⟩, _, exec_synDc_fault hfaults⟩

end Sys2Proof.Machine
end

section
/-! SUPPORT. The causes of a fault, and the startup. -/

namespace Sys2Proof.Machine

open Safety

/-! ### The causes of a fault (R293, R294) -/

/-- The fault that the selected synthesis of a channel raises has its cause. -/
theorem Synthesis.faultCause {s : State} {ch : Channel} {f : SynFault} (h : Synthesis s ch (.error f))
    (hs : s.seq = .busy (.rearm ch)) : FaultCause s { code := f.code, ch := some ch, idx := f.idx } := by
  generalize hr : Except.error f = r at h
  cases h with
  | dc ha =>
    by_cases hrange : InRange (drawnOffset s ch)
    · obtain ⟨c, hc, -⟩ := synthDc_ok hrange
      cases hr.trans hc
    · cases hr.trans (synthDc_fault hrange)
      exact .dcRange ch hs ha hrange
  | hold => cases hr
  | timed ha hsh =>
    have hspec := synthTimed_spec Config.params (s.wave.get ch).shape (s.wave.get ch).n
      (drawnCode s ch (s.wave.get ch).shape)
    rw [← hr] at hspec
    cases hspec with
    | count hn => exact .synCount ch hs ha hsh (by omega)
    | parity hn hp =>
      obtain ⟨htri, hodd⟩ := Classical.not_imp.mp hp
      exact .synTriOdd ch hs ha htri hn (Nat.mod_two_ne_zero.mp hodd)
    | range hn hp k hk hlow hout => exact .dacRange ch k hs ha hsh ⟨hn.1, hn.2, hp⟩ hk hlow hout

/-- The sequencer's move sets `FAULT` with a cause alone. -/
theorem SeqMove.faultCause {s t : State} {r : FaultRecord} (h : SeqMove s t) (hr : t.fault = some r)
    (hne : t.fault ≠ s.fault) : FaultCause s r := by
  cases h with
  | dzZero raw hs hd => cases hr; exact .supplyZero raw hs hd
  | synthFault ch f k hs hf => cases hr; exact hf.faultCause hs
  | installFault ch buf hs hrate =>
    cases hr
    rw [RateOk, LegalRate] at hrate
    exact .playRate ch buf hs (by omega)
  | captureFault rate hs hrate => cases hr; exact .capRate rate hs (by omega)
  | _ => exact absurd rfl hne

/-- A cause does not look at the list of turns. -/
theorem faultCause_of_popTurn {s : State} {r : FaultRecord} (h : FaultCause (popTurn s) r) : FaultCause s r := by
  cases h with
  | synCount ch hs ha hsh hn => exact .synCount ch hs ha hsh hn
  | synTriOdd ch hs ha hsh hn hodd => exact .synTriOdd ch hs ha hsh hn hodd
  | dacRange ch i hs ha hsh hn hi hlow hout => exact .dacRange ch i hs ha hsh hn hi hlow hout
  | dcRange ch hs ha hout => exact .dcRange ch hs ha hout
  | playRate ch buf hs hr => exact .playRate ch buf hs hr
  | capRate rate hs hr => exact .capRate rate hs hr
  | supplyZero raw hs hd => exact .supplyZero raw hs hd

/-! ### A channel in DC mode, inside a re-arm (R171, R217) -/

theorem selected_of_amp_zero {s : State} {ch : Channel} (h : ampOf s ch = 0) : selected s ch = .synDc ch := if_pos h

/-- `s` with `ch` driven to `c`, the re-arm past the channel. -/
def driven (ch : Channel) (c : Code) (s : State) : State :=
  installed { s with env := s.env.useBand 1 } ch (.dc c) (afterInstall ch)

section DcMode

variable {s : State} {ch : Channel} (ht : s.env.turns = []) (hs : s.seq = .busy (.rearm ch)) (ha : ampOf s ch = 0)
include ht hs ha

theorem step_dcMode : step s = exec (.synDc ch) s := by
  rw [step_selected (nextTurn_of_nil ht) hs, selected_of_amp_zero ha, popTurn_of_nil ht]

theorem runs_driven (h : InRange (drawnOffset s ch)) :
    ∃ c : Code, ((c.toNat : ℕ) : ℤ) = drawnOffset s ch ∧ Runs 2 s (driven ch c s) := by
  obtain ⟨c, hc, he⟩ := exec_synDc_ok h
  exact ⟨c, hc, (runs_succ ((step_dcMode ht hs ha).trans he)).mpr
    (runs_install (s := { s with env := s.env.useBand 1 }) (r := .dc c) ht trivial)⟩

theorem runs_dcFault (h : ¬InRange (drawnOffset s ch)) :
    Runs 1 s { faulted s .dacRange (some ch) (some 0) with env := s.env.useBand 1 } :=
  runs_one.mpr ((step_dcMode ht hs ha).trans (exec_synDc_fault h))

end DcMode

/-! ### The startup (R333) -/

/-- `s` once the startup has set the supply and opened the re-arm's window. -/
def windowOpened (s : State) : State :=
  { s with rearm := true, seq := .busy (.rearm .one), supplyLog := s.supplyLog ++ [550] }

theorem runs_windowOpened {s : State} (hs : s.seq = .busy .startup) (ht : s.env.turns = []) :
    Runs 2 s (windowOpened s) := by
  have hsupply : step s = .next (startup s) := step_busy_of_nil ht hs ⟨nofun, nofun⟩
  have hopen : step (startup s) = .next (beginRearm (startup s)) :=
    step_busy_of_nil (q := .rearmBegin) ht rfl ⟨nofun, nofun⟩
  rw [runs_succ hsupply, runs_one, hopen]
  rfl

/-- The window closes and the command is complete (R217, R334). -/
theorem runs_rearmEnd {s : State} (hs : s.seq = .busy .rearmEnd) (ht : s.env.turns = []) :
    Runs 2 s { s with rearm := false, seq := .ready } := by
  have hclose : step s = .next (endRearm s) := step_busy_of_nil ht hs ⟨nofun, nofun⟩
  have hready : step (endRearm s) = .next ((endRearm s).setSeq .ready) :=
    step_busy_of_nil (q := .complete) ht rfl ⟨nofun, nofun⟩
  rw [runs_succ hclose, runs_one, hready]
  rfl

/-- Once channel 1 is driven, channel 2's offset takes the next choice of the environment (log 6). -/
theorem drawnOffset_driven (s : State) (c : Code) :
    drawnOffset (driven .one c (windowOpened s)) .two = realCode (s.env.bandChoice 1) (offOf s .two) :=
  congrArg (realCode · _) (Env.bandChoice_useBand s.env 1 0)

theorem Env.useBand_useBand (e : Env) (j k : Nat) : (e.useBand j).useBand k = e.useBand (j + k) := by
  simp [Env.useBand, Nat.add_assoc]

/-! ### The obligations -/

/-- Settles O18: no agent but the sequencer sets `FAULT`, and a reset clears it. -/
theorem onlyListedCausesFault : Obligations.OnlyListedCausesFault := by
  intro s t r h hnone hsome
  have hne : t.fault ≠ s.fault := by rw [hnone, hsome]; nofun
  have hp : nextTurn s ≠ .powerOn := by
    intro hn
    rw [step, hn, takeTurn] at h
    cases h
    cases hsome
  rcases (step_move h).sequencer_or_keeps hp with ⟨hn, hm⟩ | hk
  · refine ⟨hn, ?_, faultCause_of_popTurn (hm.faultCause hsome hne)⟩
    rcases hm.fault_cases with ⟨he, -⟩ | ⟨hseq, -⟩
    · exact absurd he hne
    · exact hseq
  · exact absurd hk.fault hne

/-- Settles O55: the window opens, each channel is driven, the window closes. -/
theorem startupDrivesBothChannels : Obligations.StartupDrivesBothChannels := by
  intro s hs ht ha h1 h2
  obtain ⟨c1, hc1, hone⟩ := runs_driven (s := windowOpened s) (ch := .one) ht rfl (ha .one) h1
  rw [← drawnOffset_driven s c1] at h2
  obtain ⟨c2, hc2, htwo⟩ := runs_driven (s := driven .one c1 (windowOpened s)) (ch := .two) ht rfl (ha .two) h2
  have hend := runs_rearmEnd (s := driven .two c2 (driven .one c1 (windowOpened s))) rfl ht
  refine ⟨c1, c2, hc1, hc2.trans (drawnOffset_driven s c1), ?_⟩
  have hrun := runs_add (runs_add (runs_add (runs_windowOpened hs ht) hone) htwo) hend
  rw [← Env.useBand_useBand s.env 1 1]
  exact hrun

/-- Settles O56: the window opens, and channel 1 faults; or channel 1 is driven, and channel 2 faults. -/
theorem startupWithBadBiasFaults : Obligations.StartupWithBadBiasFaults := by
  intro s hs ht ha
  have hopen := runs_windowOpened hs ht
  refine ⟨fun h1 => ?_, fun h1 h2 => ?_⟩
  · exact runs_add hopen (runs_dcFault (s := windowOpened s) (ch := .one) ht rfl (ha .one) h1)
  · obtain ⟨c1, hc1, hone⟩ := runs_driven (s := windowOpened s) (ch := .one) ht rfl (ha .one) h1
    rw [← drawnOffset_driven s c1] at h2
    have htwo := runs_dcFault (s := driven .one c1 (windowOpened s)) (ch := .two) ht rfl (ha .two) h2
    refine ⟨c1, hc1, ?_⟩
    rw [← Env.useBand_useBand s.env 1 1]
    exact runs_add (runs_add hopen hone) htwo

end Sys2Proof.Machine
end

section
/-! SUPPORT. The generator's turns: the install and its fault, the paired re-arm, and a playback followed tick by tick. -/

namespace Sys2Proof.Machine

open Safety

/-! ### The install (R210 to R213) -/

theorem installed_dc (s : State) (ch : Channel) (c : Code) (q : SeqStep) :
    installed s ch (.dc c) q =
      { s with pb := s.pb.set ch .stopped, dac := s.dac.set ch (some c), seq := .busy q } := rfl

/-- A buffer whose rate the timer does not take (R212). -/
theorem step_installFault {s : State} {ch : Channel} {buf : List Code} (hn : nextTurn s = .sequencer)
    (hs : s.seq = .busy (.install ch (.timed buf))) (hr : ¬LegalRate ((s.wave.get ch).freq * buf.length)) :
    step s = .next (faulted (popTurn s) .playRate (some ch) none) := by
  obtain ⟨-, he⟩ := install_fault (s := popTurn s) (r := .timed buf) hr
  rw [step_busy hn hs ⟨nofun, nofun⟩, busyStep, he]

theorem runs_installFault {s : State} {ch : Channel} {buf : List Code}
    (hs : s.seq = .busy (.install ch (.timed buf))) (ht : s.env.turns = [])
    (hr : ¬LegalRate ((s.wave.get ch).freq * buf.length)) : Runs 1 s (faulted s .playRate (some ch) none) := by
  rw [runs_one, step_installFault (nextTurn_of_nil ht) hs hr, popTurn_of_nil ht]

theorem not_legalRate_iff (rate : ℕ) : ¬LegalRate rate ↔ rate = 0 ∨ Config.params.dacTmrMax < rate := by
  rw [LegalRate]
  omega

/-! ### The paired re-arm (R217, R218) -/

/-- With no other turn listed, the selected synthesis of `ch` and the install of its result are two steps. -/
theorem runs_synthesizedAndInstalled {s : State} {ch : Channel} {r : SynResult} {e : Env}
    (hx : exec (selected s ch) s = .next { s with seq := .busy (.install ch r), env := e })
    (hs : s.seq = .busy (.rearm ch)) (ht : s.env.turns = []) (hr : RateOk s ch r) :
    e.turns = [] ∧ Runs 2 s (installed { s with env := e } ch r (afterInstall ch)) := by
  have hstep : step s = .next { s with seq := .busy (.install ch r), env := e } := by
    rw [step_selected (nextTurn_of_nil ht) hs, popTurn_of_nil ht, hx]
  have he : e.turns = [] := (step_turns hstep).trans (by rw [ht, List.tail_nil])
  exact ⟨he, (runs_succ hstep).mpr (runs_install (s := { s with env := e }) he hr)⟩

theorem runs_rearmBegin {s : State} (hs : s.seq = .busy .rearmBegin) (ht : s.env.turns = []) :
    Runs 1 s { s with rearm := true, seq := .busy (.rearm .one) } :=
  runs_one.mpr (step_busy_of_nil ht hs ⟨nofun, nofun⟩)

/-- The faults of a re-arm are those of its syntheses and of its installs; each is raised with nothing rolled back (R292). -/
theorem SeqMove.rearm_fault {s t : State} (h : SeqMove s t) (hs : InRearm s.seq) (hf : t.seq = .faulted) :
    t = { s with fault := t.fault, seq := .faulted, env := t.env } := by
  cases h with
  | synthFault | installFault => rfl
  | idle => rw [hf] at hs; exact hs.elim
  | dzZero raw h => rw [h] at hs; exact hs.elim
  | captureFault rate h => rw [h] at hs; exact hs.elim
  | _ => cases hf

/-! ### A playback, tick by tick (R216, R220, R221) -/

theorem step_tickDac_stopped {s : State} {ch : Channel} (hn : nextTurn s = .tickDac ch) (hp : s.pb.get ch = .stopped) :
    step s = .next (popTurn s) := by
  rw [step, hn]
  exact tickDac_stopped (s := popTurn s) hp

/-- The first turn of a run, and the turns after it, counted; with no turn listed the sequencer moves (log 3). -/
theorem count_take_succ (s : State) (ch : Channel) (k : Nat) :
    (s.env.turns.take (k + 1)).count (.tickDac ch) =
      (if nextTurn s = .tickDac ch then 1 else 0) + (s.env.turns.tail.take k).count (.tickDac ch) := by
  rw [nextTurn]
  cases s.env.turns with
  | nil => simp
  | cons turn rest => simp [List.count_cons, Nat.add_comm]

/-- The turn of `s` is none of those that end the playback of `ch` or touch its DAC behind it. -/
def LeavesPlayback (ch : Channel) (s : State) : Prop :=
  nextTurn s ≠ .powerOn ∧ (∀ r, ¬(nextTurn s = .sequencer ∧ s.seq = .busy (.install ch r))) ∧
    ∀ v, ¬(nextTurn s = .glitch ch v ∧ s.rearm = true)

/-- `ch` has had `n` ticks since it began to play `buf`, with `old` on its DAC then. -/
structure Played (ch : Channel) (buf : List Code) (rate : Nat) (old : Option Code) (n : Nat) (s : State) : Prop where
  nonempty : 0 < buf.length
  pb : s.pb.get ch = .timed buf rate (n % buf.length)
  unticked : n = 0 → s.dac.get ch = old
  ticked : 0 < n → s.dac.get ch = some (buf[(n - 1) % buf.length]'(Nat.mod_lt _ nonempty))

section Played

variable {ch : Channel} {buf : List Code} {rate n : Nat} {old : Option Code} {s t : State}
  (h : Played ch buf rate old n s)
include h

theorem Played.tick (hn : nextTurn s = .tickDac ch) (hs : step s = .next t) : Played ch buf rate old (n + 1) t := by
  have hidx := Nat.mod_lt n h.nonempty
  rw [step_tickDac_timed hn h.pb (List.getElem?_eq_getElem hidx)] at hs
  cases hs
  refine ⟨h.nonempty, ?_, nofun, fun _ => PerChannel.get_set_self _ _ _⟩
  rw [PerChannel.get_set_self, Nat.mod_add_mod]

theorem Played.other (hn : nextTurn s ≠ .tickDac ch) (hl : LeavesPlayback ch s) (hs : step s = .next t) :
    Played ch buf rate old n t := by
  obtain ⟨hpow, hinst, hglitch⟩ := hl
  obtain ⟨hpb, hdac⟩ := onlyTickOrRearmChangesAGenerator s t ch hs hn hpow hinst
  have hclosed : (∀ v, nextTurn s ≠ .glitch ch v) ∨ s.rearm = false := by
    cases hr : s.rearm with
    | false => exact .inr rfl
    | true => exact .inl fun v hv => hglitch v ⟨hv, hr⟩
  have hdac := hdac hclosed
  exact ⟨h.nonempty, hpb.trans h.pb, fun h0 => hdac.trans (h.unticked h0), fun h0 => hdac.trans (h.ticked h0)⟩

theorem Played.step (hl : LeavesPlayback ch s) (hs : step s = .next t) :
    Played ch buf rate old (n + if nextTurn s = .tickDac ch then 1 else 0) t := by
  split
  · next hn => exact h.tick hn hs
  · next hn => exact h.other hn hl hs

end Played

/-- Along a run the channel's own ticks are counted, whatever the other turns are. -/
theorem Played.run {ch : Channel} {buf : List Code} {rate n k : Nat} {old : Option Code} {s t : State}
    (h : Played ch buf rate old n s) (hr : Runs k s t) (hl : ∀ j < k, ∀ u, Runs j s u → LeavesPlayback ch u) :
    Played ch buf rate old (n + (s.env.turns.take k).count (.tickDac ch)) t := by
  induction k generalizing s n with
  | zero =>
    cases hr
    exact h
  | succ k ih =>
    obtain ⟨u, hu, hr⟩ := runs_succ_iff.mp hr
    have hnext := h.step (hl 0 (Nat.succ_pos k) s (runs_zero s)) hu
    have hend := ih hnext hr fun j hj v hv => hl (j + 1) (Nat.succ_lt_succ hj) v ((runs_succ hu).mpr hv)
    rwa [step_turns hu, Nat.add_assoc, ← count_take_succ] at hend

/-! ### The obligations -/

/-- Settles O20: the window opens, each channel is synthesized and installed, the window closes; and the two faults. -/
theorem pairedRearmInstallsBothChannels : Obligations.PairedRearmInstallsBothChannels := by
  constructor
  · rintro s s0 s1 r1 r2 e1 e2 hs ht rfl hx1 hr1 rfl hx2 hr2
    have hopen := runs_rearmBegin hs ht
    obtain ⟨ht1, hone⟩ := runs_synthesizedAndInstalled hx1 rfl ht hr1
    obtain ⟨ht2, htwo⟩ := runs_synthesizedAndInstalled hx2 rfl ht1 hr2
    exact ⟨hopen, runs_add hopen hone, runs_add (runs_add (runs_add hopen hone) htwo) (runs_rearmEnd rfl ht2)⟩
  · intro s t hn hs h hf
    have hm := step_move h
    rw [hn] at hm
    cases hm with
    | sequencer _ hm => exact hm.rearm_fault hs hf

/-- Settles O29: the install of each result, and the fault of an illegal rate. -/
theorem installPutsTheResultOnTheChannel : Obligations.InstallPutsTheResultOnTheChannel := by
  refine fun s ch hn => ⟨fun buf hs hr => ?_, fun buf => step_installFault hn, fun c hs => ?_, fun hs => ?_⟩
  · rw [step_install hn hs hr, installed_timed]
    rfl
  · rw [step_install hn hs trivial, installed_dc]
    rfl
  · rw [step_install hn hs trivial, installed_hold]
    rfl

/-- Settles O25: the buffer that the synthesis returns, and the fault of its install. -/
theorem illegalPlayRateFaults : Obligations.IllegalPlayRateFaults := by
  rintro i sh ch s h ⟨hmin, hmax, heven⟩ hall hrate ht
  obtain ⟨buf, hbuf, hlen, -⟩ := synthTimed_buffer ⟨hmin, hmax⟩ heven hall
  rw [← not_legalRate_iff, ← hlen] at hrate
  exact ⟨_, exec_timed_ok h hbuf, runs_installFault rfl ht hrate⟩

/-- Settles O34. -/
theorem playbackTickAdvances : Obligations.PlaybackTickAdvances := fun _ _ hn =>
  ⟨fun _ _ _ _ => step_tickDac_timed hn, step_tickDac_stopped hn⟩

/-- Settles O35: at index 0 no tick has been counted, and the run counts the channel's own. -/
theorem playbackFollowsTheBuffer : Obligations.PlaybackFollowsTheBuffer := by
  intro s t ch buf rate k h hp hr hl
  have hstart : Played ch buf rate (s.dac.get ch) 0 s := ⟨h, by rwa [Nat.zero_mod], fun _ => rfl, nofun⟩
  have hend := hstart.run hr hl
  rw [Nat.zero_add] at hend
  exact ⟨hend.pb, hend.unticked, hend.ticked⟩

/-- Settles O36: the two values of `REARM`. -/
theorem glitchOnlyInTheRearmWindow : Obligations.GlitchOnlyInTheRearmWindow := by
  intro s ch v hn
  rw [step, hn, takeTurn]
  rcases glitch_cases ch v (popTurn s) with ⟨hr, he⟩ | ⟨hr, he⟩ <;> rw [he]
  · exact ⟨fun hopen => absurd (hopen.symm.trans hr) nofun, fun _ => rfl⟩
  · exact ⟨fun _ => rfl, fun hclosed => absurd (hclosed.symm.trans hr) nofun⟩

end Sys2Proof.Machine
end

section
/-! SUPPORT. The capture: a tick, the hold while it runs, the fault at its start, and a whole capture followed tick by
tick. -/

namespace Sys2Proof.Machine

open Safety

/-! ### The capture tick, and the hold (R254, R256) -/

theorem step_tickCap_off {s : State} (hn : nextTurn s = .tickCap) (hc : s.cap = .off) : step s = .next (popTurn s) := by
  rw [step, hn]
  exact congrArg Host.Outcome.next (tickCap_off (s := popTurn s) hc)

/-- Only the tick of the last pair stops the capture (R254). -/
theorem tickCap_stops {s : State} (hc : s.cap ≠ .off) (h : (tickCap s).cap = .off) :
    ∃ rate, s.cap = .running (Config.bufSize - 1) rate := by
  rcases tickCap_cases s with he | ⟨k, rate, hk, hrun, he⟩ <;> rw [he] at h
  · exact absurd h hc
  · by_cases hlast : k + 1 = Config.bufSize
    · obtain rfl : k = Config.bufSize - 1 := Nat.eq_sub_of_add_eq hlast
      exact ⟨rate, hrun⟩
    · rw [if_neg hlast] at h
      cases h

/-- The sequencer and a reset apart, no agent takes a line off `RXQ` (R140), and only a capture tick writes `CAP`, the
timeout being disabled (R254, R256). -/
theorem TurnMove.rxq_grows_cap_cases {s t : State} {turn : Turn} (h : TurnMove s turn t) (hq : turn ≠ .sequencer)
    (hp : turn ≠ .powerOn) : (∃ new, t.rxq = s.rxq ++ new) ∧ (t.cap = s.cap ∨ turn = .tickCap) := by
  have hsame : ∃ new, s.rxq = s.rxq ++ new := ⟨[], (List.append_nil _).symm⟩
  cases h with
  | sequencer => exact absurd rfl hq
  | line raw =>
    rcases lineArrives_cases raw s with he | ⟨-, he⟩ <;> rw [he]
    · exact ⟨hsame, .inl rfl⟩
    · exact ⟨⟨[raw], rfl⟩, .inl rfl⟩
  | tickDac ch _ ht =>
    rcases tickDac_cases ht with ⟨-, rfl⟩ | ⟨buf, rate, idx, hi, -, rfl⟩ <;> exact ⟨hsame, .inl rfl⟩
  | tickCap => rcases tickCap_cases s with he | ⟨k, rate, hk, -, he⟩ <;> rw [he] <;> exact ⟨hsame, .inr rfl⟩
  | glitch ch v => rcases glitch_cases ch v s with ⟨-, he⟩ | ⟨-, he⟩ <;> rw [he] <;> exact ⟨hsame, .inl rfl⟩
  | capTimeout => exact ⟨hsame, .inl rfl⟩
  | powerOn => exact absurd rfl hp

/-! ### A whole capture, tick by tick (R254) -/

/-- `t` is `s` after the first `n` ticks of a capture at `rate`, with only the rest of its ticks to come: the first `n`
pairs drawn stand in the buffers, and nothing but the capture has moved. -/
structure Captured (s : State) (rate n : Nat) (t : State) : Prop where
  frame : t = { s with capA := t.capA, capB := t.capB, cap := t.cap, env := t.env }
  cap : t.cap = if n = Config.bufSize then .off else .running n rate
  turns : t.env.turns = List.replicate (Config.bufSize - n) .tickCap
  draws : ∀ j, t.env.adcValue j = s.env.adcValue (2 * n + j)
  entries : ∀ k (h : k < Config.bufSize), k < n →
    t.capA[k] = s.env.adcValue (2 * k) ∧ t.capB[k] = s.env.adcValue (2 * k + 1)

theorem captured_zero {s : State} {rate : Nat} (hc : s.cap = .running 0 rate)
    (ht : s.env.turns = List.replicate Config.bufSize .tickCap) : Captured s rate 0 s :=
  ⟨rfl, hc, ht, fun j => by rw [Nat.mul_zero, Nat.zero_add], fun _ _ hk => absurd hk (Nat.not_lt_zero _)⟩

/-- One tick more fills the next entry of both buffers. -/
theorem Captured.tick {s t : State} {rate n : Nat} (h : Captured s rate n t) (hn : n < Config.bufSize) :
    ∃ u, step t = .next u ∧ Captured s rate (n + 1) u := by
  have hleft : Config.bufSize - n = Config.bufSize - (n + 1) + 1 := by omega
  have hturns : t.env.turns = .tickCap :: List.replicate (Config.bufSize - (n + 1)) .tickCap := by
    rw [h.turns, hleft, List.replicate_succ]
  have hnext : nextTurn t = .tickCap := by rw [nextTurn, hturns, List.headD_cons]
  have hcap : t.cap = .running n rate := by rw [h.cap, if_neg (Nat.ne_of_lt hn)]
  refine ⟨_, step_tickCap_running hnext hcap hn, ?_, rfl, ?_, fun j => ?_, fun k hk hlt => ?_⟩
  · rw [h.frame]
    rfl
  · exact (congrArg List.tail hturns).trans List.tail_cons
  · calc ((popTurn t).env.useAdc 2).adcValue j
      _ = t.env.adcValue (2 + j) := Env.adcValue_useAdc _ _ _
      _ = s.env.adcValue (2 * (n + 1) + j) := by rw [h.draws, Nat.mul_succ, Nat.add_assoc]
  · rcases Nat.lt_succ_iff_lt_or_eq.mp hlt with hlt | rfl
    · rw [Vector.getElem_set_ne _ _ hlt.ne', Vector.getElem_set_ne _ _ hlt.ne']
      exact h.entries k hk hlt
    · rw [Vector.getElem_set_self, Vector.getElem_set_self]
      exact ⟨h.draws 0, h.draws 1⟩

theorem runs_captured {s : State} {rate n : Nat} (hc : s.cap = .running 0 rate)
    (ht : s.env.turns = List.replicate Config.bufSize .tickCap) (hn : n ≤ Config.bufSize) :
    ∃ t, Runs n s t ∧ Captured s rate n t := by
  induction n with
  | zero => exact ⟨s, runs_zero s, captured_zero hc ht⟩
  | succ n ih =>
    obtain ⟨t, hrun, ht⟩ := ih (Nat.le_of_succ_le hn)
    obtain ⟨u, hstep, hu⟩ := ht.tick hn
    exact ⟨u, runs_add hrun (runs_one.mpr hstep), hu⟩

/-! ### The obligations -/

/-- Settles O41: the tick of a running capture, and that of none. -/
theorem captureTickWritesAPair : Obligations.CaptureTickWritesAPair := fun _ hn =>
  ⟨fun _ _ hk hc => step_tickCap_running hn hc hk, step_tickCap_off hn⟩

/-- Settles O40: the front ends, then the start of the capture, which faults. -/
theorem illegalCaptureRateFaults : Obligations.IllegalCaptureRateFaults := by
  refine fun f s hrate ht => ⟨writeFrontEnd f .one s, rfl, ?_⟩
  rcases captureStart_cases Config.params f.fq (frontEndsConfigured f s) with ⟨hlegal, -⟩ | ⟨-, he⟩
  · omega
  · have hrun := runs_captureStart f ht
    rw [he] at hrun
    exact hrun

/-- Settles O17: the sequencer holds; of the other agents, only the capture tick writes `CAP`. -/
theorem captureBlocksTheSequencer : Obligations.CaptureBlocksTheSequencer := by
  refine fun s hs hc => ⟨fun hn => step_capture_holds hn hs hc, fun t hp h => ?_⟩
  by_cases hn : nextTurn s = .sequencer
  · rw [step_capture_holds hn hs hc] at h
    cases h
    exact ⟨hs, rfl, ⟨[], (List.append_nil _).symm⟩, fun hoff => absurd hoff hc⟩
  · have hm := step_move h
    have hk : KeepsSequencerElements (popTurn s) t := (hm.sequencer_or_keeps hp).resolve_left fun ⟨hseq, _⟩ => hn hseq
    obtain ⟨hrxq, hcap⟩ := hm.rxq_grows_cap_cases hn hp
    refine ⟨hk.seq.trans hs, hk.tx, hrxq, fun hoff => ?_⟩
    rcases hcap with hsame | htick
    · exact absurd (hsame.symm.trans hoff) hc
    · rw [htick] at hm
      cases hm
      exact ⟨htick, tickCap_stops (s := popTurn s) hc hoff⟩

/-- Settles O42, by induction on the ticks. -/
theorem thousandTicksFillTheBuffers : Obligations.ThousandTicksFillTheBuffers := by
  intro s rate hc ht
  obtain ⟨t, hrun, hdone⟩ := runs_captured hc ht le_rfl
  have hframe := hdone.frame
  exact ⟨t, hrun, hdone.cap.trans (if_pos rfl), congrArg (·.seq) hframe, congrArg (·.tx) hframe,
    congrArg (·.pb) hframe, congrArg (·.dac) hframe, fun k hk => hdone.entries k hk hk⟩

end Sys2Proof.Machine
end

section
/-! SUPPORT. The averaged read: each of its steps, and the whole of it, read by read and byte by byte. -/

namespace Sys2Proof.Machine

open Safety

/-! ### One read, and one byte of the response (R259 to R262) -/

section Step

variable {s : State} (hn : nextTurn s = .sequencer)
include hn

theorem step_reads {j sA sB : Nat} (hs : s.seq = .busy (.reads j sA sB)) :
    step s = .next (readStep Config.params j sA sB (popTurn s)) :=
  step_busy hn hs ⟨nofun, nofun⟩

theorem step_respond {b : Byte} {rest : List Byte} (hs : s.seq = .busy (.respond (b :: rest))) :
    step s = .next { popTurn s with
      tx := s.tx ++ [b], seq := .busy (if rest = [] then .complete else .respond rest) } := by
  rw [step_busy hn hs ⟨nofun, nofun⟩, busyStep, respondStep_cons]
  rfl

end Step

theorem readStep_even {j : Nat} (h : j % 2 = 0) (P : Params) (sA sB : Nat) (s : State) :
    readStep P j sA sB s = { s with
      seq := .busy (afterReads P (j + 1) (sA + (s.env.adcValue 0).toNat) sB), env := s.env.useAdc 1 } := by
  rw [readStep_eq, if_pos h]

theorem readStep_odd {j : Nat} (h : j % 2 = 1) (P : Params) (sA sB : Nat) (s : State) :
    readStep P j sA sB s = { s with
      seq := .busy (afterReads P (j + 1) sA (sB + (s.env.adcValue 0).toNat)), env := s.env.useAdc 1 } := by
  rw [readStep_eq, if_neg (by omega)]

theorem afterReads_of_lt {j : Nat} (h : j < readCount) (P : Params) (sA sB : Nat) :
    afterReads P j sA sB = .reads j sA sB := if_pos h

/-- After the twentieth read the two averages are sent, A's first (R261, R262). -/
theorem afterReads_readCount (P : Params) (sA sB : Nat) :
    afterReads P readCount sA sB =
      .respond (wordBytes P.streamEndian (average sA) ++ wordBytes P.streamEndian (average sB)) := rfl

/-! ### The twenty reads -/

/-- What the first `j` reads of `s` draw for A: the values at even places (R259; log 5). -/
def sumA (s : State) (j : Nat) : Nat := ∑ i ∈ Finset.range ((j + 1) / 2), (s.env.adcValue (2 * i)).toNat

/-- What the first `j` reads of `s` draw for B: the values at odd places. -/
def sumB (s : State) (j : Nat) : Nat := ∑ i ∈ Finset.range (j / 2), (s.env.adcValue (2 * i + 1)).toNat

theorem sumA_zero (s : State) : sumA s 0 = 0 := Finset.sum_range_zero _

theorem sumB_zero (s : State) : sumB s 0 = 0 := Finset.sum_range_zero _

theorem sumA_succ_even (s : State) {j : Nat} (h : j % 2 = 0) : sumA s (j + 1) = sumA s j + (s.env.adcValue j).toNat := by
  rw [sumA, sumA, show (j + 1 + 1) / 2 = j / 2 + 1 by omega, show (j + 1) / 2 = j / 2 by omega, Finset.sum_range_succ,
    show 2 * (j / 2) = j by omega]

theorem sumA_succ_odd (s : State) {j : Nat} (h : j % 2 = 1) : sumA s (j + 1) = sumA s j := by
  rw [sumA, sumA, show (j + 1 + 1) / 2 = (j + 1) / 2 by omega]

theorem sumB_succ_even (s : State) {j : Nat} (h : j % 2 = 0) : sumB s (j + 1) = sumB s j := by
  rw [sumB, sumB, show (j + 1) / 2 = j / 2 by omega]

theorem sumB_succ_odd (s : State) {j : Nat} (h : j % 2 = 1) : sumB s (j + 1) = sumB s j + (s.env.adcValue j).toNat := by
  rw [sumB, sumB, show (j + 1) / 2 = j / 2 + 1 by omega, Finset.sum_range_succ, show 2 * (j / 2) + 1 = j by omega]

theorem Env.useAdc_useAdc (e : Env) (j k : Nat) : (e.useAdc j).useAdc k = e.useAdc (j + k) := by
  simp [Env.useAdc, List.drop_drop, Nat.add_assoc]

/-- `s` with the first `j` reads of an `m2` made, and `SEQ` at the rule step after them. -/
def readsMade (s : State) (j : Nat) : State :=
  { s with seq := .busy (afterReads Config.params j (sumA s j) (sumB s j)), env := s.env.useAdc j }

/-- One read more, wherever `SEQ` was. -/
theorem readStep_readsMade (s : State) (j : Nat) (q : Seq) :
    readStep Config.params j (sumA s j) (sumB s j) { s with seq := q, env := s.env.useAdc j } = readsMade s (j + 1) := by
  rcases Nat.mod_two_eq_zero_or_one j with h | h
  · rw [readStep_even h, readsMade, sumA_succ_even s h, sumB_succ_even s h]
    simp only [Env.adcValue_useAdc, Env.useAdc_useAdc, Nat.add_zero]
  · rw [readStep_odd h, readsMade, sumA_succ_odd s h, sumB_succ_odd s h]
    simp only [Env.adcValue_useAdc, Env.useAdc_useAdc, Nat.add_zero]

theorem exec_m2 (s : State) : exec .m2 s = .next (readsMade s 1) :=
  congrArg Host.Outcome.next (readStep_readsMade s 0 s.seq)

theorem readsMade_one (s : State) :
    readsMade s 1 = { s with seq := .busy (.reads 1 (s.env.adcValue 0).toNat 0), env := s.env.useAdc 1 } := by
  rw [readsMade, afterReads_of_lt (by decide), sumA_succ_even s rfl, sumA_zero, Nat.zero_add, sumB_succ_even s rfl,
    sumB_zero]

theorem step_readsMade {s : State} (ht : s.env.turns = []) {j : Nat} (h : j < readCount) :
    step (readsMade s j) = .next (readsMade s (j + 1)) := by
  have hturns : (readsMade s j).env.turns = [] := ht
  have hs : (readsMade s j).seq = .busy (.reads j (sumA s j) (sumB s j)) := by rw [readsMade, afterReads_of_lt h]
  rw [step_reads (nextTurn_of_nil hturns) hs, popTurn_of_nil hturns, readsMade, readStep_readsMade]

/-- With no other turn between, `j` reads follow the first. -/
theorem runs_readsMade {s : State} (ht : s.env.turns = []) {j : Nat} (h : j < readCount) :
    Runs j (readsMade s 1) (readsMade s (j + 1)) := by
  induction j with
  | zero => exact runs_zero _
  | succ j ih => exact runs_add (ih (Nat.lt_of_succ_lt h)) (runs_one.mpr (step_readsMade ht h))

/-! ### The response -/

/-- With no other turn between, each byte is one step, and one more ends the command (R262; log 4). -/
theorem runs_response {s : State} {bytes : List Byte} (hne : bytes ≠ []) (hs : s.seq = .busy (.respond bytes))
    (ht : s.env.turns = []) : Runs (bytes.length + 1) s { s with tx := s.tx ++ bytes, seq := .ready } := by
  induction bytes generalizing s with
  | nil => exact absurd rfl hne
  | cons b rest ih =>
    have hsend := step_respond (nextTurn_of_nil ht) hs
    rw [popTurn_of_nil ht] at hsend
    refine (runs_succ hsend).mpr ?_
    by_cases hrest : rest = []
    · subst hrest
      exact runs_one.mpr (step_busy_of_nil (q := .complete) ht rfl ⟨nofun, nofun⟩)
    · rw [if_neg hrest]
      simpa using ih hrest (s := { s with tx := s.tx ++ [b], seq := .busy (.respond rest) }) rfl ht

/-- Ten u16 values add up to no more than an average takes (R261). -/
theorem sum_ten_le (v : Nat → Sample) : ∑ j ∈ Finset.range 10, (v j).toNat ≤ 655350 := by
  have hle := Finset.sum_le_card_nsmul (Finset.range 10) (fun j => (v j).toNat) 65535
    fun j _ => Nat.le_of_lt_succ (v j).isLt
  rwa [Finset.card_range, smul_eq_mul] at hle

/-- After its first step an `m2` makes nineteen reads more and sends its four bytes. -/
theorem runs_m2 {s : State} (ht : s.env.turns = []) :
    Runs 24 (readsMade s 1) { s with
      tx := s.tx ++ (wordBytes Config.params.streamEndian (average (sumA s 20)) ++
        wordBytes Config.params.streamEndian (average (sumB s 20)))
      seq := .ready
      env := s.env.useAdc 20 } := by
  have hreads : Runs 19 (readsMade s 1) (readsMade s 20) := runs_readsMade ht (by decide)
  exact runs_add hreads (runs_response (s := readsMade s 20) (by simp [wordBytes])
    (congrArg Seq.busy (afterReads_readCount Config.params _ _)) ht)

/-! ### The obligation -/

/-- Settles O46: the whole read, the step of each read, and that of each byte. -/
theorem m2SendsTheAverages : Obligations.M2SendsTheAverages := by
  refine ⟨fun s => ⟨readsMade s 1, average (sumA s 20), average (sumB s 20), exec_m2 s, readsMade_one s,
      average_toNat (sum_ten_le _), average_toNat (sum_ten_le _), runs_m2⟩,
    fun s j sA sB hn hs => ?_, fun s b rest hn => step_respond hn⟩
  rw [step_reads hn hs]
  refine ⟨fun heven hj => ?_, fun hodd hj => ?_, ?_⟩
  · rw [readStep_even heven, afterReads_of_lt (Nat.succ_lt_succ hj)]
    rfl
  · rw [readStep_odd hodd, afterReads_of_lt (Nat.succ_lt_succ hj)]
    rfl
  · rintro rfl
    rw [readStep_odd rfl]
    rfl

end Sys2Proof.Machine
end

section
/-! SUPPORT. What lasts while the block is faulted. -/

namespace Sys2Proof.Machine

/-- Settles O16: the faulted sequencer holds (R145), and no other agent writes `SEQ`, `FAULT` or `REARM`, or takes a line
off `RXQ`. -/
theorem faultLastsUntilReset : Obligations.FaultLastsUntilReset := by
  intro s t hs hp h
  by_cases hn : nextTurn s = .sequencer
  · rw [step_faulted_holds hn hs] at h
    cases h
    exact ⟨hs, rfl, rfl, [], (List.append_nil _).symm⟩
  · have hm := step_move h
    have hk : KeepsSequencerElements (popTurn s) t := (hm.sequencer_or_keeps hp).resolve_left fun ⟨hseq, _⟩ => hn hseq
    obtain ⟨hrxq, -⟩ := hm.rxq_grows_cap_cases hn hp
    exact ⟨hk.seq.trans hs, hk.fault, hk.rearm, hrxq⟩

end Sys2Proof.Machine
end

section
/-! SUPPORT. Reset and power-on (R330 to R332). -/

namespace Sys2Proof.Machine

open Safety

/-- Both channels start from one default register; only the calibrated bias is the channel's own (R331). -/
@[simp] theorem wave_resetWith (P : Params) (env : Env) (ch : Channel) :
    (State.resetWith P env).wave.get ch = GenReg.reset P ch := by
  cases ch <;> rfl

/-- No channel plays and neither output has been driven (R332). -/
theorem outputs_resetWith (P : Params) (env : Env) (ch : Channel) :
    (State.resetWith P env).pb.get ch = .stopped ∧ (State.resetWith P env).dac.get ch = none := by
  cases ch <;> exact ⟨rfl, rfl⟩

/-- The default amplitude is the real number 0: `ampOf` reads the rational 0 of the register (R331). -/
theorem ampOf_resetWith (env : Env) (ch : Channel) : ampOf (State.resetWith Config.params env) ch = 0 := by
  rw [ampOf, wave_resetWith]
  exact Rat.cast_zero

/-- A reset turn answers the reset state, and of the old state keeps the environment's future only (R330). -/
theorem step_powerOn {s : State} (h : nextTurn s = .powerOn) :
    step s = .next (State.resetWith Config.params (popTurn s).env) := by
  rw [step, h, takeTurn]

/-! ### The obligations -/

/-- Settles O53: the registers by their channel, the outputs by theirs, and the single elements as `State.resetWith` has
them. -/
theorem resetValues : Obligations.ResetValues := by
  refine ⟨fun ch => ?_, outputs_resetWith _ _, rfl, rfl, rfl, rfl, rfl, rfl, rfl, rfl, rfl⟩
  rw [State.reset, wave_resetWith]
  exact ⟨rfl, rfl, rfl, ampOf_resetWith _ ch, rfl⟩

/-- Settles O54: the reset state with another environment is `State.reset` with its `env` replaced. -/
theorem powerOnResetsEverything : Obligations.PowerOnResetsEverything := fun _ h => step_powerOn h

end Sys2Proof.Machine
end
